-- ==== Sys2Proof/Word.lean ====
section
/-! DEFINITION. The units the engine handles: bytes, 16-bit wire fields and colour table entries.
Wire values are unsigned (R9); cursors, lengths and codes are naturals (R8, D28). -/

namespace Sys2Proof

/-- A byte, bit 0 the least significant (R9). -/
abbrev Byte := BitVec 8

/-- A 16-bit unsigned wire field (R8, R112). -/
abbrev Half := BitVec 16

/-- A colour table entry: three 8-bit channels in the order red, green, blue (R72). -/
structure Rgb where
  r : Byte
  g : Byte
  b : Byte
  deriving DecidableEq, Repr

end Sys2Proof
end

