-- ==== Sys2Proof/Config.lean ====
section
/-! DEFINITION. The implementation parameters of R7 that this hardware fixes. `CAPACITY` is at its
default, unbounded (D21, log 16); `REG_MAP` assigns no addresses (D2), so it has no definition. -/

namespace Sys2Proof.Config

/-- `DICT_ENTRIES`: codes 0 to 4095 (R7). -/
def dictEntries : Nat := 4096

/-- `MAX_CODE_LEN`: the widest code, in bits (R7). -/
def maxCodeLen : Nat := 12

/-- `MIN_CODE_SIZE_LO`: the least admitted `minCodeSize` (R7, D7). -/
def minCodeSizeLo : Nat := 2

/-- `MIN_CODE_SIZE_HI`: the greatest admitted `minCodeSize` (R7, D7). -/
def minCodeSizeHi : Nat := 8

end Sys2Proof.Config
end

