-- ==== Sys2Proof/Syntax.lean ====
section
/-! DEFINITION. The operations of the engine, one constructor per row of spec/opcode_table.json (R116),
and the decode points at which a row is selected by its own bits. -/

namespace Sys2Proof

/-- One operation per opcode-table row. Operands are those the row is selected with (a length byte, a
label, a code, a command) or called with (`RDN(n)`, `CMP.PIX(k, r, c)`); the fields of an operation that is
selected by position only (`LSDESC`, `IMG.DESC`, tables) are read from `SRC` by its meaning. -/
inductive Instr where
  -- Bit/Byte Source (40_byte_source.md)
  | rd8
  | pk8
  | rd16
  | rdn (n : Nat)
  -- Sub-block Stream Reader (41_subblock_reader.md)
  | sbkRead
  | sbkData (n : Byte)
  | sbkTerm
  -- Container Demuxer (42_container_demuxer.md)
  | demux
  | hdr87a
  | hdr89a
  | hdrBad (magic : BitVec 48)
  | lsdesc
  | gctRead
  | blkClassify
  | blkImg
  | blkExt
  | blkTrl
  | blkUnk (b : Byte)
  -- Image Block Parser and Extension Parser (43_image_block_parser.md)
  | imgBlock
  | imgSep
  | imgDesc
  | lctRead
  | imgMcs
  | imgData
  | imgDecode
  | imgCommit
  | extBlock
  | extPtx
  | extGce
  | extCom
  | extApp
  | extOther (label : Byte)
  -- LZW Decoder (44_lzw_decoder.md)
  | lzwRun
  | lzwInit (cs : Byte)
  | lzwReset
  | lzwFetch
  | lzwExh
  | lzwClear
  | lzwEoi
  | lzwLit (code : Nat)
  | lzwKnown (code : Nat)
  | lzwKwkwk
  | lzwDrift (code : Nat)
  -- Frame Compositor (45_frame_compositor.md)
  | cmpFrame (k : Nat)
  | cmpSelect (k : Nat)
  | cmpCheck (k : Nat)
  | cmpPix (k r c : Nat)
  -- Host commands (46_host_commands.md)
  | cmdNop
  | cmdLoad
  | cmdComposite
  | cmdReset
  | cmdReserved (code : Byte)
  deriving DecidableEq, Repr

/-- The decode points whose rows are selected by a fixed bit pattern: the table's `space` column (R116). -/
inductive Point where
  /-- `SRC offset 0`: the six magic bytes (R101). -/
  | header
  /-- `block introducer`: one byte (R104). -/
  | introducer
  /-- `image block byte 0`: the separator (R105). -/
  | imageByte0
  /-- `extension label`: one byte (R108). -/
  | label
  /-- `sub-block length byte` (R107). -/
  | sbLength
  /-- `CMD register`: the command code (R111). -/
  | cmd
  deriving DecidableEq, Repr

end Sys2Proof
end

