-- ==== Sys2Proof/WellFormed.lean ====
section
/-! DEFINITION. Which operands an operation can carry: what the rows of one decode point leave for it
(R116: a catch-all row has no value that an exact row of its space takes), and the ranges the rules give. -/

namespace Sys2Proof

/-- `GIF87a` as bytes 0 to 5 of the stream, byte 0 most significant (R101, R116). -/
def magic87a : BitVec 48 := 0x474946383761#48

/-- `GIF89a` as bytes 0 to 5 of the stream, byte 0 most significant (R101, R116). -/
def magic89a : BitVec 48 := 0x474946383961#48

/-- An operation's operands are within what its row and rule admit. -/
def Instr.wf : Instr → Bool
  | .sbkData n => n != 0
  | .hdrBad m => m != magic87a && m != magic89a
  | .blkUnk b => b != 0x2C && b != 0x21 && b != 0x3B
  | .extOther l => l != 0x01 && l != 0xF9 && l != 0xFE && l != 0xFF
  | .lzwLit c => decide (c < 256)
  | .lzwKnown c => decide (5 < c) && decide (c < 4096)
  | .lzwDrift c => decide (6 < c) && decide (c < 4096)
  | .cmpPix _ r c => decide (r < 65536) && decide (c < 65536)
  | .cmdReserved c => decide (4 ≤ c.toNat)
  | .rd8 | .pk8 | .rd16 | .rdn _ | .sbkRead | .sbkTerm | .demux | .hdr87a | .hdr89a | .lsdesc
  | .gctRead | .blkClassify | .blkImg | .blkExt | .blkTrl | .imgBlock | .imgSep | .imgDesc
  | .lctRead | .imgMcs | .imgData | .imgDecode | .imgCommit | .extBlock | .extPtx | .extGce
  | .extCom | .extApp | .lzwRun | .lzwInit _ | .lzwReset | .lzwFetch | .lzwExh | .lzwClear
  | .lzwEoi | .lzwKwkwk | .cmpFrame _ | .cmpSelect _ | .cmpCheck _ | .cmdNop | .cmdLoad
  | .cmdComposite | .cmdReset => true

end Sys2Proof
end

