-- ==== Sys2Proof/Decode.lean ====
section
/-! DEFINITION. Decoding and encoding: field assembly (R112 to R115), the rows of each decode point (R116),
the classification of LZW codes (R117), and an encoder written from the same formats (R100 to R111). -/

namespace Sys2Proof

/-! ### Field assembly -/

/-- A 16-bit little-endian field: the byte at the lower offset is the less significant (R70, R112). -/
def half (lo hi : Byte) : Half := hi ++ lo

/-- The two bytes of a 16-bit field, lower offset first (R70). -/
def halfBytes (v : Half) : List Byte := [v.extractLsb' 0 8, v.extractLsb' 8 8]

/-- Six bytes as one 48-bit value, byte 0 of the stream most significant (R116). -/
def magicOf (a b c d e f : Byte) : BitVec 48 := a ++ b ++ c ++ d ++ e ++ f

/-- The six bytes of a 48-bit magic, byte 0 of the stream first (R116). -/
def magicBytes (m : BitVec 48) : List Byte :=
  [m.extractLsb' 40 8, m.extractLsb' 32 8, m.extractLsb' 24 8, m.extractLsb' 16 8,
    m.extractLsb' 8 8, m.extractLsb' 0 8]

/-- The entries of a colour table: entry `i` is bytes `3i`, `3i+1`, `3i+2` (R72, R103). -/
def tableOf : List Byte → List Rgb
  | r :: g :: b :: rest => ⟨r, g, b⟩ :: tableOf rest
  | _ => []

/-- The little-endian integer of a byte sequence (R115). -/
def leNat : List Byte → Nat
  | [] => 0
  | b :: bs => b.toNat + 256 * leNat bs

/-- The low `n` bytes of `v`, least significant first. -/
def leBytes : Nat → Nat → List Byte
  | 0, _ => []
  | n + 1, v => BitVec.ofNat 8 v :: leBytes n (v / 256)

/-- Bit `k` of a buffer: bit `k mod 8` of byte `k div 8` (R71). -/
def bitAt (buf : List Byte) (k : Nat) : Nat :=
  ((buf.getD (k / 8) 0).toNat / 2 ^ (k % 8)) % 2

/-- The code of width `w` whose first bit is bit `p`: the first bit met is the least significant
(R71, R115). -/
def codeAt (buf : List Byte) (p : Nat) : Nat → Nat
  | 0 => 0
  | w + 1 => bitAt buf p + 2 * codeAt buf (p + 1) w

/-! ### The decode points (R116) -/

/-- Why no row of a decode point matches: the bytes end before the pattern does, or the image block's
first byte is not the separator (R119). -/
inductive DecodeError where
  | short (need : Nat)
  | badSeparator (b : Byte)
  deriving DecidableEq, Repr

/-- `SRC offset 0`: the two magics, else `HDR.BAD` (R101, R161). -/
def decodeMagic (m : BitVec 48) : Instr :=
  if m = magic87a then .hdr87a else if m = magic89a then .hdr89a else .hdrBad m

/-- `block introducer` (R104, R164). -/
def decodeIntroducer (b : Byte) : Instr :=
  if b = 0x2C then .blkImg else if b = 0x21 then .blkExt else if b = 0x3B then .blkTrl else .blkUnk b

/-- `extension label` (R108, R191). -/
def decodeLabel (l : Byte) : Instr :=
  if l = 0x01 then .extPtx else if l = 0xF9 then .extGce else if l = 0xFE then .extCom
  else if l = 0xFF then .extApp else .extOther l

/-- `sub-block length byte` (R107, R150). -/
def decodeSbLength (n : Byte) : Instr := if n = 0 then .sbkTerm else .sbkData n

/-- `CMD register` (R111, R260). -/
def decodeCmd (c : Byte) : Instr :=
  if c = 0x00 then .cmdNop else if c = 0x01 then .cmdLoad else if c = 0x02 then .cmdComposite
  else if c = 0x03 then .cmdReset else .cmdReserved c

/-- The row that the bytes at a decode point select; the bytes beyond the pattern are not looked at. -/
def decode : Point → List Byte → Except DecodeError Instr
  | .header, a :: b :: c :: d :: e :: f :: _ => .ok (decodeMagic (magicOf a b c d e f))
  | .header, _ => .error (.short 6)
  | .introducer, b :: _ => .ok (decodeIntroducer b)
  | .imageByte0, b :: _ => if b = 0x2C then .ok .imgSep else .error (.badSeparator b)
  | .label, b :: _ => .ok (decodeLabel b)
  | .sbLength, b :: _ => .ok (decodeSbLength b)
  | .cmd, b :: _ => .ok (decodeCmd b)
  | .introducer, [] | .imageByte0, [] | .label, [] | .sbLength, [] | .cmd, [] => .error (.short 1)

/-- The class of a fetched LZW code, tested in the order of R117. -/
def decodeLzw (clear eoi next code : Nat) : Instr :=
  if code = clear then .lzwClear
  else if code = eoi then .lzwEoi
  else if code < clear then .lzwLit code
  else if code < next then .lzwKnown code
  else if code = next then .lzwKwkwk
  else .lzwDrift code

/-- The test made before each fetch: a code is formed only if `CODE_LEN` bits remain (R200, R204). -/
def decodeLzwNext (bitsLeft codeLen : Nat) : Instr :=
  if bitsLeft < codeLen then .lzwExh else .lzwFetch

/-! ### The encoder -/

/-- The decode point whose pattern selects an operation; `none` for the operations selected by position,
by comparison with registers, or called by other rules (R116). -/
def Instr.point : Instr → Option Point
  | .hdr87a | .hdr89a | .hdrBad _ => some .header
  | .blkImg | .blkExt | .blkTrl | .blkUnk _ => some .introducer
  | .imgSep => some .imageByte0
  | .extPtx | .extGce | .extCom | .extApp | .extOther _ => some .label
  | .sbkData _ | .sbkTerm => some .sbLength
  | .cmdNop | .cmdLoad | .cmdComposite | .cmdReset | .cmdReserved _ => some .cmd
  | .rd8 | .pk8 | .rd16 | .rdn _ | .sbkRead | .demux | .lsdesc | .gctRead | .blkClassify
  | .imgBlock | .imgDesc | .lctRead | .imgMcs | .imgData | .imgDecode | .imgCommit | .extBlock
  | .lzwRun | .lzwInit _ | .lzwReset | .lzwFetch | .lzwExh | .lzwClear | .lzwEoi | .lzwLit _
  | .lzwKnown _ | .lzwKwkwk | .lzwDrift _ | .cmpFrame _ | .cmpSelect _ | .cmpCheck _
  | .cmpPix _ _ _ => none

/-- The bytes that select an operation at its decode point; empty where the row has no encoding. -/
def encode : Instr → List Byte
  | .hdr87a => [0x47, 0x49, 0x46, 0x38, 0x37, 0x61]
  | .hdr89a => [0x47, 0x49, 0x46, 0x38, 0x39, 0x61]
  | .hdrBad m => magicBytes m
  | .blkImg => [0x2C]
  | .blkExt => [0x21]
  | .blkTrl => [0x3B]
  | .blkUnk b => [b]
  | .imgSep => [0x2C]
  | .extPtx => [0x01]
  | .extGce => [0xF9]
  | .extCom => [0xFE]
  | .extApp => [0xFF]
  | .extOther l => [l]
  | .sbkData n => [n]
  | .sbkTerm => [0x00]
  | .cmdNop => [0x00]
  | .cmdLoad => [0x01]
  | .cmdComposite => [0x02]
  | .cmdReset => [0x03]
  | .cmdReserved c => [c]
  | .rd8 | .pk8 | .rd16 | .rdn _ | .sbkRead | .demux | .lsdesc | .gctRead | .blkClassify
  | .imgBlock | .imgDesc | .lctRead | .imgMcs | .imgData | .imgDecode | .imgCommit | .extBlock
  | .lzwRun | .lzwInit _ | .lzwReset | .lzwFetch | .lzwExh | .lzwClear | .lzwEoi | .lzwLit _
  | .lzwKnown _ | .lzwKwkwk | .lzwDrift _ | .cmpFrame _ | .cmpSelect _ | .cmpCheck _
  | .cmpPix _ _ _ => []

/-- The code value that selects an LZW class under the given registers (R117). -/
def encodeLzw (clear eoi next : Nat) : Instr → Option Nat
  | .lzwClear => some clear
  | .lzwEoi => some eoi
  | .lzwLit c => some c
  | .lzwKnown c => some c
  | .lzwKwkwk => some next
  | .lzwDrift c => some c
  | _ => none

/-- The little-endian integer of a sequence of codes (value, width), the first code in the low bits
(R71, R110; the listing notation `value/width` of R123). -/
def packedNat : List (Nat × Nat) → Nat
  | [] => 0
  | (c, w) :: rest => c % 2 ^ w + 2 ^ w * packedNat rest

/-- How many bits a sequence of codes takes. -/
def packedBits : List (Nat × Nat) → Nat
  | [] => 0
  | (_, w) :: rest => w + packedBits rest

/-- A sequence of codes packed into bytes, the last byte padded with zero bits (R71). -/
def packCodes (codes : List (Nat × Nat)) : List Byte :=
  leBytes ((packedBits codes + 7) / 8) (packedNat codes)

/-- The 7 bytes of a logical screen descriptor (R102). -/
def encodeLsd (width height : Half) (flags bgIndex aspect : Byte) : List Byte :=
  halfBytes width ++ halfBytes height ++ [flags, bgIndex, aspect]

/-- The 9 bytes of an image descriptor after its separator (R105). -/
def encodeImageDesc (left top width height : Half) (flags : Byte) : List Byte :=
  halfBytes left ++ halfBytes top ++ halfBytes width ++ halfBytes height ++ [flags]

/-- The bytes of a colour table (R103). -/
def encodeTable : List Rgb → List Byte
  | [] => []
  | e :: rest => e.r :: e.g :: e.b :: encodeTable rest

/-- The bytes of a sub-block sequence, terminator last (R107). -/
def encodeSubBlocks : List (List Byte) → List Byte
  | [] => [0x00]
  | p :: rest => BitVec.ofNat 8 p.length :: (p ++ encodeSubBlocks rest)

/-! ### Words of the host's probe -/

/-- The decode point at which a lone byte is decoded when nothing says which one it stands at: the first of
`CMD register`, `block introducer`, `extension label` that has an exact row for it, else `CMD register`
(DESIGN CHOICE, log 7: the table gives one byte value to rows of several spaces). -/
def pointOfByte (b : Byte) : Point :=
  if b.toNat < 4 then .cmd
  else if b = 0x2C ∨ b = 0x21 ∨ b = 0x3B then .introducer
  else if b = 0xF9 ∨ b = 0xFE ∨ b = 0xFF then .label
  else .cmd

/-- What an element of so many bytes, lying in stream order, decodes to: one byte at `pointOfByte`, six as a
header, seven as a logical screen descriptor and nine as an image descriptor, which are selected by position
whatever their bits (R116). -/
def decodeElement (bs : List Byte) : Option Instr :=
  match bs with
  | [b] => (decode (pointOfByte b) [b]).toOption
  | [_, _, _, _, _, _] => (decode .header bs).toOption
  | [_, _, _, _, _, _, _] => some .lsdesc
  | [_, _, _, _, _, _, _, _, _] => some .imgDesc
  | _ => none

/-- The instruction read from the bits of the host's probe, the first byte of the stream in the low bits (DESIGN
CHOICE, log 7). It is not the order of the table's 48-bit header rows, whose `match` has byte 0 of the stream as its
most significant byte (R116); `decode` itself takes bytes in stream order and compares them with that `match`. -/
def decodeTableWord (nbits w : Nat) : Option Instr := decodeElement (leBytes (nbits / 8) w)

end Sys2Proof
end

