-- ==== Sys2Proof/Machine/State.lean ====
section
/-! DEFINITION. The engine's state (10_state.md R20 to R47) as plain data, the causes of its faults
(60_exceptions.md R281), the model's own stops, and the state after reset (R47). -/

namespace Sys2Proof.Machine

/-- The causes of R281 other than "none". -/
inductive Cause where
  | badMagic
  | unknownBlock
  | badSeparator
  | truncated
  | lzwDrift
  | badCodeSize
  | lzwEmptyPrefix
  | pixelCount
  | noColorTable
  | frameOutsideCanvas
  | colorIndexRange
  | badCommand
  deriving DecidableEq, Repr

/-- The control phase `PHASE` (R29). -/
inductive Phase where
  | idle
  | header
  | lsd
  | gct
  | block
  | image
  | extension
  | composite
  | done
  | faulted
  deriving DecidableEq, Repr

/-- `LZW_STATUS` (R39). -/
inductive LzwStatus where
  | idle
  | running
  | eoi
  | exhausted
  deriving DecidableEq, Repr

/-- `STATUS` (R25): its five flags; bits 7:5 are hard-wired to 0 and hold nothing (log 11). -/
structure Status where
  busy : Bool
  done : Bool
  fault : Bool
  resultValid : Bool
  driftWarn : Bool
  deriving DecidableEq, Repr

/-- A stored frame (R35). `lct` is absent where the frame defers to the global table. -/
structure Frame where
  left : Half
  top : Half
  width : Half
  height : Half
  flags : Byte
  lct : Option (List Rgb)
  minCodeSize : Byte
  idx : List Byte
  deriving DecidableEq, Repr

/-- A stored extension (R36). -/
structure Extension where
  label : Byte
  data : List Byte
  deriving DecidableEq, Repr

/-- The result store (R31 to R36). `gct` is present exactly when `GCT_VALID = 1`; `N_FRAMES` and `N_EXTS`
are the lengths of `frames` and `exts` (log 10). -/
structure GifImage where
  version : BitVec 24
  lsdWidth : Half
  lsdHeight : Half
  lsdFlags : Byte
  bgIndex : Byte
  aspect : Byte
  gct : Option (List Rgb)
  frames : List Frame
  exts : List Extension
  deriving DecidableEq, Repr

/-- The LZW registers and dictionary (R30, R39, R40). A code that `dict` does not list holds no value.
`runs` is the list of runs (R217); `code` and `p0` are the locals of R200 that live between a fetch and the
step that handles the code (log 9). -/
structure Lzw where
  codeSize : Nat
  clearCode : Nat
  eoiCode : Nat
  codeLen : Nat
  nextCode : Nat
  last : List Byte
  dict : List (Nat × List Byte)
  byteIdx : Nat
  bitOff : Nat
  out : List Byte
  runs : List (List Byte)
  status : LzwStatus
  code : Nat
  p0 : Nat
  deriving DecidableEq, Repr

/-- The result a byte-source primitive returns to its caller (R141 to R144; log 9). -/
inductive Ret where
  | none
  | byte (b : Byte)
  | half (v : Half)
  | bytes (bs : List Byte)
  deriving DecidableEq, Repr

/-- A pending line of the pseudocode of the running command (log 1). -/
inductive Line where
  /-- Call an operation that is selected by position or by its caller. -/
  | run (i : Instr)
  /-- `PHASE <- p` in `DEMUX` (R160). -/
  | setPhase (p : Phase)
  /-- Select an operation by the bytes at a decode point and call it. -/
  | decodeAt (p : Point)
  /-- The head of the block loop of `DEMUX` (R160). -/
  | blockLoop
  /-- The last two lines of `EXT.BLOCK` (R190). -/
  | storeExt
  /-- The head of the loop of `LZW.RUN` (R200, R204). -/
  | lzwNext
  /-- Classify the fetched code (R117). -/
  | lzwClassify
  /-- The last line of `CMD.LOAD` (R263). -/
  | endLoad
  /-- The head of the loops of `CMP.FRAME(k)` at row `r`, column `c` (R240). -/
  | pixelLoop (k r c : Nat)
  /-- The last line of `CMD.COMPOSITE` (R264). -/
  | endComposite
  deriving DecidableEq, Repr

/-- Byte memory: (address, byte) pairs with strictly rising addresses; an address that is not listed holds
no byte (log 5). -/
abbrev Memory := List Host.Cell

/-- The engine's state (R20), with the launch parameters `SRC` and `FB` it works on. -/
structure State where
  -- host-visible registers (R22 to R26)
  cmd : Byte
  arg : Nat
  cfg : Byte
  status : Status
  faultKind : Byte
  faultCause : Byte
  faultPos : Nat
  faultAux : Nat
  -- cursor and phase (R27, R29)
  pos : Nat
  phase : Phase
  -- result store (R31)
  img : GifImage
  -- working registers of the block being parsed (R37, R38)
  acc : List Byte
  sbLen : Byte
  cur : Frame
  mcsPos : Nat
  curLabel : Byte
  peeked : Byte
  -- LZW registers and dictionary (R39)
  lzw : Lzw
  -- compositor (R43), and the locals CT and n of R240 (log 9)
  row : Nat
  col : Nat
  ct : List Rgb
  ctLen : Nat
  -- buffers (R44): the source stream, SRC_LEN its length, and the output buffer
  src : List Byte
  fb : Memory
  -- the model's own: a COMPOSITE has faulted since `FB` was last filled (R330 item 6; log 26)
  fbStale : Bool
  -- the model's own: pending lines (log 1) and the last returned result (log 9)
  ctl : List Line
  ret : Ret
  deriving DecidableEq, Repr

/-- The model's own stops, none of them a fault of R281 (those are taken as next states, log 2). Each stands
where a rule says that the case cannot arise or that the thing read does not exist, and each is safe: the model
stops, it invents nothing (log 18). -/
inductive Fault where
  /-- `step`, with `BUSY = 1` and no pending line: no run reaches it. Safe. -/
  | noPendingLine
  /-- `LZW.FETCH` with fewer than `CODE_LEN` bits left: R115 defines no code then. Safe. -/
  | noCodeBits
  /-- `LZW.LIT`, `LZW.KNOWN`: the dictionary entry holds no value (R40). Safe. -/
  | noDictEntry (code : Nat)
  /-- `CMP.FRAME`, `CMP.SELECT`, `CMP.CHECK`, `CMP.PIX`: frame `k` does not exist (R35). Safe. -/
  | noFrame (k : Nat)
  /-- `CMP.SELECT`: the frame's flags announce a local table that the frame does not hold (R35); `CMP.PIX`:
  the table holds no such entry (R34). Safe. -/
  | noTableEntry (i : Nat)
  /-- `CMP.PIX`: `IDX` has no byte at that offset (R242 says it always has). Safe. -/
  | noIndexByte (i : Nat)
  /-- `CMP.PIX`: the address lies outside `FB` (R78, R241). Safe. -/
  | outsideFb (a : Nat)
  deriving DecidableEq, Repr

/-- Why the model refuses a move. -/
inductive Refusal where
  /-- An instruction without a meaning; no arm of `exec` answers with it. Safe. -/
  | notModelled (mnemonic : String)
  /-- A host move on `CMD` (other than RESET), `ARG`, `CFG`, `SRC` or `FB` while `BUSY = 1` or a command waits in
  `CMD`: the model gives the host no such move (R81, R262, U10, U11). Raised by `CMD.LOAD`, `CMD.COMPOSITE`,
  `CMD.RESERVED` run while busy and by the host port. Safe. -/
  | hostBusy
  /-- A read of the result store while `RESULT_VALID = 0` or out of the host's turn (R31, R81, U12), by the host
  port. Safe. -/
  | resultInvalid
  /-- A buffer supplied as `FB`, or one that COMPOSITE would work on, whose length is not
  `LSD_WIDTH * LSD_HEIGHT * 3` (R324, R330 item 5, U15), by the host port. Safe. -/
  | fbLength
  /-- A host read of `FB`, or a COMPOSITE on it, after a COMPOSITE fault and before `FB` has been filled again (R330
  item 6; log 26), by the host port. Safe. -/
  | fbStale
  /-- A host access to an offset at which `FB` has no byte (R44; log 5), by the host port. Safe. -/
  | outsideFb
  deriving DecidableEq, Repr

/-- The outcome of one operation or step. -/
abbrev Out := Host.Outcome State Fault Refusal

/-- `STATUS = 0x00` (R47). -/
def Status.reset : Status := ⟨false, false, false, false, false⟩

/-- A frame record of zeros, without a table and without pixels (log 3). -/
def Frame.zero : Frame := ⟨0, 0, 0, 0, 0, none, 0, []⟩

/-- The result store "constructed empty" (R31, R47; the unspecified registers are zero, log 3). -/
def GifImage.empty : GifImage := ⟨0, 0, 0, 0, 0, 0, none, [], []⟩

/-- `LZW_STATUS = IDLE` (R47); the other LZW registers are unspecified and zero, and no dictionary entry
holds a value (log 3). -/
def Lzw.reset : Lzw := ⟨0, 0, 0, 0, 0, [], [], 0, 0, [], [], .idle, 0, 0⟩

/-- The state after power-on reset (R47, R320): the values the spec states, and zero for the registers it
leaves unspecified (log 3); no source stream supplied (log 6), no output buffer supplied (log 5). -/
def State.reset : State :=
  { cmd := 0, arg := 0, cfg := 0, status := .reset
    faultKind := 0, faultCause := 0, faultPos := 0, faultAux := 0
    pos := 0, phase := .idle
    img := .empty
    acc := [], sbLen := 0, cur := .zero, mcsPos := 0, curLabel := 0, peeked := 0
    lzw := .reset
    row := 0, col := 0, ct := [], ctLen := 0
    src := [], fb := [], fbStale := false
    ctl := [], ret := .none }

end Sys2Proof.Machine
end

