-- ==== Sys2Proof/Machine/Ops.lean ====
section
/-! DEFINITION. The shared operations: byte memory and the dictionary store, the fault registers, taking a
fault (R290, R291), calls, and results that may have ended in a fault. -/

namespace Sys2Proof.Machine

/-! ### Canonical lists of cells -/

/-- The value at key `a`, `none` if no cell lists it. -/
def cellGet {α : Type} : List (Nat × α) → Nat → Option α
  | [], _ => none
  | (k, v) :: rest, a => if a = k then some v else if a < k then none else cellGet rest a

/-- The cells with `v` at key `a`, the keys still rising. -/
def cellPut {α : Type} : List (Nat × α) → Nat → α → List (Nat × α)
  | [], a, v => [(a, v)]
  | (k, w) :: rest, a, v =>
    if a < k then (a, v) :: (k, w) :: rest
    else if a = k then (a, v) :: rest
    else (k, w) :: cellPut rest a v

/-- The canonical form: keys strictly rising. -/
def cellWf {α : Type} : List (Nat × α) → Bool
  | [] => true
  | [_] => true
  | x :: y :: rest => decide (x.1 < y.1) && cellWf (y :: rest)

/-- The byte at address `a`, `none` where there is none (log 5). -/
def Memory.read (m : Memory) (a : Nat) : Option Byte := cellGet m a

/-- The memory with byte `b` at address `a`. -/
def Memory.write (m : Memory) (a : Nat) (b : Byte) : Memory := cellPut m a b

/-- `MemWrite(space, a, n, v)`: the bytes `v` from address `a` on, lowest address first (R10). -/
def Memory.writeBytes (m : Memory) (a : Nat) : List Byte → Memory
  | [] => m
  | b :: bs => Memory.writeBytes (m.write a b) (a + 1) bs

/-- The canonical form of a memory. -/
def Memory.wf (m : Memory) : Bool := cellWf m

/-- `FB` is `LSD_WIDTH * LSD_HEIGHT * 3` bytes (R78, U15). -/
def fbSize (s : State) : Nat := s.img.lsdWidth.toNat * s.img.lsdHeight.toNat * 3

/-! ### Registers -/

/-- `FAULT_KIND` of a cause: 1 FormatError, 2 TruncatedInputError, 3 ProtocolDrift, 4 ModelFault (R281). -/
def Cause.kind : Cause → Byte
  | .badMagic | .unknownBlock | .badSeparator => 1
  | .truncated => 2
  | .lzwDrift => 3
  | .badCodeSize | .lzwEmptyPrefix | .pixelCount | .noColorTable | .frameOutsideCanvas
  | .colorIndexRange | .badCommand => 4

/-- `FAULT_CAUSE` of a cause (R281). -/
def Cause.code : Cause → Byte
  | .badMagic => 1
  | .unknownBlock => 2
  | .badSeparator => 3
  | .truncated => 4
  | .lzwDrift => 5
  | .badCodeSize => 6
  | .lzwEmptyPrefix => 7
  | .pixelCount => 8
  | .noColorTable => 9
  | .frameOutsideCanvas => 10
  | .colorIndexRange => 11
  | .badCommand => 12

/-- Whether a cause is one that only a LOAD raises (R282), whose fault therefore clears `RESULT_VALID`
(R290); the compositor's causes and `BAD_COMMAND` leave it (R291; log 17). -/
def Cause.ofLoad : Cause → Bool
  | .badMagic | .unknownBlock | .badSeparator | .truncated | .lzwDrift | .badCodeSize
  | .lzwEmptyPrefix | .pixelCount => true
  | .noColorTable | .frameOutsideCanvas | .colorIndexRange | .badCommand => false

/-- Whether a fault is one of COMPOSITE (R282): a compositor cause, or `BAD_COMMAND` with COMPOSITE's code. The host
must then discard `FB` or refill it (R268, R330 item 6; log 26). -/
def Cause.ofComposite (c : Cause) (aux : Nat) : Bool :=
  match c with
  | .noColorTable | .frameOutsideCanvas | .colorIndexRange => true
  | .badCommand => aux == 2
  | .badMagic | .unknownBlock | .badSeparator | .truncated | .lzwDrift | .badCodeSize
  | .lzwEmptyPrefix | .pixelCount => false

/-- `CFG.STRICT` (R24). -/
def strict (s : State) : Bool := s.cfg.getLsbD 0

/-- `N_FRAMES` (R35). -/
def nFrames (s : State) : Nat := s.img.frames.length

/-- `N_EXTS` (R36). -/
def nExts (s : State) : Nat := s.img.exts.length

/-- `GCT_VALID` (R34). -/
def gctValid (s : State) : Bool := s.img.gct.isSome

/-- `SRC_LEN` (R7). -/
def srcLen (s : State) : Nat := s.src.length

/-! ### Calls, faults and completion -/

/-- Call the given lines before the caller's next line (R11; log 1). -/
def call (lines : List Line) (s : State) : State := { s with ctl := lines ++ s.ctl }

/-- `raise Kind.CAUSE(pos, aux)` (R290, R291): record the report, clear `RESULT_VALID` for a cause of a load,
set `FAULT`, clear `DONE` and `BUSY`, go to `FAULTED`, and end the operation and all its callers. There is no
return from a fault (R295): LOAD, COMPOSITE and RESET are the ways on (`clearReport`). No byte of `FB` changes, but a
fault of COMPOSITE leaves `FB` to be discarded or refilled (R330 item 6). -/
def raise (c : Cause) (pos aux : Nat) (s : State) : State :=
  { s with
    faultKind := c.kind
    faultCause := c.code
    faultPos := pos
    faultAux := aux
    status := { s.status with
      resultValid := s.status.resultValid && !c.ofLoad, fault := true, done := false, busy := false }
    phase := .faulted
    fbStale := s.fbStale || c.ofComposite aux
    ctl := [] }

/-- The start of an accepted LOAD or COMPOSITE: `BUSY <- 1`, `DONE <- 0`, `FAULT <- 0` and the fault registers
cleared (R263, R264, R296). -/
def clearReport (s : State) : State :=
  { s with
    status := { s.status with busy := true, done := false, fault := false }
    faultKind := 0, faultCause := 0, faultPos := 0, faultAux := 0 }

/-- The end of a command without a fault: `DONE <- 1`, `BUSY <- 0`, `PHASE <- DONE` (R263, R264, R266). -/
def complete (s : State) : State :=
  { s with status := { s.status with done := true, busy := false }, phase := .done }

/-- The last line of `CMD.LOAD` (R263): the result is valid. -/
def endLoad (s : State) : State :=
  complete { s with status := { s.status with resultValid := true } }

/-- A result, or the state of a fault that ended the read. -/
inductive Res (α : Type) where
  | ok (v : α) (s : State)
  | trap (s : State)

/-- Go on with the result; a fault ends the operation at once (R10, `raise`). -/
def Res.andThen {α : Type} (r : Res α) (f : α → State → Out) : Out :=
  match r with
  | .ok v s => f v s
  | .trap s => .next s

/-! ### The dictionary and the LZW registers -/

/-- The seed of the dictionary: `DICT[c] = <c>` for the first `n` codes (R202). -/
def seedDict (n : Nat) : List (Nat × List Byte) :=
  (List.range n).map fun c => (c, [BitVec.ofNat 8 c])

/-- `BITPOS = 8*BYTE_IDX + BIT_OFF` (R30). -/
def bitPos (z : Lzw) : Nat := 8 * z.byteIdx + z.bitOff

/-- The bits of `ACC` that remain beyond the cursor (R204). -/
def bitsLeft (s : State) : Nat := 8 * s.acc.length - bitPos s.lzw

/-- `LZW.RESET` on the registers (R202): the seed entries only, `CODE_LEN`, `NEXT_CODE` and `LAST` in their
initial state. -/
def resetLzw (z : Lzw) : Lzw :=
  { z with
    dict := seedDict z.clearCode
    codeLen := z.codeSize + 1
    nextCode := z.eoiCode + 1
    last := [] }

/-- `LZW.INIT(cs)` on the registers, for an admitted `cs` (R201). -/
def initLzw (cs : Nat) (z : Lzw) : Lzw :=
  { resetLzw { z with codeSize := cs, clearCode := 2 ^ cs, eoiCode := 2 ^ cs + 1 } with
    byteIdx := 0, bitOff := 0, out := [], runs := [], status := .running }

/-- `emit v` (R200, R217). -/
def emit (v : List Byte) (z : Lzw) : Lzw := { z with out := z.out ++ v, runs := z.runs ++ [v] }

/-- Step 5, dictionary growth (R214): the entry is the old `LAST` and the first byte of the new value. -/
def growDict (value : List Byte) (z : Lzw) : Lzw :=
  if z.last ≠ [] ∧ z.nextCode < Config.dictEntries then
    { z with dict := cellPut z.dict z.nextCode (z.last ++ value.take 1), nextCode := z.nextCode + 1 }
  else z

/-- Step 6, code-width growth (R215). -/
def growWidth (z : Lzw) : Lzw :=
  if 2 ^ z.codeLen ≤ z.nextCode ∧ z.codeLen < Config.maxCodeLen then
    { z with codeLen := z.codeLen + 1 }
  else z

/-- Steps 5 to 7 for a data code of the given value, in the order of R208 (R214, R215, R216). -/
def dataCode (value : List Byte) (z : Lzw) : Lzw :=
  emit value { growWidth (growDict value z) with last := value }

/-- The fix-up value `LAST ++ <LAST[0]>` (R211). -/
def fixUp (z : Lzw) : List Byte := z.last ++ z.last.take 1

end Sys2Proof.Machine
end

