-- ==== Sys2Proof/Machine/Operands.lean ====
section
/-! DEFINITION. The byte source's reads, the only access to `SRC` (R140 to R145), and the bit fetch (R203). -/

namespace Sys2Proof.Machine

/-- The byte of `SRC` at offset `a`, for `a` below `SRC_LEN`. -/
def srcByte (s : State) (a : Nat) : Byte := s.src.getD a 0

/-- The failing read: nothing consumed, `TRUNCATED(POS, n)` (R140). -/
def truncated (n : Nat) (s : State) : State := raise .truncated s.pos n s

/-- `RD8` (R141). -/
def readByte (s : State) : Res Byte :=
  if srcLen s < s.pos + 1 then .trap (truncated 1 s)
  else .ok (srcByte s s.pos) { s with pos := s.pos + 1 }

/-- `PK8` (R142). -/
def peekByte (s : State) : Res Byte :=
  if srcLen s < s.pos + 1 then .trap (truncated 1 s) else .ok (srcByte s s.pos) s

/-- `RD16` (R143). -/
def readHalf (s : State) : Res Half :=
  if srcLen s < s.pos + 2 then .trap (truncated 2 s)
  else .ok (half (srcByte s s.pos) (srcByte s (s.pos + 1))) { s with pos := s.pos + 2 }

/-- `RDN(n)` (R144). -/
def readBytes (n : Nat) (s : State) : Res (List Byte) :=
  if srcLen s < s.pos + n then .trap (truncated n s)
  else .ok ((s.src.drop s.pos).take n) { s with pos := s.pos + n }

/-- The registers after a fetch (R203): the code of `CODE_LEN` bits at the cursor, the bit position of its
first bit, and the cursor moved past it. -/
def fetchCode (acc : List Byte) (z : Lzw) : Lzw :=
  { z with
    code := codeAt acc (bitPos z) z.codeLen
    p0 := bitPos z
    byteIdx := (bitPos z + z.codeLen) / 8
    bitOff := (bitPos z + z.codeLen) % 8 }

end Sys2Proof.Machine
end

