-- ==== Sys2Proof/Machine/ByteSource.lean ====
section
/-! DEFINITION. The Bit/Byte Source (40_byte_source.md): the four primitives, each over its shared read. -/

namespace Sys2Proof.Machine

/-- `RD8` (R141). -/
def execRd8 (s : State) : Out := (readByte s).andThen fun b s => .next { s with ret := .byte b }

/-- `PK8` (R142). -/
def execPk8 (s : State) : Out := (peekByte s).andThen fun b s => .next { s with ret := .byte b }

/-- `RD16` (R143). -/
def execRd16 (s : State) : Out := (readHalf s).andThen fun v s => .next { s with ret := .half v }

/-- `RDN(n)` (R144). -/
def execRdn (n : Nat) (s : State) : Out :=
  (readBytes n s).andThen fun bs s => .next { s with ret := .bytes bs }

end Sys2Proof.Machine
end

