-- ==== Sys2Proof/Machine/Commands.lean ====
section
/-! DEFINITION. The host commands (46_host_commands.md). LOAD, COMPOSITE and a reserved code are accepted only
while `BUSY = 0` (R262); the model gives the host no move that breaks this, so they are refused then (U10). -/

namespace Sys2Proof.Machine

/-- Acceptance (R262). -/
def accepted (s : State) (o : Out) : Out := if s.status.busy then .refused .hostBusy else o

/-- `CMD.NOP` (R261): no effect on any state. -/
def execCmdNop (s : State) : Out := .next s

/-- The first lines of `CMD.LOAD` (R263), before `DEMUX`. -/
def startLoad (s : State) : State :=
  { clearReport s with
    status := { (clearReport s).status with resultValid := false, driftWarn := false }
    img := { s.img with frames := [], exts := [], gct := none }
    pos := 0
    ctl := [.run .demux, .endLoad] }

/-- `CMD.LOAD` (R263). -/
def execCmdLoad (s : State) : Out := accepted s (.next (startLoad s))

/-- The first lines of an accepted `CMD.COMPOSITE` (R264), before `CMP.FRAME(ARG)`. -/
def startComposite (s : State) : State :=
  { clearReport s with phase := .composite, ctl := [.run (.cmpFrame s.arg), .endComposite] }

/-- `CMD.COMPOSITE` (R264): `BAD_COMMAND` without a valid result or such a frame. -/
def execCmdComposite (s : State) : Out :=
  accepted s <|
    if s.status.resultValid = false ∨ nFrames s ≤ s.arg then .next (raise .badCommand 0 2 s)
    else .next (startComposite s)

/-- `CMD.RESET` (R265), accepted at any time: every piece of state at its reset value (R47), `SRC` and `FB`
not touched (log 14), nor what the host still owes `FB` (log 26). -/
def execCmdReset (s : State) : Out :=
  .next { State.reset with src := s.src, fb := s.fb, fbStale := s.fbStale }

/-- `CMD.RESERVED`, a code `0x04` to `0xFF` (R267). -/
def execCmdReserved (code : Byte) (s : State) : Out :=
  accepted s (.next (raise .badCommand 0 code.toNat s))

end Sys2Proof.Machine
end

