-- ==== Sys2Proof/Machine/Flags.lean ====
section
/-! DEFINITION. The flag bytes of the wire format (R113, R114) and the host's view of `STATUS` and `CFG`
(R24, R25). The engine has no condition codes (R45). -/

namespace Sys2Proof.Machine

/-- `LSD_FLAGS.GCT_PRESENT`, bit 7 (R113). -/
def gctPresent (f : Byte) : Bool := f.getLsbD 7

/-- `LSD_FLAGS.COLOR_RES`, bits 6:4; read by no rule (R33, D25). -/
def colorRes (f : Byte) : BitVec 3 := f.extractLsb' 4 3

/-- `LSD_FLAGS.SORT`, bit 3; read by no rule (R33). -/
def lsdSort (f : Byte) : Bool := f.getLsbD 3

/-- `LSD_FLAGS.GCT_EXP`, bits 2:0 (R113). -/
def gctExp (f : Byte) : BitVec 3 := f.extractLsb' 0 3

/-- `FLAGS.LCT_PRESENT`, bit 7 (R113). -/
def lctPresent (f : Byte) : Bool := f.getLsbD 7

/-- `FLAGS.INTERLACE`, bit 6; read by no rule (R35, D6). -/
def interlace (f : Byte) : Bool := f.getLsbD 6

/-- `FLAGS.SORT`, bit 5; read by no rule (R35). -/
def imageSort (f : Byte) : Bool := f.getLsbD 5

/-- `FLAGS.LCT_EXP`, bits 2:0 (R113). -/
def lctExp (f : Byte) : BitVec 3 := f.extractLsb' 0 3

/-- The length of a colour table, `2^(exp + 1)` entries (R103, R114). -/
def tableEntries (exp : BitVec 3) : Nat := 2 ^ (exp.toNat + 1)

/-- `gctEntries` (R33). -/
def gctEntries (s : State) : Nat := tableEntries (gctExp s.img.lsdFlags)

/-- `lctEntries` of a frame (R35). -/
def lctEntries (f : Frame) : Nat := tableEntries (lctExp f.flags)

/-- `STATUS` as the host reads it: BUSY 0, DONE 1, FAULT 2, RESULT_VALID 3, DRIFT_WARN 4, 7:5 zero (R25). -/
def Status.byte (st : Status) : Byte :=
  BitVec.ofNat 8 (st.busy.toNat + 2 * st.done.toNat + 4 * st.fault.toNat + 8 * st.resultValid.toNat
    + 16 * st.driftWarn.toNat)

/-- A write of `CFG`: bit 0 is taken, bits 7:1 are ignored and read as 0 (R24). -/
def cfgWritten (v : Byte) : Byte := v &&& 0x01

end Sys2Proof.Machine
end

