-- ==== Sys2Proof/Machine/Compositor.lean ====
section
/-! DEFINITION. The Frame Compositor (45_frame_compositor.md). It reads the result store and writes `FB`. -/

namespace Sys2Proof.Machine

/-- An operation on frame `k`, which the COMPOSITE command has checked to exist (R264). -/
def withFrame (k : Nat) (s : State) (f : Frame → Out) : Out :=
  match s.img.frames[k]? with
  | some fr => f fr
  | none => .fault (.noFrame k)

/-- `CMP.FRAME(k)` (R240): select the table, check the placement, then the pixels in row-major order. -/
def execCmpFrame (k : Nat) (s : State) : Out :=
  withFrame k s fun _ =>
    .next (call [.run (.cmpSelect k), .run (.cmpCheck k), .pixelLoop k 0 0] s)

/-- `CMP.SELECT` (R243): the frame's local table if present, else the global one, else `NO_COLOR_TABLE`. -/
def execCmpSelect (k : Nat) (s : State) : Out :=
  withFrame k s fun fr =>
    if lctPresent fr.flags then
      match fr.lct with
      | some t => .next { s with ct := t, ctLen := lctEntries fr }
      | none => .fault (.noTableEntry 0)
    else
      match s.img.gct with
      | some t => .next { s with ct := t, ctLen := gctEntries s }
      | none => .next (raise .noColorTable 0 k s)

/-- The frame lies inside the canvas (R241). -/
def fits (fr : Frame) (s : State) : Bool :=
  decide (fr.left.toNat + fr.width.toNat ≤ s.img.lsdWidth.toNat)
    && decide (fr.top.toNat + fr.height.toNat ≤ s.img.lsdHeight.toNat)

/-- `CMP.CHECK` (R241). -/
def execCmpCheck (k : Nat) (s : State) : Out :=
  withFrame k s fun fr =>
    if fits fr s then .next s else .next (raise .frameOutsideCanvas 0 k s)

/-- The byte offset in `FB` of pixel (`r`, `c`) of a frame (R242, R78). -/
def pixelOffset (fr : Frame) (r c : Nat) (s : State) : Nat :=
  ((fr.top.toNat + r) * s.img.lsdWidth.toNat + (fr.left.toNat + c)) * 3

/-- `CMP.PIX(F, CT, n, r, c)` (R242), with `CT` and `n` as `CMP.SELECT` left them. -/
def execCmpPix (k r c : Nat) (s : State) : Out :=
  withFrame k s fun fr =>
    match fr.idx[r * fr.width.toNat + c]? with
    | none => .fault (.noIndexByte (r * fr.width.toNat + c))
    | some i =>
      if s.ctLen ≤ i.toNat then
        .next (raise .colorIndexRange 0 (r * fr.width.toNat + c) s)
      else
        match s.ct[i.toNat]? with
        | none => .fault (.noTableEntry i.toNat)
        | some e =>
          if pixelOffset fr r c s + 3 ≤ fbSize s then
            .next { s with fb := s.fb.writeBytes (pixelOffset fr r c s) [e.r, e.g, e.b] }
          else .fault (.outsideFb (pixelOffset fr r c s))

/-- The heads of the loops of R240 at row `r`, column `c`: composite the pixel and go on to the next column,
go on to the next row, or end. `ROW` and `COL` hold the loop counters (R43); they are written at a pixel, so a row without
pixels leaves them (DESIGN CHOICE, log 25). -/
def pixelLoop (k r c : Nat) (s : State) : Out :=
  withFrame k s fun fr =>
    if r < fr.height.toNat then
      if c < fr.width.toNat then
        .next (call [.run (.cmpPix k r c), .pixelLoop k r (c + 1)] { s with row := r, col := c })
      else .next (call [.pixelLoop k (r + 1) 0] s)
    else .next s

end Sys2Proof.Machine
end

