-- ==== Sys2Proof/Machine/Demuxer.lean ====
section
/-! DEFINITION. The Container Demuxer (42_container_demuxer.md). The block loop of R160 is the line `blockLoop`:
the handlers of an image or extension block go back to it, the trailer leaves it. -/

namespace Sys2Proof.Machine

/-- `DEMUX` (R160): the header, the screen descriptor and the table under their phases, then the block loop. -/
def execDemux (s : State) : Out :=
  .next (call [.setPhase .header, .decodeAt .header, .setPhase .lsd, .run .lsdesc,
    .setPhase .gct, .run .gctRead, .blockLoop] s)

/-- A legal header (R161): the six bytes are consumed, `VERSION` is the last three (R32). -/
def header (magic : BitVec 48) (s : State) : Out :=
  (readBytes 6 s).andThen fun _ s =>
    .next { s with img := { s.img with version := magic.setWidth 24 } }

/-- `HDR.87A` (R161). -/
def execHdr87a (s : State) : Out := header magic87a s

/-- `HDR.89A` (R161). -/
def execHdr89a (s : State) : Out := header magic89a s

/-- `HDR.BAD`, any other six bytes (R161): they are consumed, then `BAD_MAGIC` at their offset. -/
def execHdrBad (_magic : BitVec 48) (s : State) : Out :=
  (readBytes 6 s).andThen fun _ t => .next (raise .badMagic s.pos 0 t)

/-- `LSDESC` (R162): five reads, each stored before the next. -/
def execLsdesc (s : State) : Out :=
  (readHalf s).andThen fun w s =>
    (readHalf { s with img := { s.img with lsdWidth := w } }).andThen fun h s =>
      (readByte { s with img := { s.img with lsdHeight := h } }).andThen fun f s =>
        (readByte { s with img := { s.img with lsdFlags := f } }).andThen fun bg s =>
          (readByte { s with img := { s.img with bgIndex := bg } }).andThen fun a s =>
            .next { s with img := { s.img with aspect := a } }

/-- `GCT.READ` (R163): `3 * gctEntries` bytes if the flag is set, else no table. -/
def execGctRead (s : State) : Out :=
  if gctPresent s.img.lsdFlags then
    (readBytes (3 * gctEntries s) s).andThen fun t s =>
      .next { s with img := { s.img with gct := some (tableOf t) } }
  else .next { s with img := { s.img with gct := none } }

/-- `BLK.CLASSIFY` (R164): the introducer is peeked, and its row is selected by the peeked byte. -/
def execBlkClassify (s : State) : Out :=
  (peekByte s).andThen fun b s => .next (call [.decodeAt .introducer] { s with peeked := b })

/-- `BLK.IMG` (R165): `PHASE <- IMAGE`, the image block parser, then the next block (R160). -/
def execBlkImg (s : State) : Out :=
  .next (call [.run .imgBlock, .blockLoop] { s with phase := .image })

/-- `BLK.EXT` (R166): `PHASE <- EXTENSION`, the extension parser, then the next block (R160). -/
def execBlkExt (s : State) : Out :=
  .next (call [.run .extBlock, .blockLoop] { s with phase := .extension })

/-- `BLK.TRL` (R170): `DEMUX` returns; the trailer byte is not consumed. -/
def execBlkTrl (s : State) : Out := .next s

/-- `BLK.UNK` (R171): `UNKNOWN_BLOCK` at the offset of the byte, which is not consumed. -/
def execBlkUnk (b : Byte) (s : State) : Out := .next (raise .unknownBlock s.pos b.toNat s)

end Sys2Proof.Machine
end

