-- ==== Sys2Proof/Machine/ImageBlock.lean ====
section
/-! DEFINITION. The Image Block Parser and the Extension Parser (43_image_block_parser.md). -/

namespace Sys2Proof.Machine

/-- `IMG.BLOCK` (R180): its seven steps in the order of the wire. -/
def execImgBlock (s : State) : Out :=
  .next (call [.run .imgSep, .run .imgDesc, .run .lctRead, .run .imgMcs, .run .imgData,
    .run .imgDecode, .run .imgCommit] s)

/-- `IMG.SEP` (R181): the separator is consumed and must be `0x2C`. -/
def execImgSep (s : State) : Out :=
  (readByte s).andThen fun b t =>
    if b = 0x2C then .next t else .next (raise .badSeparator s.pos b.toNat t)

/-- `IMG.DESC` (R182): five reads, each stored before the next. -/
def execImgDesc (s : State) : Out :=
  (readHalf s).andThen fun l s =>
    (readHalf { s with cur := { s.cur with left := l } }).andThen fun t s =>
      (readHalf { s with cur := { s.cur with top := t } }).andThen fun w s =>
        (readHalf { s with cur := { s.cur with width := w } }).andThen fun h s =>
          (readByte { s with cur := { s.cur with height := h } }).andThen fun f s =>
            .next { s with cur := { s.cur with flags := f } }

/-- `LCT.READ` (R183): `3 * lctEntries` bytes if the flag is set, else no local table. -/
def execLctRead (s : State) : Out :=
  if lctPresent s.cur.flags then
    (readBytes (3 * lctEntries s.cur) s).andThen fun t s =>
      .next { s with cur := { s.cur with lct := some (tableOf t) } }
  else .next { s with cur := { s.cur with lct := none } }

/-- `IMG.MCS` (R184): `MCS_POS` is the offset of the byte, then the byte is read. -/
def execImgMcs (s : State) : Out :=
  (readByte { s with mcsPos := s.pos }).andThen fun m s =>
    .next { s with cur := { s.cur with minCodeSize := m } }

/-- `IMG.DATA` (R185): `SBK.READ`, result in `ACC`. -/
def execImgData (s : State) : Out := .next (call [.run .sbkRead] s)

/-- `IMG.DECODE` (R186): `LZW.RUN` on `ACC`, result in `OUT`. -/
def execImgDecode (s : State) : Out := .next (call [.run .lzwRun] s)

/-- `IMG.COMMIT` (R187): the pixel count must be `WIDTH * HEIGHT`; then the frame is appended. -/
def execImgCommit (s : State) : Out :=
  if s.lzw.out.length = s.cur.width.toNat * s.cur.height.toNat then
    .next { s with
      cur := { s.cur with idx := s.lzw.out }
      img := { s.img with frames := s.img.frames ++ [{ s.cur with idx := s.lzw.out }] } }
  else .next (raise .pixelCount s.mcsPos s.lzw.out.length s)

/-- `EXT.BLOCK` (R190): the introducer is consumed without being compared (D26); the label selects the row
that goes on (R191; log 12). -/
def execExtBlock (s : State) : Out :=
  (readByte s).andThen fun _ s => .next (call [.decodeAt .label] s)

/-- The rest of R190 for the label `l` at `POS`: the label is consumed, the data reassembled, the extension
stored. All labels share it (R191). -/
def labelled (l : Byte) (s : State) : Out :=
  (readByte s).andThen fun _ s => .next (call [.run .sbkRead, .storeExt] { s with curLabel := l })

/-- `EXT.PTX`, label `0x01` (R191). -/
def execExtPtx (s : State) : Out := labelled 0x01 s

/-- `EXT.GCE`, label `0xF9` (R191). -/
def execExtGce (s : State) : Out := labelled 0xF9 s

/-- `EXT.COM`, label `0xFE` (R191). -/
def execExtCom (s : State) : Out := labelled 0xFE s

/-- `EXT.APP`, label `0xFF` (R191). -/
def execExtApp (s : State) : Out := labelled 0xFF s

/-- `EXT.OTHER`, any other label (R191). -/
def execExtOther (label : Byte) (s : State) : Out := labelled label s

/-- The last two lines of `EXT.BLOCK` (R190): the extension is appended. -/
def storeExt (s : State) : State :=
  { s with img := { s.img with exts := s.img.exts ++ [⟨s.curLabel, s.acc⟩] } }

end Sys2Proof.Machine
end

