-- ==== Sys2Proof/Machine/LzwDecoder.lean ====
section
/-! DEFINITION. The LZW Decoder (44_lzw_decoder.md). `lzwNext` is the head of the loop of R200: every clear and
data code goes back to it, `LZW.EOI` and `LZW.EXH` leave it. -/

namespace Sys2Proof.Machine

/-- `LZW.RUN(ACC, CUR.MIN_CODE_SIZE)` (R200): `LZW.INIT`, then the decode loop. -/
def execLzwRun (s : State) : Out :=
  .next (call [.run (.lzwInit s.cur.minCodeSize), .lzwNext] s)

/-- `LZW.INIT(cs)` (R201): `BAD_CODE_SIZE` outside 2 to 8, else the initial state of a decode. -/
def execLzwInit (cs : Byte) (s : State) : Out :=
  if cs.toNat < Config.minCodeSizeLo ∨ Config.minCodeSizeHi < cs.toNat then
    .next (raise .badCodeSize s.mcsPos cs.toNat s)
  else .next { s with lzw := initLzw cs.toNat s.lzw }

/-- `LZW.RESET` (R202). -/
def execLzwReset (s : State) : Out := .next { s with lzw := resetLzw s.lzw }

/-- `LZW.FETCH` (R203); its precondition is that `CODE_LEN` bits remain (R204, R115). The fetched code is
classified next (R117). -/
def execLzwFetch (s : State) : Out :=
  if bitsLeft s < s.lzw.codeLen then .fault .noCodeBits
  else .next (call [.lzwClassify] { s with lzw := fetchCode s.acc s.lzw })

/-- `LZW.EXH` (R204): the decode ends normally, the cursor stays. -/
def execLzwExh (s : State) : Out := .next { s with lzw := { s.lzw with status := .exhausted } }

/-- `LZW.CLEAR` (R206): `LZW.RESET` and an empty run. -/
def execLzwClear (s : State) : Out :=
  .next (call [.lzwNext] { s with lzw := emit [] (resetLzw s.lzw) })

/-- `LZW.EOI` (R207): the decode ends. -/
def execLzwEoi (s : State) : Out := .next { s with lzw := { s.lzw with status := .eoi } }

/-- A data code whose value is known: steps 5 to 7, then the next code (R208). -/
def takeValue (value : List Byte) (s : State) : Out :=
  .next (call [.lzwNext] { s with lzw := dataCode value s.lzw })

/-- A code whose value is `DICT[code]` (R209, R210). -/
def lookUp (code : Nat) (s : State) : Out :=
  match cellGet s.lzw.dict code with
  | some value => takeValue value s
  | none => .fault (.noDictEntry code)

/-- `LZW.LIT` (R209). -/
def execLzwLit (code : Nat) (s : State) : Out := lookUp code s

/-- `LZW.KNOWN` (R210). -/
def execLzwKnown (code : Nat) (s : State) : Out := lookUp code s

/-- A code that is not in the table: the fix-up, or `LZW_EMPTY_PREFIX` while `LAST` is empty (R211, R213). -/
def takeFixUp (s : State) : Out :=
  if s.lzw.last = [] then .next (raise .lzwEmptyPrefix s.mcsPos s.lzw.p0 s)
  else takeValue (fixUp s.lzw) s

/-- `LZW.KWKWK` (R211). -/
def execLzwKwkwk (s : State) : Out := takeFixUp s

/-- `LZW.DRIFT` (R212): strict, `LZW_DRIFT`; tolerant, `DRIFT_WARN <- 1` and the fix-up. The code itself is
used for nothing else. -/
def execLzwDrift (_code : Nat) (s : State) : Out :=
  if strict s then .next (raise .lzwDrift s.mcsPos s.lzw.p0 s)
  else takeFixUp { s with status := { s.status with driftWarn := true } }

end Sys2Proof.Machine
end

