-- ==== Sys2Proof/Machine/SubBlock.lean ====
section
/-! DEFINITION. The Sub-block Stream Reader (41_subblock_reader.md). `decodeAt .sbLength` is the head of the
loop of R150: `SBK.READ` enters it, `SBK.DATA` goes back to it, `SBK.TERM` leaves it. -/

namespace Sys2Proof.Machine

/-- `SBK.READ` (R150): `ACC <- <>`, then the loop over length bytes. -/
def execSbkRead (s : State) : Out := .next (call [.decodeAt .sbLength] { s with acc := [] })

/-- `SBK.DATA`, selected by the length byte `n` at `POS` (R151): the length byte is consumed, then `n` payload
bytes are appended to `ACC`. -/
def execSbkData (n : Byte) (s : State) : Out :=
  (readByte s).andThen fun _ s =>
    (readBytes n.toNat { s with sbLen := n }).andThen fun payload s =>
      .next (call [.decodeAt .sbLength] { s with acc := s.acc ++ payload })

/-- `SBK.TERM`, selected by the length byte 0 (R152): consumes it and ends `SBK.READ`. -/
def execSbkTerm (s : State) : Out := (readByte s).andThen fun _ s => .next { s with sbLen := 0 }

end Sys2Proof.Machine
end

