-- ==== Sys2Proof/Machine/Dispatch.lean ====
section
/-! DEFINITION. One arm per operation: a direct call of its meaning. -/

namespace Sys2Proof.Machine

/-- The meaning of an operation. -/
def exec (i : Instr) (s : State) : Host.Outcome State Fault Refusal :=
  match i with
  | .rd8 => Sys2Proof.Machine.execRd8 s
  | .pk8 => Sys2Proof.Machine.execPk8 s
  | .rd16 => Sys2Proof.Machine.execRd16 s
  | .rdn n => Sys2Proof.Machine.execRdn n s
  | .sbkRead => Sys2Proof.Machine.execSbkRead s
  | .sbkData n => Sys2Proof.Machine.execSbkData n s
  | .sbkTerm => Sys2Proof.Machine.execSbkTerm s
  | .demux => Sys2Proof.Machine.execDemux s
  | .hdr87a => Sys2Proof.Machine.execHdr87a s
  | .hdr89a => Sys2Proof.Machine.execHdr89a s
  | .hdrBad magic => Sys2Proof.Machine.execHdrBad magic s
  | .lsdesc => Sys2Proof.Machine.execLsdesc s
  | .gctRead => Sys2Proof.Machine.execGctRead s
  | .blkClassify => Sys2Proof.Machine.execBlkClassify s
  | .blkImg => Sys2Proof.Machine.execBlkImg s
  | .blkExt => Sys2Proof.Machine.execBlkExt s
  | .blkTrl => Sys2Proof.Machine.execBlkTrl s
  | .blkUnk b => Sys2Proof.Machine.execBlkUnk b s
  | .imgBlock => Sys2Proof.Machine.execImgBlock s
  | .imgSep => Sys2Proof.Machine.execImgSep s
  | .imgDesc => Sys2Proof.Machine.execImgDesc s
  | .lctRead => Sys2Proof.Machine.execLctRead s
  | .imgMcs => Sys2Proof.Machine.execImgMcs s
  | .imgData => Sys2Proof.Machine.execImgData s
  | .imgDecode => Sys2Proof.Machine.execImgDecode s
  | .imgCommit => Sys2Proof.Machine.execImgCommit s
  | .extBlock => Sys2Proof.Machine.execExtBlock s
  | .extPtx => Sys2Proof.Machine.execExtPtx s
  | .extGce => Sys2Proof.Machine.execExtGce s
  | .extCom => Sys2Proof.Machine.execExtCom s
  | .extApp => Sys2Proof.Machine.execExtApp s
  | .extOther label => Sys2Proof.Machine.execExtOther label s
  | .lzwRun => Sys2Proof.Machine.execLzwRun s
  | .lzwInit cs => Sys2Proof.Machine.execLzwInit cs s
  | .lzwReset => Sys2Proof.Machine.execLzwReset s
  | .lzwFetch => Sys2Proof.Machine.execLzwFetch s
  | .lzwExh => Sys2Proof.Machine.execLzwExh s
  | .lzwClear => Sys2Proof.Machine.execLzwClear s
  | .lzwEoi => Sys2Proof.Machine.execLzwEoi s
  | .lzwLit code => Sys2Proof.Machine.execLzwLit code s
  | .lzwKnown code => Sys2Proof.Machine.execLzwKnown code s
  | .lzwKwkwk => Sys2Proof.Machine.execLzwKwkwk s
  | .lzwDrift code => Sys2Proof.Machine.execLzwDrift code s
  | .cmpFrame k => Sys2Proof.Machine.execCmpFrame k s
  | .cmpSelect k => Sys2Proof.Machine.execCmpSelect k s
  | .cmpCheck k => Sys2Proof.Machine.execCmpCheck k s
  | .cmpPix k r c => Sys2Proof.Machine.execCmpPix k r c s
  | .cmdNop => Sys2Proof.Machine.execCmdNop s
  | .cmdLoad => Sys2Proof.Machine.execCmdLoad s
  | .cmdComposite => Sys2Proof.Machine.execCmdComposite s
  | .cmdReset => Sys2Proof.Machine.execCmdReset s
  | .cmdReserved code => Sys2Proof.Machine.execCmdReserved code s

end Sys2Proof.Machine
end

