-- ==== Sys2Proof/Machine/Sequencer.lean ====
section
/-! DEFINITION. What the engine does next (R29: one step per operation; log 1): take the command in `CMD`, or go
on with the first pending line of the running command, and how an instruction is placed where that fetch
finds it. -/

namespace Sys2Proof.Machine

/-- What a fetch answers: an operation to run and the state it runs in, or an outcome that needs no operation
(a line that is no call, or a fault met while fetching). -/
inductive Fetched where
  | instr (i : Instr) (s : State)
  | outcome (o : Out)

/-- The bytes a decode point looks at: the introducer's row is selected by the peeked byte (R164), a command's
by `CMD` (R260), every other by the bytes of `SRC` at `POS`. -/
def bytesAt (p : Point) (s : State) : List Byte :=
  match p with
  | .introducer => [s.peeked]
  | .cmd => [s.cmd]
  | .header | .imageByte0 | .label | .sbLength => s.src.drop s.pos

/-- Select an operation at a decode point. If the source ends before the pattern does, the read the caller
makes there fails (R140); a byte that is no separator is consumed before it is compared (R181). -/
def fetchAt (p : Point) (s : State) : Fetched :=
  match decode p (bytesAt p s) with
  | .ok i => .instr i s
  | .error (.short n) => .outcome (.next (truncated n s))
  | .error (.badSeparator b) =>
    .outcome (.next (raise .badSeparator s.pos b.toNat { s with pos := s.pos + 1 }))

/-- Run one pending line, which has been taken off `ctl`. -/
def fetchLine (l : Line) (s : State) : Fetched :=
  match l with
  | .run i => .instr i s
  | .setPhase p => .outcome (.next { s with phase := p })
  | .decodeAt p => fetchAt p s
  | .blockLoop => .outcome (.next (call [.run .blkClassify] { s with phase := .block }))
  | .storeExt => .outcome (.next (storeExt s))
  | .lzwNext => .instr (decodeLzwNext (bitsLeft s) s.lzw.codeLen) s
  | .lzwClassify =>
    .instr (decodeLzw s.lzw.clearCode s.lzw.eoiCode s.lzw.nextCode s.lzw.code) s
  | .endLoad => .outcome (.next (endLoad s))
  | .pixelLoop k r c => .outcome (pixelLoop k r c s)
  | .endComposite => .outcome (.next (complete s))

/-- What runs next. A value in `CMD` is taken first, and taking it empties `CMD` (R22; RESET is accepted at any
time, R265); an idle engine with an empty `CMD` runs `CMD.NOP`, that is, waits (R321). -/
def fetch (s : State) : Fetched :=
  if s.cmd ≠ 0 ∨ s.status.busy = false then .instr (decodeCmd s.cmd) { s with cmd := 0 }
  else
    match s.ctl with
    | [] => .outcome (.fault .noPendingLine)
    | l :: rest => fetchLine l { s with ctl := rest }

/-- `SRC` with the bytes `bs` laid at offset `POS`, and `BUSY = 1` with the given phase and pending line. -/
def placeSrc (bs : List Byte) (p : Phase) (l : Line) (s : State) : State :=
  { s with
    cmd := 0
    src := (s.src.take s.pos ++ List.replicate (s.pos - s.src.length) 0) ++ bs
    phase := p
    status := { s.status with busy := true }
    ctl := [l] }

/-- The state in which the next step fetches the element `bs` (as `decodeElement` reads it): a command in `CMD`
of an idle engine, any other element at `POS` of `SRC` at its own decode point (log 6, log 7). -/
def placeElement (bs : List Byte) (s : State) : State :=
  match bs with
  | [b] =>
    match pointOfByte b with
    | .cmd => { s with cmd := b, status := { s.status with busy := false } }
    | .introducer =>
      { placeSrc bs .block (.decodeAt .introducer) s with peeked := b }
    | .label => placeSrc bs .extension (.decodeAt .label) s
    | .header | .imageByte0 | .sbLength => s
  | [_, _, _, _, _, _] => placeSrc bs .header (.decodeAt .header) s
  | [_, _, _, _, _, _, _] => placeSrc bs .lsd (.run .lsdesc) s
  | [_, _, _, _, _, _, _, _, _] => placeSrc bs .image (.run .imgDesc) s
  | _ => s

end Sys2Proof.Machine
end

