-- ==== Sys2Proof/Machine/Step.lean ====
section
/-! DEFINITION. One step of the engine. -/

namespace Sys2Proof.Machine

/-- One step: fetch what runs next and run it (R29, R11). -/
def step (s : State) : Host.Outcome State Fault Refusal :=
  match fetch s with
  | .instr i t => exec i t
  | .outcome o => o

/-- `s` with the instruction whose bits are `w` placed where `step` fetches its next one. -/
def State.withFetchWord (s : State) (nbits w : Nat) : State := placeElement (leBytes (nbits / 8) w) s

end Sys2Proof.Machine
end

