-- ==== Sys2Proof/Machine/HostPort.lean ====
section
/-! DEFINITION. The host's moves and reads (10_state.md R22 to R26, R31; 20_memory.md R81; 46_host_commands.md R260,
R262, R268; 70 R330). `step` is the engine's; these are the host's, between steps, and a run alternates the two. -/

namespace Sys2Proof.Machine

/-- The host has its turn: no command is running, and none waits in `CMD` (R81: from the command write to `BUSY = 0`
the host has no move). -/
def hostTurn (s : State) : Bool := !s.status.busy && decide (s.cmd = 0)

/-- A move the host has only at its turn (R262, U10, U11). -/
def hostMove (s : State) (o : Out) : Out := if hostTurn s then o else .refused .hostBusy

/-- `FB` is the buffer of exactly `LSD_WIDTH * LSD_HEIGHT * 3` bytes that COMPOSITE works on (R44, R78, U15). -/
def fbSized (s : State) : Bool := s.fb.map Prod.fst == List.range (fbSize s)

/-- The byte at offset `a` exists: it lies in the buffer the host has supplied and, while a result says how long `FB`
is, below that length (R44; log 5). -/
def inFb (a : Nat) (s : State) : Bool :=
  (s.fb.read a).isSome && (!s.status.resultValid || decide (a < fbSize s))

/-- COMPOSITE would be accepted (R264), so it needs its buffer (R324). -/
def needsFb (code : Byte) (s : State) : Bool :=
  code == 0x02 && s.status.resultValid && decide (s.arg < nFrames s)

/-- Write `CMD` (R22, R260): the write is what starts the operation, so the engine takes the command in the same move
and the register is empty again after it (log 4). RESET is accepted at any time, any other code at the host's turn
(R262); a COMPOSITE that would be accepted needs an `FB` of the right length, which the engine cannot check (R324,
R330 item 5, U15), and one that has been filled since the last COMPOSITE fault (R330 item 6; log 26). -/
def hostWriteCmd (code : Byte) (s : State) : Out :=
  if code = 0x03 then step { s with cmd := code }
  else hostMove s
    (if needsFb code s && !fbSized s then .refused .fbLength
    else if needsFb code s && s.fbStale then .refused .fbStale
    else step { s with cmd := code })

/-- Write `ARG` (R23). -/
def hostWriteArg (v : Nat) (s : State) : Out := hostMove s (.next { s with arg := v })

/-- Write `CFG` (R24). -/
def hostWriteCfg (v : Byte) (s : State) : Out := hostMove s (.next { s with cfg := cfgWritten v })

/-- Place the byte stream in `SRC`; its length is `SRC_LEN` (R323). `POS` stays as it is until LOAD sets it to 0, even
beyond the new length (DESIGN CHOICE, log 24). -/
def hostWriteSrc (bs : List Byte) (s : State) : Out := hostMove s (.next { s with src := bs })

/-- Supply a pre-filled buffer as `FB`, of exactly the length the loaded container asks for (R324, U15). -/
def hostSupplyFb (bs : List Byte) (s : State) : Out :=
  hostMove s
    (if s.status.resultValid ∧ bs.length = fbSize s then
      .next { s with fb := Memory.writeBytes [] 0 bs, fbStale := false }
    else .refused .fbLength)

/-- A write of `FB` that fills it: every byte of the buffer (R330 item 6, "refill"; log 26). -/
def fills (a : Nat) (bs : List Byte) (s : State) : Bool := a == 0 && decide (s.fb.length ≤ bs.length)

/-- Write bytes of `FB` from offset `a` on (R324). -/
def hostWriteFb (a : Nat) (bs : List Byte) (s : State) : Out :=
  hostMove s
    (if ∀ i < bs.length, inFb (a + i) s = true then
      .next { s with fb := s.fb.writeBytes a bs, fbStale := s.fbStale && !fills a bs s }
    else .refused .outsideFb)

/-- The host's moves. -/
inductive HostAct where
  | cmd (code : Byte)
  | arg (v : Nat)
  | cfg (v : Byte)
  | src (bs : List Byte)
  | supplyFb (bs : List Byte)
  | writeFb (a : Nat) (bs : List Byte)
  deriving DecidableEq, Repr

/-- One move of the host. -/
def hostAct (m : HostAct) (s : State) : Out :=
  match m with
  | .cmd code => hostWriteCmd code s
  | .arg v => hostWriteArg v s
  | .cfg v => hostWriteCfg v s
  | .src bs => hostWriteSrc bs s
  | .supplyFb bs => hostSupplyFb bs s
  | .writeFb a bs => hostWriteFb a bs s

/-- One move of a run: a step of the engine, or a move of the host. -/
def move (m : Option HostAct) (s : State) : Out :=
  match m with
  | none => step s
  | some a => hostAct a s

/-- Read `CMD`: it holds no value between commands and reads as 0 (R22). -/
def hostReadCmd (_ : State) : Byte := 0

/-- A read the host has only at its turn (R29, R81, D1, D22). -/
def hostRead {α : Type} (s : State) (v : α) : Except Refusal α :=
  if hostTurn s then .ok v else .error .hostBusy

/-- Read `ARG` (R23). -/
def hostReadArg (s : State) : Except Refusal Nat := hostRead s s.arg

/-- Read `CFG` (R24): bits 7:1 read as 0. -/
def hostReadCfg (s : State) : Except Refusal Byte := hostRead s (cfgWritten s.cfg)

/-- Read `STATUS`, at any time (R25, R268). -/
def hostReadStatus (s : State) : Byte := s.status.byte

/-- Read the fault report: kind, cause, position, second locator (R26). -/
def hostReadFault (s : State) : Except Refusal (Byte × Byte × Nat × Nat) :=
  hostRead s (s.faultKind, s.faultCause, s.faultPos, s.faultAux)

/-- Read the result store, only while `RESULT_VALID = 1` and at the host's turn (R31, R81, U12). -/
def hostReadResult (s : State) : Except Refusal GifImage :=
  if s.status.resultValid && hostTurn s then .ok s.img else .error .resultInvalid

/-- Read a byte of `FB` at the host's turn (R330); not between a COMPOSITE fault and the next filling (R330 item 6;
log 26). -/
def hostReadFb (a : Nat) (s : State) : Except Refusal Byte :=
  if hostTurn s then
    match s.fb.read a with
    | some b =>
      if inFb a s then (if s.fbStale then .error .fbStale else .ok b) else .error .outsideFb
    | none => .error .outsideFb
  else .error .hostBusy

end Sys2Proof.Machine
end

