-- ==== Sys2Proof/Safety.lean ====
section
/-! DEFINITION. The terms claims are made in: runs of the engine, the invariants of the LZW registers (R42), of
the result store (R34, R35) and of the report (R25, R26), which control stacks the engine can hold and what they
promise, and a bound on the work a command has left (R266, R333). -/

namespace Sys2Proof.Machine

/-- `n` steps of the engine take `s` to `t`. -/
def Reaches (n : Nat) (s t : State) : Prop := core.run n s = .next t

/-- The engine is running a command and no command waits in `CMD`: the next step runs the first pending line. -/
def running (s : State) : Bool := s.status.busy && decide (s.cmd = 0)

/-! ### A step in the three outcomes of R292 -/

/-- Why a step ends in a fault when every cause of R281 is read as one (R292): the report it records, or a stop of the
model's own. -/
inductive StopReason where
  | reported (kind cause : Byte) (pos aux : Nat)
  | model (f : Fault)
  deriving DecidableEq, Repr

/-- A step in R292's reading: where a running command or the command in `CMD` records a fault, the outcome is a fault
with that report. `step` itself answers the state that the fault leaves (R290, R291; log 2). -/
def stepOutcome (s : State) : Host.Outcome State StopReason Refusal :=
  match step s with
  | .next t =>
    if t.status.fault ∧ (s.status.busy = true ∨ s.cmd ≠ 0) then
      .fault (.reported t.faultKind t.faultCause t.faultPos t.faultAux)
    else .next t
  | .fault f => .fault (.model f)
  | .refused r => .refused r

/-! ### LZW registers (R42) -/

/-- The dictionary holds the literals, nothing at the two control codes, at every code inserted since the last
clear a sequence of 2 to `c - EOI_CODE + 1` bytes below `CLEAR_CODE`, and nothing from `NEXT_CODE` on
(R40; R42 item 4). -/
def dictOk (z : Lzw) : Prop :=
  ∀ c, match cellGet z.dict c with
    | none => z.clearCode ≤ c ∧ (c ≤ z.eoiCode ∨ z.nextCode ≤ c)
    | some v =>
      (c < z.clearCode ∧ v = [BitVec.ofNat 8 c]) ∨
      (z.eoiCode < c ∧ c < z.nextCode ∧ 2 ≤ v.length ∧ v.length ≤ c - z.eoiCode + 1 ∧
        ∀ b ∈ v, b.toNat < z.clearCode)

/-- The invariants of R42, with `OUT` the concatenation of the runs (R217) and `LAST` the last run (R216, R206). -/
structure LzwOk (z : Lzw) : Prop where
  size : 2 ≤ z.codeSize ∧ z.codeSize ≤ 8
  clear : z.clearCode = 2 ^ z.codeSize
  eoi : z.eoiCode = z.clearCode + 1
  width : z.codeSize + 1 ≤ z.codeLen ∧ z.codeLen ≤ 12
  next : z.eoiCode + 1 ≤ z.nextCode ∧ z.nextCode ≤ 4096
  fill : z.nextCode ≤ 2 ^ z.codeLen ∧ (z.nextCode = 2 ^ z.codeLen → z.codeLen = 12)
  dict : dictOk z
  last : z.last = z.runs.getLast?.getD []
  lastLen : z.last.length ≤ z.nextCode - z.eoiCode
  lastBytes : ∀ b ∈ z.last, b.toNat < z.clearCode
  out : z.out = z.runs.flatten
  outBytes : ∀ b ∈ z.out, b.toNat < z.clearCode
  bit : z.bitOff < 8

/-- The registers after a data code of the given value, from those before it: an entry at `NEXT_CODE` unless `LAST` is
empty or the dictionary full (R214), a wider code once `NEXT_CODE` has reached `2^CODE_LEN` (R215), the new `LAST` and
the run (R216); nothing else. -/
def DataCodeTaken (value : List Byte) (z y : Lzw) : Prop :=
  y = { z with
    dict := y.dict, nextCode := y.nextCode, codeLen := y.codeLen, last := value,
    out := z.out ++ value, runs := z.runs ++ [value] } ∧
  y.nextCode = (if z.last ≠ [] ∧ z.nextCode ≤ 4095 then z.nextCode + 1 else z.nextCode) ∧
  y.codeLen = (if 2 ^ z.codeLen ≤ y.nextCode ∧ z.codeLen < 12 then z.codeLen + 1 else z.codeLen) ∧
  ∀ c, cellGet y.dict c =
    if z.last ≠ [] ∧ z.nextCode ≤ 4095 ∧ c = z.nextCode then some (z.last ++ value.take 1)
    else cellGet z.dict c

/-! ### Result store -/

/-- A local table is present exactly when the flags announce it, with `2^(LCT_EXP + 1)` entries (R35). -/
def tableOk (f : Frame) : Bool :=
  match f.lct with
  | some t => lctPresent f.flags && t.length == lctEntries f
  | none => !lctPresent f.flags

/-- `len(IDX) = WIDTH * HEIGHT` (R35). -/
def idxOk (f : Frame) : Bool := f.idx.length == f.width.toNat * f.height.toNat

/-- A global table, where present, has `2^(GCT_EXP + 1)` entries (R34). -/
def gctOk (img : GifImage) : Bool :=
  match img.gct with
  | some t => t.length == tableEntries (gctExp img.lsdFlags)
  | none => true

/-- The result store, complete or in the making. -/
def imgOk (img : GifImage) : Bool := gctOk img && img.frames.all fun f => tableOk f && idxOk f

/-! ### The report (R25, R26) -/

/-- At most one of `BUSY`, `DONE`, `FAULT` is 1 (R25). -/
def statusExclusive (st : Status) : Bool :=
  !(st.busy && st.done) && !(st.busy && st.fault) && !(st.done && st.fault)

/-- One of `BUSY`, `DONE`, `FAULT` is 1: a command has been written since reset (R25). -/
def statusSet (st : Status) : Bool := st.busy || st.done || st.fault

/-- With `FAULT = 1` the registers name a cause of R281 and its kind; with `FAULT = 0` all four are 0
(R26, R296). -/
def reportOk (s : State) : Prop :=
  if s.status.fault then ∃ c : Cause, s.faultCause = c.code ∧ s.faultKind = c.kind
  else s.faultKind = 0 ∧ s.faultCause = 0 ∧ s.faultPos = 0 ∧ s.faultAux = 0

/-! ### Control stacks -/

/-- The control points between the lines of the pseudocode. -/
inductive Stage where
  | start
  | lsd
  | gct
  | block
  | intro
  | loaded
  | desc
  | lct
  | mcs
  | data
  | decode
  | commit
  | label
  | extData
  | extStore
  | lzw
  | code
  | cmpSelect (k : Nat)
  | cmpCheck (k : Nat)
  | pixels (k : Nat)
  | pixel (k r c : Nat)
  | composited
  | over
  deriving DecidableEq, Repr

/-- The control point after a line has run to its end from a control point where it may stand. -/
def after : Stage → Line → Option Stage
  | .start, .run .demux => some .loaded
  | .start, .setPhase _ => some .start
  | .start, .decodeAt .header => some .lsd
  | .lsd, .setPhase _ => some .lsd
  | .lsd, .run .lsdesc => some .gct
  | .gct, .setPhase _ => some .gct
  | .gct, .run .gctRead => some .block
  | .block, .blockLoop => some .loaded
  | .block, .run .blkClassify => some .loaded
  | .intro, .decodeAt .introducer => some .loaded
  | .intro, .run .imgBlock => some .block
  | .intro, .run .imgSep => some .desc
  | .desc, .run .imgDesc => some .lct
  | .lct, .run .lctRead => some .mcs
  | .mcs, .run .imgMcs => some .data
  | .data, .run .imgData => some .decode
  | .data, .run .sbkRead => some .decode
  | .data, .decodeAt .sbLength => some .decode
  | .decode, .run .imgDecode => some .commit
  | .decode, .run .lzwRun => some .commit
  | .decode, .run (.lzwInit _) => some .lzw
  | .lzw, .lzwNext => some .commit
  | .code, .lzwClassify => some .commit
  | .commit, .run .imgCommit => some .block
  | .intro, .run .extBlock => some .block
  | .label, .decodeAt .label => some .block
  | .extData, .run .sbkRead => some .extStore
  | .extData, .decodeAt .sbLength => some .extStore
  | .extStore, .storeExt => some .block
  | .loaded, .endLoad => some .over
  | .cmpSelect k, .run (.cmpFrame k') => if k' = k then some .composited else none
  | .cmpSelect k, .run (.cmpSelect k') => if k' = k then some (.cmpCheck k) else none
  | .cmpCheck k, .run (.cmpCheck k') => if k' = k then some (.pixels k) else none
  | .pixels k, .pixelLoop k' _ _ => if k' = k then some .composited else none
  | .pixel k r c, .run (.cmpPix k' r' c') =>
    if k' = k ∧ r' = r ∧ c' = c then some (.pixels k) else none
  | .composited, .endComposite => some .over
  | _, _ => none

/-- The control point after all the lines of a stack. -/
def afterAll : Stage → List Line → Option Stage
  | g, [] => some g
  | g, l :: rest =>
    match after g l with
    | some g' => afterAll g' rest
    | none => none

/-- What a busy state promises at a control point; `over` is no control point of a busy state. -/
def StageOk : Stage → State → Prop
  | .start, s => s.pos ≤ srcLen s ∧ s.img.gct = none
  | .lsd, s => s.pos ≤ srcLen s ∧ s.img.gct = none
  | .gct, s => s.pos ≤ srcLen s ∧ s.img.gct = none
  | .intro, s => s.pos < srcLen s
  | .block, s | .loaded, s | .desc, s | .lct, s | .label, s | .extData, s | .extStore, s =>
    s.pos ≤ srcLen s
  | .mcs, s | .data, s | .decode, s | .commit, s =>
    s.pos ≤ srcLen s ∧ tableOk s.cur = true
  | .lzw, s =>
    s.pos ≤ srcLen s ∧ tableOk s.cur = true ∧ LzwOk s.lzw ∧ bitPos s.lzw ≤ 8 * s.acc.length
  | .code, s =>
    s.pos ≤ srcLen s ∧ tableOk s.cur = true ∧ LzwOk s.lzw ∧ bitPos s.lzw ≤ 8 * s.acc.length ∧
      s.lzw.code < 2 ^ s.lzw.codeLen
  | .cmpSelect k, s => k < nFrames s
  | .cmpCheck k, s => k < nFrames s ∧ s.ct.length = s.ctLen
  | .pixels k, s =>
    s.ct.length = s.ctLen ∧ ∃ fr, s.img.frames[k]? = some fr ∧ fits fr s = true
  | .pixel k r c, s =>
    s.ct.length = s.ctLen ∧ ∃ fr, s.img.frames[k]? = some fr ∧ fits fr s = true ∧
      r < fr.height.toNat ∧ c < fr.width.toNat
  | .composited, _ => True
  | .over, _ => False

/-- A state the engine can be in: between commands nothing is pending and `PHASE` is one the host may see (R29);
during a command the pending lines lead from a control point whose promises hold to the command's end. -/
def Legal (s : State) : Prop :=
  imgOk s.img = true ∧
  if s.status.busy then ∃ g, afterAll g s.ctl = some .over ∧ StageOk g s
  else s.ctl = [] ∧ (s.phase = .idle ∨ s.phase = .done ∨ s.phase = .faulted)

/-! ### Work left (R266, R333) -/

/-- The steps the loops of `CMP.FRAME` have left at row `r`, column `c` of a `w` by `h` frame. -/
def pixelWork (w h r c : Nat) : Nat :=
  if r < h then (h - r - 1) * (2 * w + 2) + 2 * (w - c) + 3 else 1

/-- The pixel work of frame `k`, 1 if there is none. -/
def frameWork (s : State) (k r c : Nat) : Nat :=
  match s.img.frames[k]? with
  | some fr => pixelWork fr.width.toNat fr.height.toNat r c
  | none => 1

/-- A bound on the steps the pending lines take apart from what source bytes pay for: `acc` bits to decode where
a decode is to come, `left` bits where one is under way. -/
def linesWork (s : State) (acc left : Nat) : List Line → Nat
  | [] => 0
  | l :: rest =>
    match l with
    | .run .demux => 20 + linesWork s acc left rest
    | .blockLoop => 3 + linesWork s acc left rest
    | .run .blkClassify => 2 + linesWork s acc left rest
    | .run .imgBlock => 40 + linesWork s acc left rest
    | .run .extBlock => 2 + linesWork s acc left rest
    | .run .imgData => 4 + linesWork s 0 left rest
    | .run .sbkRead => 3 + linesWork s 0 left rest
    | .run .imgDecode => acc + 6 + linesWork s acc left rest
    | .run .lzwRun => acc + 5 + linesWork s acc left rest
    | .run (.lzwInit _) => 1 + linesWork s acc acc rest
    | .lzwNext => left + 2 + linesWork s acc left rest
    | .lzwClassify => left + 3 + linesWork s acc left rest
    | .run (.cmpFrame k) => frameWork s k 0 0 + 3 + linesWork s acc left rest
    | .pixelLoop k r c => frameWork s k r c + linesWork s acc left rest
    | .run _ | .setPhase _ | .decodeAt _ | .storeExt | .endLoad | .endComposite =>
      1 + linesWork s acc left rest

/-- The next line consumes the introducer byte at `POS`, which the peek has seen. -/
def introPending : List Line → Bool
  | .run .imgBlock :: _ | .run .imgSep :: _ | .run .extBlock :: _ => true
  | _ => false

/-- A bound on the steps left: every unread source byte pays for 80, the bits of `ACC` and the pixels of the frame
for the rest. -/
def work (s : State) : Nat :=
  80 * (srcLen s - s.pos - (introPending s.ctl).toNat)
    + linesWork s (8 * s.acc.length) (bitsLeft s) s.ctl

/-! ### Components (R2, R20) -/

/-- The component an operation belongs to. -/
inductive Component where
  | byteSource
  | subBlock
  | demuxer
  | blockParser
  | lzw
  | compositor
  | command
  deriving DecidableEq, Repr

/-- The component of each operation, as the families of the opcode table are laid out (R2). -/
def component : Instr → Component
  | .rd8 | .pk8 | .rd16 | .rdn _ => .byteSource
  | .sbkRead | .sbkData _ | .sbkTerm => .subBlock
  | .demux | .hdr87a | .hdr89a | .hdrBad _ | .lsdesc | .gctRead | .blkClassify | .blkImg | .blkExt
  | .blkTrl | .blkUnk _ => .demuxer
  | .imgBlock | .imgSep | .imgDesc | .lctRead | .imgMcs | .imgData | .imgDecode | .imgCommit
  | .extBlock | .extPtx | .extGce | .extCom | .extApp | .extOther _ => .blockParser
  | .lzwRun | .lzwInit _ | .lzwReset | .lzwFetch | .lzwExh | .lzwClear | .lzwEoi | .lzwLit _
  | .lzwKnown _ | .lzwKwkwk | .lzwDrift _ => .lzw
  | .cmpFrame _ | .cmpSelect _ | .cmpCheck _ | .cmpPix _ _ _ => .compositor
  | .cmdNop | .cmdLoad | .cmdComposite | .cmdReset | .cmdReserved _ => .command

/-! ### A decode as one function -/

/-- How a decode ends: by EOI or exhaustion, or with a fault that is located by the bit position in `p0`; with
whether a drift was tolerated. -/
inductive DecodeEnd where
  | finished (z : Lzw) (drift : Bool)
  | failed (c : Cause) (z : Lzw) (drift : Bool)
  deriving DecidableEq, Repr

/-- The loop of `LZW.RUN` (R200) as one recursive function over at most `n` codes of `buf`, from the registers
`z`; `drift` says whether a drift has been tolerated so far. -/
def decodeLoop (strictMode : Bool) (buf : List Byte) : Nat → Lzw → Bool → DecodeEnd
  | 0, z, drift => .finished z drift
  | n + 1, z, drift =>
    if 8 * buf.length - bitPos z < z.codeLen then .finished { z with status := .exhausted } drift
    else
      let y := fetchCode buf z
      if y.code = y.clearCode then decodeLoop strictMode buf n (emit [] (resetLzw y)) drift
      else if y.code = y.eoiCode then .finished { y with status := .eoi } drift
      else if y.code < y.nextCode then
        decodeLoop strictMode buf n (dataCode ((cellGet y.dict y.code).getD []) y) drift
      else if y.nextCode < y.code ∧ strictMode = true then .failed .lzwDrift y drift
      else
        let drift' := drift || decide (y.nextCode < y.code)
        if y.last = [] then .failed .lzwEmptyPrefix y drift'
        else decodeLoop strictMode buf n (dataCode (fixUp y) y) drift'

/-! ### Streams of literals -/

/-- The codes that put every index after a clear code of its own, each `cs + 1` bits wide, and end by EOI: an
encoding of any index sequence that the width rule never lengthens (R206, R214, R215). -/
def literalCodes (cs : Nat) : List Byte → List (Nat × Nat)
  | [] => [(2 ^ cs + 1, cs + 1)]
  | b :: rest => (2 ^ cs, cs + 1) :: (b.toNat, cs + 1) :: literalCodes cs rest

end Sys2Proof.Machine
end

