-- ==== Sys2Proof/Certificates/Slice0/Obligations.lean ====
section
/-! DEFINITION. The statements about the engine, each from the numbered rules its docstring cites. A result is
stated as the whole next state, so it is the frame of the instruction as well: every field the update does not name
is unchanged. -/

open Sys2Proof Sys2Proof.Machine

/-! ### Encoding -/

/-- R101, R104, R105, R107, R108, R111, R116: at every decode point, the bytes that encode a well-formed operation
decode to it, whatever follows them. -/
def Obligations.DecodeOfEncode : Prop :=
  ∀ (i : Instr) (p : Point) (rest : List Byte), i.wf = true → i.point = some p →
    decode p (encode i ++ rest) = .ok i

/-- R116: a decode point never answers an operation of another one or an ill-formed one, and what it answers is
encoded by the bytes it read: one meaning for each word. -/
def Obligations.EncodeOfDecode : Prop :=
  ∀ (p : Point) (bs : List Byte) (i : Instr), decode p bs = .ok i →
    i.wf = true ∧ i.point = some p ∧ ∃ rest, bs = encode i ++ rest

/-- R117: the six classes partition the code values, each selected by its own comparison; `LZW.KWKWK` is empty when
the dictionary is full and `LZW.DRIFT` when `NEXT_CODE` is at least the greatest code of the width. -/
def Obligations.LzwClassesPartition : Prop :=
  ∀ clear next code codeLen : Nat, clear + 1 < next → codeLen ≤ 12 → code < 2 ^ codeLen →
    let i := decodeLzw clear (clear + 1) next code
    encodeLzw clear (clear + 1) next i = some code ∧
    (i = .lzwClear ↔ code = clear) ∧
    (i = .lzwEoi ↔ code = clear + 1) ∧
    (i = .lzwLit code ↔ code < clear) ∧
    (i = .lzwKnown code ↔ clear + 1 < code ∧ code < next) ∧
    (i = .lzwKwkwk ↔ code = next) ∧
    (i = .lzwDrift code ↔ next < code) ∧
    (next = 4096 → i ≠ .lzwKwkwk) ∧
    (2 ^ codeLen ≤ next + 1 → i ≠ .lzwDrift code)

/-- R115: the code at a bit cursor is the weighted sum of its bits, and equally the little-endian integer of the
bytes from `BYTE_IDX` on, shifted right by `BIT_OFF`, its low bits kept. -/
def Obligations.CodeExtraction : Prop :=
  ∀ (buf : List Byte) (byteIdx bitOff w : Nat), bitOff < 8 → w ≤ 12 →
    8 * byteIdx + bitOff + w ≤ 8 * buf.length →
    codeAt buf (8 * byteIdx + bitOff) w =
        ∑ i ∈ Finset.range w, bitAt buf (8 * byteIdx + bitOff + i) * 2 ^ i ∧
    codeAt buf (8 * byteIdx + bitOff) w =
        leNat ((buf.drop byteIdx).take 3) / 2 ^ bitOff % 2 ^ w

/-- R71, R110: a code packed among others, least significant bit first, is read back at its bit position. -/
def Obligations.PackedCodeReadBack : Prop :=
  ∀ (pre post : List (Nat × Nat)) (c w : Nat), c < 2 ^ w →
    codeAt (packCodes (pre ++ (c, w) :: post)) (packedBits pre) w = c

/-- R101, R104, R107, R108, R111: words written out from the spec's encodings, one or more of each decode point. -/
def Obligations.SpecWordsDecode : Prop :=
  decode .header [0x47, 0x49, 0x46, 0x38, 0x37, 0x61] = .ok .hdr87a ∧
  decode .header [0x47, 0x49, 0x46, 0x38, 0x39, 0x61] = .ok .hdr89a ∧
  decode .header [0x47, 0x49, 0x46, 0x38, 0x38, 0x61] = .ok (.hdrBad 0x474946383861) ∧
  decode .header [0x47, 0x49, 0x46, 0x38] = .error (.short 6) ∧
  decode .introducer [0x2C] = .ok .blkImg ∧
  decode .introducer [0x21] = .ok .blkExt ∧
  decode .introducer [0x3B] = .ok .blkTrl ∧
  decode .introducer [0x99] = .ok (.blkUnk 0x99) ∧
  decode .imageByte0 [0x2C] = .ok .imgSep ∧
  decode .imageByte0 [0x2D] = .error (.badSeparator 0x2D) ∧
  decode .label [0x01] = .ok .extPtx ∧
  decode .label [0xF9] = .ok .extGce ∧
  decode .label [0xFE] = .ok .extCom ∧
  decode .label [0xFF] = .ok .extApp ∧
  decode .label [0x77] = .ok (.extOther 0x77) ∧
  decode .sbLength [0x00] = .ok .sbkTerm ∧
  decode .sbLength [0xFF] = .ok (.sbkData 0xFF) ∧
  decode .cmd [0x00] = .ok .cmdNop ∧
  decode .cmd [0x01] = .ok .cmdLoad ∧
  decode .cmd [0x02] = .ok .cmdComposite ∧
  decode .cmd [0x03] = .ok .cmdReset ∧
  decode .cmd [0x04] = .ok (.cmdReserved 0x04)

/-! ### Stepping and reset -/

/-- R11, R29, R116 (small steps; log 1): a step runs exactly the operation it fetches. A value in `CMD`, or an idle
engine, runs the command in `CMD`, which is emptied; otherwise the first pending line is taken off and the operation
it names, or the one its decode point or the LZW registers select, is run. Where the source ends before the pattern of
a decode point does, the read made there traps (R140); a byte that is no image separator is consumed and is
`BAD_SEPARATOR` at its offset (R181). -/
def Obligations.StepRunsFetched : Prop :=
  (∀ s : State, s.cmd ≠ 0 ∨ s.status.busy = false →
    step s = exec (decodeCmd s.cmd) { s with cmd := 0 }) ∧
  (∀ (s : State) (rest : List Line), running s = true →
    (∀ i, s.ctl = .run i :: rest → step s = exec i { s with ctl := rest }) ∧
    (∀ p i, s.ctl = .decodeAt p :: rest → decode p (bytesAt p s) = .ok i →
      step s = exec i { s with ctl := rest }) ∧
    (∀ p n, s.ctl = .decodeAt p :: rest → decode p (bytesAt p s) = .error (.short n) →
      step s = .next (raise .truncated s.pos n { s with ctl := rest })) ∧
    (∀ p b, s.ctl = .decodeAt p :: rest → decode p (bytesAt p s) = .error (.badSeparator b) →
      step s = .next (raise .badSeparator s.pos b.toNat { s with ctl := rest, pos := s.pos + 1 })) ∧
    (s.ctl = .lzwNext :: rest →
      step s = exec (decodeLzwNext (bitsLeft s) s.lzw.codeLen) { s with ctl := rest }) ∧
    (s.ctl = .lzwClassify :: rest →
      step s = exec (decodeLzw s.lzw.clearCode s.lzw.eoiCode s.lzw.nextCode s.lzw.code)
        { s with ctl := rest }))

/-- R47, R320: the values the spec states for reset. -/
def Obligations.ResetValues : Prop :=
  State.reset.cmd = 0 ∧ State.reset.arg = 0 ∧ State.reset.cfg = 0 ∧ State.reset.status.byte = 0 ∧
  State.reset.faultKind = 0 ∧ State.reset.faultCause = 0 ∧ State.reset.faultPos = 0 ∧
  State.reset.faultAux = 0 ∧ State.reset.pos = 0 ∧ State.reset.phase = .idle ∧
  nFrames State.reset = 0 ∧ nExts State.reset = 0 ∧ gctValid State.reset = false ∧
  State.reset.lzw.status = .idle

/-- R321: after reset the engine does nothing until a command is written, and a COMPOSITE before a successful LOAD
raises `BAD_COMMAND`. That an idle engine takes steps at all is the model's choice (log 4). -/
def Obligations.IdleEngineWaits : Prop :=
  (∀ s : State, s.status.busy = false → s.cmd = 0 → step s = .next s) ∧
  exec .cmdComposite State.reset = .next (raise .badCommand 0 2 State.reset)

/-! ### Byte source (R140 to R144) -/

/-- R141 to R144: each primitive returns the bytes at `POS` and consumes exactly them (`PK8` none); `RD16` is
little-endian. -/
def Obligations.ReadsReturnAndConsume : Prop :=
  ∀ (s : State) (pre post : List Byte), s.pos = pre.length →
    (∀ b, s.src = pre ++ b :: post →
      exec .rd8 s = .next { s with pos := s.pos + 1, ret := .byte b } ∧
      exec .pk8 s = .next { s with ret := .byte b }) ∧
    (∀ b0 b1, s.src = pre ++ b0 :: b1 :: post →
      ∃ v : Half, v.toNat = b0.toNat + 256 * b1.toNat ∧
        exec .rd16 s = .next { s with pos := s.pos + 2, ret := .half v }) ∧
    (∀ bs, s.src = pre ++ bs ++ post →
      exec (.rdn bs.length) s = .next { s with pos := s.pos + bs.length, ret := .bytes bs })

/-- R140: a primitive that needs more bytes than remain consumes nothing and raises `TRUNCATED(POS, n)`. -/
def Obligations.ShortReadsTrap : Prop :=
  ∀ (i : Instr) (n : Nat) (s : State),
    (i = .rd8 ∧ n = 1 ∨ i = .pk8 ∧ n = 1 ∨ i = .rd16 ∧ n = 2 ∨ i = .rdn n) → srcLen s < s.pos + n →
    ∃ t, exec i s = .next t ∧ t = raise .truncated s.pos n s ∧ t.pos = s.pos ∧
      t.faultKind = 2 ∧ t.faultCause = 4 ∧ t.faultPos = s.pos ∧ t.faultAux = n ∧
      t.status.fault = true ∧ t.status.done = false ∧ t.status.busy = false ∧ t.phase = .faulted

/-! ### Sub-block reader (R150 to R152) -/

/-- R150, R151, R152: `SBK.READ` empties `ACC` and enters its loop; `SBK.DATA` consumes the length byte, appends the
payload and goes back to the loop, or, with fewer than `n` payload bytes left, has consumed the length byte and raises
`TRUNCATED(POS after it, n)`; `SBK.TERM` consumes the terminator and leaves the loop; where the source ends before a
length byte, the loop raises `TRUNCATED(POS, 1)` (R140). That the body of R150 is split into the call and the rows of its
length bytes, with the loop pending between them, is deduced (log 12). -/
def Obligations.SubBlockSteps : Prop :=
  (∀ s : State, exec .sbkRead s = .next { s with acc := [], ctl := .decodeAt .sbLength :: s.ctl }) ∧
  (∀ (s : State) (pre payload post : List Byte) (n : Byte),
    s.pos = pre.length → s.src = pre ++ n :: (payload ++ post) → payload.length = n.toNat →
    exec (.sbkData n) s = .next { s with
      pos := s.pos + 1 + n.toNat, sbLen := n, acc := s.acc ++ payload,
      ctl := .decodeAt .sbLength :: s.ctl }) ∧
  (∀ (s : State) (n : Byte), s.pos < srcLen s → srcLen s < s.pos + 1 + n.toNat →
    exec (.sbkData n) s =
      .next (raise .truncated (s.pos + 1) n.toNat { s with pos := s.pos + 1, sbLen := n })) ∧
  (∀ s : State, s.pos < srcLen s →
    exec .sbkTerm s = .next { s with pos := s.pos + 1, sbLen := 0 }) ∧
  (∀ (s : State) (rest : List Line), running s = true → s.ctl = .decodeAt .sbLength :: rest →
    srcLen s ≤ s.pos → step s = .next (raise .truncated s.pos 1 { s with ctl := rest }))

/-- R150: from the call of `SBK.READ` at the encoding of any sequence of payloads of 1 to 255 bytes, the engine
returns to the caller's next line with their concatenation in `ACC` and `POS` after the terminator, one step for the
call and one for each sub-block. -/
def Obligations.SubBlocksReassembled : Prop :=
  ∀ (s : State) (rest : List Line) (pre post : List Byte) (blocks : List (List Byte)),
    running s = true → s.ctl = .run .sbkRead :: rest → s.pos = pre.length →
    s.src = pre ++ encodeSubBlocks blocks ++ post →
    (∀ b ∈ blocks, 1 ≤ b.length ∧ b.length ≤ 255) →
    Reaches (blocks.length + 2) s
      { s with acc := blocks.flatten, sbLen := 0, ctl := rest,
               pos := s.pos + (encodeSubBlocks blocks).length }

/-! ### Container demuxer (R160 to R171) -/

/-- R160: `DEMUX` runs the header, the screen descriptor and the table under their phases, then the block loop, which
classifies a block under `PHASE = BLOCK`. -/
def Obligations.DemuxOrder : Prop :=
  (∀ s : State, exec .demux s = .next { s with
    ctl := [.setPhase .header, .decodeAt .header, .setPhase .lsd, .run .lsdesc, .setPhase .gct,
      .run .gctRead, .blockLoop] ++ s.ctl }) ∧
  (∀ (s : State) (rest : List Line), running s = true →
    (∀ p, s.ctl = .setPhase p :: rest → step s = .next { s with phase := p, ctl := rest }) ∧
    (s.ctl = .blockLoop :: rest →
      step s = .next { s with phase := .block, ctl := .run .blkClassify :: rest }))

/-- R161: at the header, six bytes are consumed and must be one of the two magics, whose last three bytes become
`VERSION`; any other six are `BAD_MAGIC(p, 0)`; with fewer than six bytes left the read traps first. The three header
operations complete where six bytes remain. The byte values of the letters are the spec's own general knowledge (G2,
log 19). -/
def Obligations.HeaderStep : Prop :=
  (∀ (s : State) (rest : List Line), running s = true → s.ctl = .decodeAt .header :: rest →
    (srcLen s < s.pos + 6 →
      step s = .next (raise .truncated s.pos 6 { s with ctl := rest })) ∧
    (∀ pre magic post, s.pos = pre.length → s.src = pre ++ magic ++ post → magic.length = 6 →
      step s =
        if magic = [0x47, 0x49, 0x46, 0x38, 0x37, 0x61] then
          .next { s with pos := s.pos + 6, ctl := rest, img := { s.img with version := 0x383761 } }
        else if magic = [0x47, 0x49, 0x46, 0x38, 0x39, 0x61] then
          .next { s with pos := s.pos + 6, ctl := rest, img := { s.img with version := 0x383961 } }
        else .next (raise .badMagic s.pos 0 { s with pos := s.pos + 6, ctl := rest }))) ∧
  (∀ s : State, s.pos + 6 ≤ srcLen s →
    exec .hdr87a s =
      .next { s with pos := s.pos + 6, img := { s.img with version := 0x383761 } } ∧
    exec .hdr89a s =
      .next { s with pos := s.pos + 6, img := { s.img with version := 0x383961 } } ∧
    ∀ m, exec (.hdrBad m) s = .next (raise .badMagic s.pos 0 { s with pos := s.pos + 6 }))

/-- R162, R102, R70: the seven bytes of a logical screen descriptor, whatever their values, set its five registers. -/
def Obligations.LsdescFields : Prop :=
  ∀ (s : State) (pre post : List Byte) (w h : Half) (flags bg aspect : Byte),
    s.pos = pre.length → s.src = pre ++ encodeLsd w h flags bg aspect ++ post →
    exec .lsdesc s = .next { s with
      pos := s.pos + 7,
      img := { s.img with lsdWidth := w, lsdHeight := h, lsdFlags := flags, bgIndex := bg,
                          aspect := aspect } }

/-- R162, R140: cut short, `LSDESC` traps at the read that finds too few bytes; the whole fields before it have been
consumed, and no byte of that read. -/
def Obligations.LsdescCutShort : Prop :=
  ∀ (s : State) (left : Nat), left < 7 → s.pos + left = srcLen s →
    ∃ t, exec .lsdesc s = .next t ∧ t.status.fault = true ∧ t.faultCause = 4 ∧
      t.pos = s.pos + (if left < 2 then 0 else if left < 4 then 2 else left) ∧ t.faultPos = t.pos ∧
      t.faultAux = if left < 4 then 2 else 1

/-- R163, R103: with `GCT_PRESENT`, exactly `3 * 2^(GCT_EXP + 1)` bytes are read as the table, in order, or the read
traps; without it nothing is consumed and there is no table. -/
def Obligations.GctReadTable : Prop :=
  ∀ s : State,
    (gctPresent s.img.lsdFlags = false →
      exec .gctRead s = .next { s with img := { s.img with gct := none } }) ∧
    (gctPresent s.img.lsdFlags = true →
      (∀ pre table post, s.pos = pre.length → s.src = pre ++ encodeTable table ++ post →
        table.length = 2 ^ ((gctExp s.img.lsdFlags).toNat + 1) →
        exec .gctRead s = .next { s with
          pos := s.pos + 3 * table.length, img := { s.img with gct := some table } }) ∧
      (srcLen s < s.pos + 3 * 2 ^ ((gctExp s.img.lsdFlags).toNat + 1) →
        exec .gctRead s = .next
          (raise .truncated s.pos (3 * 2 ^ ((gctExp s.img.lsdFlags).toNat + 1)) s)))

/-- R164, R171: the next block is classified by the byte at `POS`, which is not consumed: after the step of
`BLK.CLASSIFY` and the step of the row it selects, the image or extension parser is called, the pass returns, or
`UNKNOWN_BLOCK(p, byte)` is raised; at the end of the source the peek traps. That the row of the block is a step of its
own (log 12), sets `PHASE` (R160) and leaves the block loop pending (R165, R166, R170) is deduced (log 13). -/
def Obligations.BlockClassified : Prop :=
  ∀ (s : State) (rest : List Line), running s = true → s.ctl = .run .blkClassify :: rest →
    (srcLen s ≤ s.pos → step s = .next (raise .truncated s.pos 1 { s with ctl := rest })) ∧
    (∀ pre b post, s.pos = pre.length → s.src = pre ++ b :: post →
      Reaches 2 s
        (if b = 0x2C then
          { s with peeked := b, phase := .image, ctl := .run .imgBlock :: .blockLoop :: rest }
        else if b = 0x21 then
          { s with peeked := b, phase := .extension, ctl := .run .extBlock :: .blockLoop :: rest }
        else if b = 0x3B then { s with peeked := b, ctl := rest }
        else raise .unknownBlock s.pos b.toNat { s with peeked := b, ctl := rest }))

/-- R164, R170, R171: the operations of the block introducers. `BLK.IMG` and `BLK.EXT` (R165, R166) set `PHASE` and
leave the block loop pending, as R160 does around their call; that this belongs to their own step is deduced
(log 13). -/
def Obligations.BlockOperations : Prop :=
  ∀ s : State,
    (s.pos < srcLen s → exec .blkClassify s = .next { s with
      peeked := srcByte s s.pos, ctl := .decodeAt .introducer :: s.ctl }) ∧
    exec .blkImg s = .next { s with
      phase := .image, ctl := .run .imgBlock :: .blockLoop :: s.ctl } ∧
    exec .blkExt s = .next { s with
      phase := .extension, ctl := .run .extBlock :: .blockLoop :: s.ctl } ∧
    exec .blkTrl s = .next s ∧
    ∀ b, exec (.blkUnk b) s = .next (raise .unknownBlock s.pos b.toNat s)

/-! ### Image block and extension parsers (R180 to R191) -/

/-- R180, R185, R186: the seven steps of an image block in the order of the wire; its data come from `SBK.READ` and
its pixels from `LZW.RUN`. -/
def Obligations.ImageBlockOrder : Prop :=
  ∀ s : State,
    exec .imgBlock s = .next { s with
      ctl := [.run .imgSep, .run .imgDesc, .run .lctRead, .run .imgMcs, .run .imgData,
        .run .imgDecode, .run .imgCommit] ++ s.ctl } ∧
    exec .imgData s = .next { s with ctl := .run .sbkRead :: s.ctl } ∧
    exec .imgDecode s = .next { s with ctl := .run .lzwRun :: s.ctl }

/-- R181, R184: the separator is consumed, and any other byte than `0x2C` is `BAD_SEPARATOR(p, byte)`; `minCodeSize`
is stored as read, whatever its value, and `MCS_POS` is its offset; at the end of the source each read traps. -/
def Obligations.SeparatorAndCodeSize : Prop :=
  ∀ s : State,
    (∀ pre post b, s.pos = pre.length → s.src = pre ++ b :: post →
      exec .imgSep s =
        (if b = 0x2C then .next { s with pos := s.pos + 1 }
        else .next (raise .badSeparator s.pos b.toNat { s with pos := s.pos + 1 })) ∧
      exec .imgMcs s = .next { s with
        mcsPos := s.pos, pos := s.pos + 1, cur := { s.cur with minCodeSize := b } }) ∧
    (srcLen s ≤ s.pos →
      exec .imgSep s = .next (raise .truncated s.pos 1 s) ∧
      exec .imgMcs s = .next (raise .truncated s.pos 1 { s with mcsPos := s.pos }))

/-- R182, R105, R70, R140: the nine bytes of an image descriptor, whatever their values, set its five fields of `CUR`.
Cut short, `IMG.DESC` traps at the read that finds too few bytes; the whole fields before it have been consumed and
written to `CUR`, and no byte of that read. -/
def Obligations.ImageDescFields : Prop :=
  (∀ (s : State) (pre post : List Byte) (l t w h : Half) (flags : Byte),
    s.pos = pre.length → s.src = pre ++ encodeImageDesc l t w h flags ++ post →
    exec .imgDesc s = .next { s with
      pos := s.pos + 9,
      cur := { s.cur with left := l, top := t, width := w, height := h, flags := flags } }) ∧
  (∀ (s : State) (pre rest : List Byte), s.pos = pre.length → s.src = pre ++ rest → rest.length < 9 →
    ∃ t, exec .imgDesc s = .next t ∧ t.status.fault = true ∧ t.faultCause = 4 ∧
      t.pos = s.pos + (if rest.length < 8 then 2 * (rest.length / 2) else 8) ∧ t.faultPos = t.pos ∧
      t.faultAux = (if rest.length < 8 then 2 else 1) ∧
      t.cur = { s.cur with
        left := if rest.length < 2 then s.cur.left else half (rest.getD 0 0) (rest.getD 1 0)
        top := if rest.length < 4 then s.cur.top else half (rest.getD 2 0) (rest.getD 3 0)
        width := if rest.length < 6 then s.cur.width else half (rest.getD 4 0) (rest.getD 5 0)
        height := if rest.length < 8 then s.cur.height else half (rest.getD 6 0) (rest.getD 7 0) })

/-- R183, R103: the local table, as the global one; without the flag `CUR.LCT` is absent. -/
def Obligations.LctReadTable : Prop :=
  ∀ s : State,
    (lctPresent s.cur.flags = false →
      exec .lctRead s = .next { s with cur := { s.cur with lct := none } }) ∧
    (lctPresent s.cur.flags = true →
      (∀ pre table post, s.pos = pre.length → s.src = pre ++ encodeTable table ++ post →
        table.length = 2 ^ ((lctExp s.cur.flags).toNat + 1) →
        exec .lctRead s = .next { s with
          pos := s.pos + 3 * table.length, cur := { s.cur with lct := some table } }) ∧
      (srcLen s < s.pos + 3 * 2 ^ ((lctExp s.cur.flags).toNat + 1) →
        exec .lctRead s = .next
          (raise .truncated s.pos (3 * 2 ^ ((lctExp s.cur.flags).toNat + 1)) s)))

/-- R187: the frame is appended with the decoded bytes exactly when their number is `WIDTH * HEIGHT`; otherwise
`PIXEL_COUNT(MCS_POS, len(OUT))` and no frame. -/
def Obligations.FrameCommitted : Prop :=
  ∀ s : State,
    (s.lzw.out.length = s.cur.width.toNat * s.cur.height.toNat →
      exec .imgCommit s = .next { s with
        cur := { s.cur with idx := s.lzw.out },
        img := { s.img with frames := s.img.frames ++ [{ s.cur with idx := s.lzw.out }] } }) ∧
    (s.lzw.out.length ≠ s.cur.width.toNat * s.cur.height.toNat →
      exec .imgCommit s = .next (raise .pixelCount s.mcsPos s.lzw.out.length s))

/-- R190, R191: the introducer is consumed without being compared; every label, named or not, is consumed into
`CUR_LABEL` and goes on the same way; at the end of the source each of these reads traps, and so does the step that
would select the label's row. That `EXT.BLOCK` ends at the label and the label's row does the rest of R190 is deduced
(log 12). -/
def Obligations.ExtensionSteps : Prop :=
  ∀ s : State,
    (s.pos < srcLen s →
      exec .extBlock s = .next { s with pos := s.pos + 1, ctl := .decodeAt .label :: s.ctl }) ∧
    (srcLen s ≤ s.pos → exec .extBlock s = .next (raise .truncated s.pos 1 s)) ∧
    ∀ i l, (i = .extPtx ∧ l = 0x01 ∨ i = .extGce ∧ l = 0xF9 ∨ i = .extCom ∧ l = 0xFE ∨
        i = .extApp ∧ l = 0xFF ∨ i = .extOther l) →
      (s.pos < srcLen s →
        exec i s = .next { s with
          pos := s.pos + 1, curLabel := l, ctl := .run .sbkRead :: .storeExt :: s.ctl }) ∧
      (srcLen s ≤ s.pos → exec i s = .next (raise .truncated s.pos 1 s)) ∧
      ∀ rest, running s = true → s.ctl = .decodeAt .label :: rest → srcLen s ≤ s.pos →
        step s = .next (raise .truncated s.pos 1 { s with ctl := rest })

/-- R190, R191: from the call of `EXT.BLOCK` at any introducer byte, any label and any sub-block sequence, the engine
comes to the caller's next line with one extension appended, its data the concatenated payloads. -/
def Obligations.ExtensionStored : Prop :=
  ∀ (s : State) (rest : List Line) (pre post : List Byte) (intro label : Byte)
    (blocks : List (List Byte)),
    running s = true → s.ctl = .run .extBlock :: rest → s.pos = pre.length →
    s.src = pre ++ intro :: label :: (encodeSubBlocks blocks ++ post) →
    (∀ b ∈ blocks, 1 ≤ b.length ∧ b.length ≤ 255) →
    Reaches (blocks.length + 5) s
      { s with
        pos := s.pos + 2 + (encodeSubBlocks blocks).length,
        curLabel := label, acc := blocks.flatten, sbLen := 0, ctl := rest,
        img := { s.img with exts := s.img.exts ++ [⟨label, blocks.flatten⟩] } }

/-! ### LZW decoder (R200 to R217) -/

/-- R201: `LZW.INIT(cs)` admits 2 to 8 and starts a decode with the initial registers, or raises
`BAD_CODE_SIZE(MCS_POS, cs)`; `LZW.RUN` calls it with `CUR.MIN_CODE_SIZE` (R200). The initial `NEXT_CODE` is the spec's
own general knowledge (G1, log 19). -/
def Obligations.DecodeStarts : Prop :=
  (∀ s : State, exec .lzwRun s = .next { s with
    ctl := .run (.lzwInit s.cur.minCodeSize) :: .lzwNext :: s.ctl }) ∧
  (∀ (s : State) (cs : Byte), 2 ≤ cs.toNat → cs.toNat ≤ 8 →
    ∃ z, exec (.lzwInit cs) s = .next { s with lzw := z } ∧
      z = { s.lzw with
        codeSize := cs.toNat, clearCode := 2 ^ cs.toNat, eoiCode := 2 ^ cs.toNat + 1,
        codeLen := cs.toNat + 1, nextCode := 2 ^ cs.toNat + 2, last := [], dict := z.dict,
        byteIdx := 0, bitOff := 0, out := [], runs := [], status := .running } ∧
      ∀ c, cellGet z.dict c = if c < 2 ^ cs.toNat then some [BitVec.ofNat 8 c] else none) ∧
  (∀ (s : State) (cs : Byte), cs.toNat < 2 ∨ 8 < cs.toNat →
    exec (.lzwInit cs) s = .next (raise .badCodeSize s.mcsPos cs.toNat s))

/-- R202, R206: `LZW.RESET` puts the dictionary, `CODE_LEN`, `NEXT_CODE` and `LAST` in their initial state, and
`LZW.CLEAR` does so and emits one empty run. The initial `NEXT_CODE` is the spec's own general knowledge (G1, log 19).
-/
def Obligations.ClearResets : Prop :=
  ∀ s : State, ∃ z : Lzw,
    z = { s.lzw with
      dict := z.dict, codeLen := s.lzw.codeSize + 1, nextCode := s.lzw.eoiCode + 1, last := [] } ∧
    (∀ c, cellGet z.dict c = if c < s.lzw.clearCode then some [BitVec.ofNat 8 c] else none) ∧
    exec .lzwReset s = .next { s with lzw := z } ∧
    exec .lzwClear s = .next { s with
      lzw := { z with runs := s.lzw.runs ++ [[]] }, ctl := .lzwNext :: s.ctl }

/-- R203, R205: where `CODE_LEN` bits remain, `LZW.FETCH` takes the code at the cursor and moves the cursor by
`CODE_LEN` bits; the code is below `2^CODE_LEN`. -/
def Obligations.FetchTakesCode : Prop :=
  ∀ s : State, bitPos s.lzw + s.lzw.codeLen ≤ 8 * s.acc.length →
    ∃ z, exec .lzwFetch s = .next { s with lzw := z, ctl := .lzwClassify :: s.ctl } ∧
      z = { s.lzw with
        code := codeAt s.acc (bitPos s.lzw) s.lzw.codeLen, p0 := bitPos s.lzw,
        byteIdx := (bitPos s.lzw + s.lzw.codeLen) / 8,
        bitOff := (bitPos s.lzw + s.lzw.codeLen) % 8 } ∧
      bitPos z = bitPos s.lzw + s.lzw.codeLen ∧ z.code < 2 ^ s.lzw.codeLen

/-- R204, R207: before each fetch the engine tests whether `CODE_LEN` bits remain; if not, the decode ends normally,
the cursor where it is. `LZW.EOI` ends it too, and each of the two changes `LZW_STATUS` only. -/
def Obligations.DecodeEnds : Prop :=
  (∀ s : State,
    exec .lzwExh s = .next { s with lzw := { s.lzw with status := .exhausted } } ∧
    exec .lzwEoi s = .next { s with lzw := { s.lzw with status := .eoi } }) ∧
  (∀ (s : State) (rest : List Line), running s = true → s.ctl = .lzwNext :: rest →
    bitsLeft s < s.lzw.codeLen →
    step s = .next { s with lzw := { s.lzw with status := .exhausted }, ctl := rest })

/-- R209, R210, R214, R215, R216: a literal or known code whose entry is `value` is taken as a data code of that
value: entry inserted, code widened, `LAST` set, `value` emitted. -/
def Obligations.EntryEmitted : Prop :=
  ∀ (s : State) (code : Nat) (value : List Byte) (i : Instr),
    (i = .lzwLit code ∨ i = .lzwKnown code) → cellGet s.lzw.dict code = some value →
    ∃ z : Lzw, exec i s = .next { s with lzw := z, ctl := .lzwNext :: s.ctl } ∧
      DataCodeTaken value s.lzw z

/-- R211, R213: a code equal to `NEXT_CODE` is taken as a data code of the value `LAST ++ <LAST[0]>`, and while the
dictionary is not full the entry inserted at that code is that very value; with `LAST` empty it is
`LZW_EMPTY_PREFIX(MCS_POS, p0)`. -/
def Obligations.KwkwkFixUp : Prop :=
  ∀ s : State,
    (s.lzw.last = [] → exec .lzwKwkwk s = .next (raise .lzwEmptyPrefix s.mcsPos s.lzw.p0 s)) ∧
    (∀ b bs, s.lzw.last = b :: bs →
      ∃ z : Lzw, exec .lzwKwkwk s = .next { s with lzw := z, ctl := .lzwNext :: s.ctl } ∧
        DataCodeTaken (s.lzw.last ++ [b]) s.lzw z ∧
        (s.lzw.nextCode ≤ 4095 → cellGet z.dict s.lzw.nextCode = some (s.lzw.last ++ [b])))

/-- R212, R213: a drifting code is `LZW_DRIFT(MCS_POS, p0)` in strict mode; in tolerant mode it sets `DRIFT_WARN` and
is taken as a data code of the value `LAST ++ <LAST[0]>`, whatever its own value, or with `LAST` empty is
`LZW_EMPTY_PREFIX(MCS_POS, p0)`. -/
def Obligations.DriftPolicy : Prop :=
  ∀ (s : State) (code : Nat),
    (s.cfg.getLsbD 0 = true →
      exec (.lzwDrift code) s = .next (raise .lzwDrift s.mcsPos s.lzw.p0 s)) ∧
    (s.cfg.getLsbD 0 = false →
      (s.lzw.last = [] →
        exec (.lzwDrift code) s = .next (raise .lzwEmptyPrefix s.mcsPos s.lzw.p0
          { s with status := { s.status with driftWarn := true } })) ∧
      (∀ b bs, s.lzw.last = b :: bs →
        ∃ z : Lzw, exec (.lzwDrift code) s = .next { s with
            lzw := z, status := { s.status with driftWarn := true }, ctl := .lzwNext :: s.ctl } ∧
          DataCodeTaken (s.lzw.last ++ [b]) s.lzw z))

/-- R42, R218: the invariants of the LZW registers hold at every fetch and classification: the start of a decode
establishes them, and each of the two steps of the decode loop, whichever row it selects, keeps them or ends the
load with a fault. -/
def Obligations.LzwInvariantsKept : Prop :=
  (∀ (s t : State) (cs : Byte), exec (.lzwInit cs) s = .next t → t.status.fault = false →
    LzwOk t.lzw) ∧
  (∀ (s t : State) (rest : List Line), running s = true → LzwOk s.lzw → step s = .next t →
    (s.ctl = .lzwNext :: rest → LzwOk t.lzw) ∧
    (s.ctl = .lzwClassify :: rest → s.lzw.code < 2 ^ s.lzw.codeLen → LzwOk t.lzw))

/-- R218 item 1: between clears `CODE_LEN` never decreases and a clear puts it back to `CODE_SIZE + 1`; R202, R206: a clear
puts `NEXT_CODE` to `EOI_CODE + 1`, which is the spec's own general knowledge (G1, log 19); and `NEXT_CODE` never exceeds 4096, whatever the code, where `EOI_CODE + 1` does not (R39, R42). -/
def Obligations.CodeLenMonotone : Prop :=
  ∀ (s t : State) (rest : List Line), running s = true → s.ctl = .lzwClassify :: rest →
    step s = .next t →
    (s.lzw.code ≠ s.lzw.clearCode → s.lzw.codeLen ≤ t.lzw.codeLen) ∧
    (s.lzw.code = s.lzw.clearCode →
      t.lzw.codeLen = s.lzw.codeSize + 1 ∧ t.lzw.nextCode = s.lzw.eoiCode + 1) ∧
    (s.lzw.code ≠ s.lzw.clearCode → s.lzw.nextCode ≤ 4096 → t.lzw.nextCode ≤ 4096) ∧
    (s.lzw.eoiCode + 1 ≤ 4096 → s.lzw.nextCode ≤ 4096 → t.lzw.nextCode ≤ 4096)

/-- R200: from the head of the decode loop, the small steps of the engine end exactly where the loop of R200, written
as one recursive function over the registers, ends: at the caller's next line with the same registers, or with the
same fault at the same bit position. -/
def Obligations.DecodeLoopRefined : Prop :=
  ∀ (s : State) (rest : List Line), running s = true → s.ctl = .lzwNext :: rest → LzwOk s.lzw →
    bitPos s.lzw ≤ 8 * s.acc.length →
    ∃ n, Reaches n s
      (match decodeLoop (strict s) s.acc (8 * s.acc.length + 1) s.lzw s.status.driftWarn with
        | .finished z drift =>
          { s with lzw := z, ctl := rest, status := { s.status with driftWarn := drift } }
        | .failed c z drift =>
          raise c s.mcsPos z.p0
            { s with lzw := z, ctl := rest, status := { s.status with driftWarn := drift } })

/-- R200 to R217 (R218 item 3 for the encoding `literalCodes`): for every code size and every sequence of indices
below `2^cs`, the decoder run on a packed encoding of it ends by EOI with exactly that sequence in `OUT`. -/
def Obligations.LiteralStreamDecodes : Prop :=
  ∀ (s : State) (rest : List Line) (cs : Byte) (indices : List Byte),
    2 ≤ cs.toNat → cs.toNat ≤ 8 → (∀ b ∈ indices, b.toNat < 2 ^ cs.toNat) →
    running s = true → s.ctl = .run .lzwRun :: rest → s.cur.minCodeSize = cs →
    s.acc = packCodes (literalCodes cs.toNat indices) →
    ∃ n t, Reaches n s t ∧ t.ctl = rest ∧ t.lzw.out = indices ∧ t.lzw.status = .eoi ∧
      t.status = s.status ∧ t.pos = s.pos ∧ t.img = s.img ∧ t.fb = s.fb

/-! ### Frame compositor (R240 to R243) -/

/-- R240, R241, R243: `CMP.FRAME(k)` selects the table, checks the placement and then visits the pixels; the local
table if present, else the global one, else `NO_COLOR_TABLE(0, k)`; a frame that sticks out of the canvas is
`FRAME_OUTSIDE_CANVAS(0, k)`, before any write. -/
def Obligations.CompositeSetUp : Prop :=
  ∀ (s : State) (k : Nat) (fr : Frame), s.img.frames[k]? = some fr →
    exec (.cmpFrame k) s = .next { s with
      ctl := .run (.cmpSelect k) :: .run (.cmpCheck k) :: .pixelLoop k 0 0 :: s.ctl } ∧
    (∀ t, lctPresent fr.flags = true → fr.lct = some t →
      exec (.cmpSelect k) s =
        .next { s with ct := t, ctLen := 2 ^ ((lctExp fr.flags).toNat + 1) }) ∧
    (∀ t, lctPresent fr.flags = false → s.img.gct = some t →
      exec (.cmpSelect k) s =
        .next { s with ct := t, ctLen := 2 ^ ((gctExp s.img.lsdFlags).toNat + 1) }) ∧
    (lctPresent fr.flags = false → s.img.gct = none →
      exec (.cmpSelect k) s = .next (raise .noColorTable 0 k s)) ∧
    exec (.cmpCheck k) s =
      if fr.left.toNat + fr.width.toNat ≤ s.img.lsdWidth.toNat ∧
          fr.top.toNat + fr.height.toNat ≤ s.img.lsdHeight.toNat then .next s
      else .next (raise .frameOutsideCanvas 0 k s)

/-- R242, R72: a pixel whose index is in the table is written as red, green, blue at
`((TOP + r) * LSD_WIDTH + (LEFT + c)) * 3`, every other byte of `FB` reading as before; an index at or beyond the
table's length is `COLOR_INDEX_RANGE(0, r * WIDTH + c)`. -/
def Obligations.PixelWritten : Prop :=
  ∀ (s : State) (k r c : Nat) (fr : Frame) (i : Byte), s.img.frames[k]? = some fr →
    fits fr s = true → r < fr.height.toNat → c < fr.width.toNat →
    fr.idx[r * fr.width.toNat + c]? = some i →
    (s.ctLen ≤ i.toNat →
      exec (.cmpPix k r c) s = .next (raise .colorIndexRange 0 (r * fr.width.toNat + c) s)) ∧
    (∀ e, i.toNat < s.ctLen → s.ct[i.toNat]? = some e →
      ∃ m : Memory, exec (.cmpPix k r c) s = .next { s with fb := m } ∧
        ∀ a, m.read a =
          let off := ((fr.top.toNat + r) * s.img.lsdWidth.toNat + (fr.left.toNat + c)) * 3
          if a = off then some e.r else if a = off + 1 then some e.g
          else if a = off + 2 then some e.b else s.fb.read a)

/-- R240, R242, R246: from the head of the pixel loops of a frame that fits, with all its indices in the table, the
engine comes to the caller's next line with every pixel of the frame's rectangle replaced by its colour and every
other byte of `FB` as before. -/
def Obligations.FrameComposited : Prop :=
  ∀ (s : State) (rest : List Line) (k : Nat) (fr : Frame),
    running s = true → s.ctl = .pixelLoop k 0 0 :: rest → s.img.frames[k]? = some fr →
    fits fr s = true → idxOk fr = true → s.ct.length = s.ctLen →
    (∀ i ∈ fr.idx, i.toNat < s.ctLen) →
    ∃ n t, Reaches n s t ∧ t.ctl = rest ∧ t.img = s.img ∧ t.status = s.status ∧
      (∀ r c i e, r < fr.height.toNat → c < fr.width.toNat →
        fr.idx[r * fr.width.toNat + c]? = some i → s.ct[i.toNat]? = some e →
        t.fb.read (pixelOffset fr r c s) = some e.r ∧
        t.fb.read (pixelOffset fr r c s + 1) = some e.g ∧
        t.fb.read (pixelOffset fr r c s + 2) = some e.b) ∧
      (∀ a, (∀ r c, r < fr.height.toNat → c < fr.width.toNat →
          a < pixelOffset fr r c s ∨ pixelOffset fr r c s + 3 ≤ a) →
        t.fb.read a = s.fb.read a)

/-! ### Host commands and faults (R260 to R296) -/

/-- R263: LOAD, accepted while idle, clears the status, the report, the result store and `POS` and starts `DEMUX`; the
line after `DEMUX` sets `RESULT_VALID` and `DONE`, clears `BUSY` and ends in `PHASE = DONE`. -/
def Obligations.LoadStartsAndEnds : Prop :=
  (∀ s : State, s.status.busy = false →
    exec .cmdLoad s = .next { s with
      status := ⟨true, false, false, false, false⟩
      faultKind := 0, faultCause := 0, faultPos := 0, faultAux := 0
      img := { s.img with frames := [], exts := [], gct := none }
      pos := 0
      ctl := [.run .demux, .endLoad] }) ∧
  (∀ (s : State) (rest : List Line), running s = true → s.ctl = .endLoad :: rest →
    step s = .next { s with
      status := { s.status with resultValid := true, done := true, busy := false }
      phase := .done, ctl := rest })

/-- R264: COMPOSITE, accepted while idle, needs a valid result and an existing frame, else `BAD_COMMAND(0, 2)`; it
clears the report and starts `CMP.FRAME(ARG)`; the line after it sets `DONE` and clears `BUSY`. The result store is
not changed. -/
def Obligations.CompositeStartsAndEnds : Prop :=
  (∀ s : State, s.status.busy = false →
    (s.status.resultValid = true ∧ s.arg < nFrames s →
      exec .cmdComposite s = .next { s with
        status := { s.status with busy := true, done := false, fault := false }
        faultKind := 0, faultCause := 0, faultPos := 0, faultAux := 0
        phase := .composite
        ctl := [.run (.cmpFrame s.arg), .endComposite] }) ∧
    (s.status.resultValid = false ∨ nFrames s ≤ s.arg →
      exec .cmdComposite s = .next (raise .badCommand 0 2 s))) ∧
  (∀ (s : State) (rest : List Line), running s = true → s.ctl = .endComposite :: rest →
    step s = .next { s with
      status := { s.status with done := true, busy := false }, phase := .done, ctl := rest })

/-- R265: RESET, at any time, puts every piece of state in its reset value and touches neither `SRC` nor `FB`; the
registers whose reset value the spec leaves unspecified take the values of `State.reset` (the model's choice, log 3,
log 14). An `FB` that a COMPOSITE fault has left to be refilled is so still (the model's choice, log 26). -/
def Obligations.ResetCommand : Prop :=
  ∀ s : State,
    exec .cmdReset s = .next { State.reset with src := s.src, fb := s.fb, fbStale := s.fbStale } ∧
    (s.cmd = 0x03 → step s = .next { State.reset with src := s.src, fb := s.fb, fbStale := s.fbStale })

/-- R261, R267: NOP has no effect on any state; a reserved code written while `BUSY = 0` raises
`BAD_COMMAND(0, code)` and has no other effect. -/
def Obligations.NopAndReserved : Prop :=
  (∀ s : State, exec .cmdNop s = .next s) ∧
  (∀ (s : State) (code : Byte), s.status.busy = false →
    exec (.cmdReserved code) s = .next (raise .badCommand 0 code.toNat s) ∧
    (4 ≤ code.toNat → s.cmd = code →
      step s = .next (raise .badCommand 0 code.toNat { s with cmd := 0 })))

/-- R22, R81, R262 (with U10): while `BUSY = 1`, or a command waits, the model gives the host no command but RESET and
no write of `ARG`, `CFG`, `SRC` or `FB`; at its turn it gives it all of them, and a write of `CMD` runs the command in
the same move. R324, U15: `FB` is supplied with exactly `LSD_WIDTH * LSD_HEIGHT * 3` bytes, an accepted COMPOSITE is
not started without such a buffer, and no byte beyond it is written. R330 item 6, R268: after a COMPOSITE fault it is
not started either until `FB` has been filled again, by another buffer or by a write of every byte; that this is how the
duty reads is the model's choice (log 26). So are the refusals by name (log 5, log 15), taking the command in the same
move (log 4), and that a write of `SRC` leaves `POS`, even beyond the new `SRC_LEN`, against the range of R27 (log 24).
-/
def Obligations.HostMovesOnlyWhenIdle : Prop :=
  ∀ (s : State) (code v : Byte) (n a : Nat) (bs : List Byte),
    (s.status.busy = true ∨ s.cmd ≠ 0 →
      (code ≠ 0x03 → hostWriteCmd code s = .refused .hostBusy) ∧
      hostWriteArg n s = .refused .hostBusy ∧ hostWriteCfg v s = .refused .hostBusy ∧
      hostWriteSrc bs s = .refused .hostBusy ∧ hostSupplyFb bs s = .refused .hostBusy ∧
      hostWriteFb a bs s = .refused .hostBusy) ∧
    hostWriteCmd 0x03 s = .next { State.reset with src := s.src, fb := s.fb, fbStale := s.fbStale } ∧
    (s.status.busy = false → s.cmd = 0 →
      (code ≠ 0x02 ∨ s.status.resultValid = false ∨ nFrames s ≤ s.arg ∨
          fbSized s = true ∧ s.fbStale = false →
        hostWriteCmd code s = exec (decodeCmd code) s) ∧
      (s.status.resultValid = true → s.arg < nFrames s → fbSized s = false →
        hostWriteCmd 0x02 s = .refused .fbLength) ∧
      (s.status.resultValid = true → s.arg < nFrames s → fbSized s = true → s.fbStale = true →
        hostWriteCmd 0x02 s = .refused .fbStale) ∧
      hostWriteArg n s = .next { s with arg := n } ∧
      (∃ w : Byte, hostWriteCfg v s = .next { s with cfg := w } ∧
        ∀ j, w.getLsbD j = (decide (j = 0) && v.getLsbD 0)) ∧
      hostWriteSrc bs s = .next { s with src := bs } ∧
      (s.status.resultValid = true ∧ bs.length = fbSize s →
        ∃ m : Memory, hostSupplyFb bs s = .next { s with fb := m, fbStale := false } ∧
          fbSized { s with fb := m } = true ∧ ∀ x, m.read x = bs[x]?) ∧
      (s.status.resultValid = false ∨ bs.length ≠ fbSize s →
        hostSupplyFb bs s = .refused .fbLength) ∧
      ((∀ i < bs.length, inFb (a + i) s = true) →
        ∃ m : Memory, hostWriteFb a bs s = .next { s with
            fb := m, fbStale := s.fbStale && !(decide (a = 0) && decide (s.fb.length ≤ bs.length)) } ∧
          ∀ x, m.read x = if a ≤ x ∧ x < a + bs.length then bs[x - a]? else s.fb.read x) ∧
      (∀ i < bs.length, inFb (a + i) s = false → hostWriteFb a bs s = .refused .outsideFb))

/-- R22 to R26, R31, R44, R81: what the host reads: `CMD` as 0 and `STATUS` bit by bit with bits 7:5 zero, at any time;
at its turn `ARG`, `CFG` with bits 7:1 zero, the four fault registers, the bytes of `FB` that exist, and, while
`RESULT_VALID = 1`, the result store; refused otherwise (log 21, log 5). R330 item 6, R268: a byte of `FB` is not read
between a COMPOSITE fault and the next filling of `FB`; that the duty reads so is the model's choice (log 26). -/
def Obligations.HostReads : Prop :=
  ∀ (s : State) (a : Nat),
    hostReadCmd s = 0 ∧
    (∀ j, (hostReadStatus s).getLsbD j = ([s.status.busy, s.status.done, s.status.fault,
      s.status.resultValid, s.status.driftWarn][j]?).getD false) ∧
    (s.status.busy = false → s.cmd = 0 →
      hostReadArg s = .ok s.arg ∧
      (∃ v, hostReadCfg s = .ok v ∧ ∀ j, v.getLsbD j = (decide (j = 0) && s.cfg.getLsbD 0)) ∧
      hostReadFault s = .ok (s.faultKind, s.faultCause, s.faultPos, s.faultAux) ∧
      (∀ b, s.fb.read a = some b → s.status.resultValid = false ∨ a < fbSize s →
        hostReadFb a s = if s.fbStale then .error .fbStale else .ok b) ∧
      (s.fb.read a = none ∨ s.status.resultValid = true ∧ fbSize s ≤ a →
        hostReadFb a s = .error .outsideFb) ∧
      (s.status.resultValid = true → hostReadResult s = .ok s.img)) ∧
    (s.status.busy = true ∨ s.cmd ≠ 0 →
      hostReadArg s = .error .hostBusy ∧ hostReadCfg s = .error .hostBusy ∧
      hostReadFault s = .error .hostBusy ∧ hostReadFb a s = .error .hostBusy) ∧
    (s.status.resultValid = false ∨ s.status.busy = true ∨ s.cmd ≠ 0 →
      hostReadResult s = .error .resultInvalid)

/-- R290, R291: what a fault records and changes: the four report registers, `FAULT`, `DONE`, `BUSY` and `PHASE`, the
pending lines dropped, `RESULT_VALID` cleared by a cause of a load and kept by the compositor's and `BAD_COMMAND`;
nothing else of the spec's. That the cause tells the two apart is deduced from R282 (log 17). A fault of COMPOSITE also
notes that the host owes `FB` a refill (R330 item 6; the model's own field, log 26). The kind and cause codes are those of
R281. A step that takes a fault answers the state it leaves (log 2); in R292's reading it is a fault with that report,
and no other step that answers a next state is one. -/
def Obligations.FaultEntry : Prop :=
  (∀ (p a : Nat) (s : State),
    let codes := fun c => ((raise c p a s).faultKind.toNat, (raise c p a s).faultCause.toNat)
    codes .badMagic = (1, 1) ∧ codes .unknownBlock = (1, 2) ∧ codes .badSeparator = (1, 3) ∧
    codes .truncated = (2, 4) ∧ codes .lzwDrift = (3, 5) ∧ codes .badCodeSize = (4, 6) ∧
    codes .lzwEmptyPrefix = (4, 7) ∧ codes .pixelCount = (4, 8) ∧ codes .noColorTable = (4, 9) ∧
    codes .frameOutsideCanvas = (4, 10) ∧ codes .colorIndexRange = (4, 11) ∧
    codes .badCommand = (4, 12)) ∧
  (∀ (s u t : State) (c : Cause) (p a : Nat), s.status.busy = true ∨ s.cmd ≠ 0 →
    (step s = .next (raise c p a u) → stepOutcome s = .fault (.reported c.kind c.code p a)) ∧
    (step s = .next t → t.status.fault = false → stepOutcome s = .next t)) ∧
  ∀ (c : Cause) (p a : Nat) (s : State),
    raise c p a s = { s with
      faultKind := c.kind, faultCause := c.code, faultPos := p, faultAux := a
      status := ⟨false, false, true,
        (raise c p a s).status.resultValid, s.status.driftWarn⟩
      phase := .faulted, ctl := []
      fbStale := s.fbStale || c == .noColorTable || c == .frameOutsideCanvas || c == .colorIndexRange ||
        (c == .badCommand && a == 2) } ∧
    (raise c p a s).status.resultValid =
      (s.status.resultValid && (c == .noColorTable || c == .frameOutsideCanvas ||
        c == .colorIndexRange || c == .badCommand))

/-! ### Whole-machine rules -/

/-- R83, R23, R24: no operation writes `SRC`, and none but RESET writes `ARG` or `CFG`, the host's registers. -/
def Obligations.HostInputsUntouched : Prop :=
  ∀ (i : Instr) (s t : State), exec i s = .next t →
    t.src = s.src ∧ (i ≠ .cmdReset → t.arg = s.arg ∧ t.cfg = s.cfg)

/-- R75, R242, R246: no operation writes a byte of `FB` but `CMP.PIX`, which writes only the three bytes of its
pixel. -/
def Obligations.OutputFrame : Prop :=
  ∀ (i : Instr) (s t : State) (a : Nat), exec i s = .next t →
    (∀ k r c fr, i = .cmpPix k r c → s.img.frames[k]? = some fr →
      a < pixelOffset fr r c s ∨ pixelOffset fr r c s + 3 ≤ a) →
    t.fb.read a = s.fb.read a

/-- R20: each component's registers are written by its own operations only (and by RESET, and at the start of LOAD).
-/
def Obligations.ComponentsSeparate : Prop :=
  ∀ (i : Instr) (s t : State), exec i s = .next t → component i ≠ .command →
    (component i ≠ .lzw → t.lzw = s.lzw) ∧
    (component i ≠ .compositor → t.row = s.row ∧ t.col = s.col ∧ t.ct = s.ct ∧ t.ctLen = s.ctLen) ∧
    (component i ≠ .subBlock → t.acc = s.acc ∧ t.sbLen = s.sbLen) ∧
    (component i ≠ .blockParser → t.cur = s.cur ∧ t.mcsPos = s.mcsPos ∧ t.curLabel = s.curLabel ∧
      t.img.frames = s.img.frames ∧ t.img.exts = s.img.exts) ∧
    (component i ≠ .demuxer → t.peeked = s.peeked ∧ t.img.version = s.img.version ∧
      t.img.lsdWidth = s.img.lsdWidth ∧ t.img.lsdHeight = s.img.lsdHeight ∧
      t.img.lsdFlags = s.img.lsdFlags ∧ t.img.bgIndex = s.img.bgIndex ∧
      t.img.aspect = s.img.aspect ∧ t.img.gct = s.img.gct) ∧
    (component i = .lzw ∨ component i = .compositor → t.pos = s.pos) ∧
    t.cmd = s.cmd

/-- R27, R145: `POS` never decreases and never passes `SRC_LEN`, whatever operation runs, but for the start of LOAD and
RESET, which set it to 0. -/
def Obligations.PosMonotone : Prop :=
  ∀ (i : Instr) (s t : State), exec i s = .next t →
    (i ≠ .cmdLoad ∧ i ≠ .cmdReset → s.pos ≤ t.pos ∧ (s.pos ≤ srcLen s → t.pos ≤ srcLen t)) ∧
    (i = .cmdLoad ∨ i = .cmdReset → t.pos = 0)

/-- R35: every stored frame has `WIDTH * HEIGHT` index bytes; every step of the engine and every move of the host
keeps it. -/
def Obligations.StoredFramesWhole : Prop :=
  ∀ (m : Option HostAct) (s t : State), move m s = .next t → (∀ f ∈ s.img.frames, idxOk f = true) →
    ∀ f ∈ t.img.frames, idxOk f = true

/-- The memory invariant: `FB` keeps its canonical form (the model's own, log 5) at every step and every move of the
host. R44, R78, U15: a buffer of `LSD_WIDTH * LSD_HEIGHT * 3` bytes keeps exactly its offsets whatever operation runs,
whatever line a step takes and whatever the host does, and a COMPOSITE the host starts with an accepted `ARG` has such a
buffer, filled since the last COMPOSITE fault. R330 item 6: an `FB` to be refilled stays so until the host supplies or
writes `FB` (log 26). -/
def Obligations.OutputCanonical : Prop :=
  (∀ (m : Option HostAct) (s t : State), move m s = .next t → s.fb.wf = true → t.fb.wf = true) ∧
  (∀ (i : Instr) (s t : State), exec i s = .next t → fbSized s = true →
    t.fb.map Prod.fst = s.fb.map Prod.fst) ∧
  (∀ (m : Option HostAct) (s t : State), move m s = .next t → fbSized s = true →
    t.fb.map Prod.fst = s.fb.map Prod.fst) ∧
  (∀ s t : State, hostWriteCmd 0x02 s = .next t → s.status.resultValid = true ∧ s.arg < nFrames s →
    fbSized t = true ∧ t.fbStale = false) ∧
  (∀ (m : Option HostAct) (s t : State), move m s = .next t → s.fbStale = true →
    (∀ bs, m ≠ some (.supplyFb bs)) → (∀ a bs, m ≠ some (.writeFb a bs)) → t.fbStale = true)

/-- R25, R26, R296: at every step of the engine and every move of the host at most one of `BUSY`, `DONE`, `FAULT` stays
1, and the report names a cause of R281 with its kind while `FAULT = 1` and is all zero while `FAULT = 0`. The write of
a command other than NOP and RESET leaves exactly one of the three 1, and from then on, in the legal states of LegalKept,
exactly one of them is, until a RESET. -/
def Obligations.ReportCoherent : Prop :=
  ∀ (m : Option HostAct) (s t : State), move m s = .next t →
    statusExclusive s.status = true → reportOk s →
    statusExclusive t.status = true ∧ reportOk t ∧
    (∀ code, m = some (.cmd code) → code ≠ 0x00 → code ≠ 0x03 → statusSet t.status = true) ∧
    (Legal s → m ≠ some (.cmd 0x03) → s.cmd ≠ 0x03 → statusSet s.status = true → statusSet t.status = true)

/-- The reset state meets the invariants. -/
def Obligations.ResetMeetsInvariants : Prop :=
  Legal State.reset ∧ State.reset.fb.wf = true ∧ statusExclusive State.reset.status = true ∧
    reportOk State.reset ∧ ∀ f ∈ State.reset.img.frames, idxOk f = true

/-- The engine's control invariant, over every legal state, every step and every move of the host: pending lines always lead from a control
point whose promises hold to the end of the command, the stored tables and frames stay whole, and between commands
`PHASE` is IDLE, DONE or FAULTED (R11, R29, R34, R35). -/
def Obligations.LegalKept : Prop :=
  ∀ (m : Option HostAct) (s t : State), Legal s → move m s = .next t → Legal t

/-- From a legal state the engine never stops: every step has a next state, unless the host has written a command
other than RESET while `BUSY = 1`, which it may not (R262). That a fault of R281 is such a next state, where R292 calls
it a fault, is the model's choice (log 2); that the model's own stops stand elsewhere at all is log 18. -/
def Obligations.EngineNeverStuck : Prop :=
  ∀ s : State, Legal s → (s.status.busy = false ∨ s.cmd = 0 ∨ s.cmd = 0x03) → ∃ t, step s = .next t

/-- R266, R333: every step of a running command either ends it or lowers the bound `work` on what is left. -/
def Obligations.WorkDecreases : Prop :=
  ∀ s t : State, Legal s → running s = true → step s = .next t →
    t.status.busy = false ∨ work t < work s

/-- R266: every command ends: from any legal running state the engine reaches, by its own steps, a state with
`BUSY = 0`, exactly one of `DONE` and `FAULT` set, and `PHASE` at DONE or FAULTED. -/
def Obligations.EveryCommandEnds : Prop :=
  ∀ s : State, Legal s → running s = true → statusExclusive s.status = true →
    ∃ n t, Reaches n s t ∧ n ≤ work s ∧ t.status.busy = false ∧ t.status.done = !t.status.fault ∧
      (t.phase = .done ∨ t.phase = .faulted)
end

