-- ==== Sys2Proof/Laws/State.lean ====
section
/-! SUPPORT. One lemma per field per shared update of the state and of the LZW registers, each true by its
definition, so that no proof unfolds an update. -/

namespace Sys2Proof.Machine

/-! ### `call` -/

@[simp] theorem call_cmd (ls : List Line) (s : State) : (call ls s).cmd = s.cmd := rfl
@[simp] theorem call_arg (ls : List Line) (s : State) : (call ls s).arg = s.arg := rfl
@[simp] theorem call_cfg (ls : List Line) (s : State) : (call ls s).cfg = s.cfg := rfl
@[simp] theorem call_status (ls : List Line) (s : State) : (call ls s).status = s.status := rfl
@[simp] theorem call_faultKind (ls : List Line) (s : State) : (call ls s).faultKind = s.faultKind := rfl
@[simp] theorem call_faultCause (ls : List Line) (s : State) : (call ls s).faultCause = s.faultCause := rfl
@[simp] theorem call_faultPos (ls : List Line) (s : State) : (call ls s).faultPos = s.faultPos := rfl
@[simp] theorem call_faultAux (ls : List Line) (s : State) : (call ls s).faultAux = s.faultAux := rfl
@[simp] theorem call_pos (ls : List Line) (s : State) : (call ls s).pos = s.pos := rfl
@[simp] theorem call_phase (ls : List Line) (s : State) : (call ls s).phase = s.phase := rfl
@[simp] theorem call_img (ls : List Line) (s : State) : (call ls s).img = s.img := rfl
@[simp] theorem call_acc (ls : List Line) (s : State) : (call ls s).acc = s.acc := rfl
@[simp] theorem call_sbLen (ls : List Line) (s : State) : (call ls s).sbLen = s.sbLen := rfl
@[simp] theorem call_cur (ls : List Line) (s : State) : (call ls s).cur = s.cur := rfl
@[simp] theorem call_mcsPos (ls : List Line) (s : State) : (call ls s).mcsPos = s.mcsPos := rfl
@[simp] theorem call_curLabel (ls : List Line) (s : State) : (call ls s).curLabel = s.curLabel := rfl
@[simp] theorem call_peeked (ls : List Line) (s : State) : (call ls s).peeked = s.peeked := rfl
@[simp] theorem call_lzw (ls : List Line) (s : State) : (call ls s).lzw = s.lzw := rfl
@[simp] theorem call_row (ls : List Line) (s : State) : (call ls s).row = s.row := rfl
@[simp] theorem call_col (ls : List Line) (s : State) : (call ls s).col = s.col := rfl
@[simp] theorem call_ct (ls : List Line) (s : State) : (call ls s).ct = s.ct := rfl
@[simp] theorem call_ctLen (ls : List Line) (s : State) : (call ls s).ctLen = s.ctLen := rfl
@[simp] theorem call_src (ls : List Line) (s : State) : (call ls s).src = s.src := rfl
@[simp] theorem call_fb (ls : List Line) (s : State) : (call ls s).fb = s.fb := rfl
@[simp] theorem call_fbStale (ls : List Line) (s : State) : (call ls s).fbStale = s.fbStale := rfl
@[simp] theorem call_ctl (ls : List Line) (s : State) :
    (call ls s).ctl = ls ++ s.ctl := rfl
@[simp] theorem call_ret (ls : List Line) (s : State) : (call ls s).ret = s.ret := rfl

/-! ### `raise` -/

@[simp] theorem raise_cmd (c : Cause) (p a : Nat) (s : State) : (raise c p a s).cmd = s.cmd := rfl
@[simp] theorem raise_arg (c : Cause) (p a : Nat) (s : State) : (raise c p a s).arg = s.arg := rfl
@[simp] theorem raise_cfg (c : Cause) (p a : Nat) (s : State) : (raise c p a s).cfg = s.cfg := rfl
@[simp] theorem raise_status_busy (c : Cause) (p a : Nat) (s : State) :
    (raise c p a s).status.busy = false := rfl
@[simp] theorem raise_status_done (c : Cause) (p a : Nat) (s : State) :
    (raise c p a s).status.done = false := rfl
@[simp] theorem raise_status_fault (c : Cause) (p a : Nat) (s : State) :
    (raise c p a s).status.fault = true := rfl
@[simp] theorem raise_status_resultValid (c : Cause) (p a : Nat) (s : State) :
    (raise c p a s).status.resultValid = (s.status.resultValid && !c.ofLoad) := rfl
@[simp] theorem raise_status_driftWarn (c : Cause) (p a : Nat) (s : State) :
    (raise c p a s).status.driftWarn = s.status.driftWarn := rfl
@[simp] theorem raise_faultKind (c : Cause) (p a : Nat) (s : State) :
    (raise c p a s).faultKind = c.kind := rfl
@[simp] theorem raise_faultCause (c : Cause) (p a : Nat) (s : State) :
    (raise c p a s).faultCause = c.code := rfl
@[simp] theorem raise_faultPos (c : Cause) (p a : Nat) (s : State) :
    (raise c p a s).faultPos = p := rfl
@[simp] theorem raise_faultAux (c : Cause) (p a : Nat) (s : State) :
    (raise c p a s).faultAux = a := rfl
@[simp] theorem raise_pos (c : Cause) (p a : Nat) (s : State) : (raise c p a s).pos = s.pos := rfl
@[simp] theorem raise_phase (c : Cause) (p a : Nat) (s : State) :
    (raise c p a s).phase = .faulted := rfl
@[simp] theorem raise_img (c : Cause) (p a : Nat) (s : State) : (raise c p a s).img = s.img := rfl
@[simp] theorem raise_acc (c : Cause) (p a : Nat) (s : State) : (raise c p a s).acc = s.acc := rfl
@[simp] theorem raise_sbLen (c : Cause) (p a : Nat) (s : State) : (raise c p a s).sbLen = s.sbLen := rfl
@[simp] theorem raise_cur (c : Cause) (p a : Nat) (s : State) : (raise c p a s).cur = s.cur := rfl
@[simp] theorem raise_mcsPos (c : Cause) (p a : Nat) (s : State) : (raise c p a s).mcsPos = s.mcsPos := rfl
@[simp] theorem raise_curLabel (c : Cause) (p a : Nat) (s : State) : (raise c p a s).curLabel = s.curLabel := rfl
@[simp] theorem raise_peeked (c : Cause) (p a : Nat) (s : State) : (raise c p a s).peeked = s.peeked := rfl
@[simp] theorem raise_lzw (c : Cause) (p a : Nat) (s : State) : (raise c p a s).lzw = s.lzw := rfl
@[simp] theorem raise_row (c : Cause) (p a : Nat) (s : State) : (raise c p a s).row = s.row := rfl
@[simp] theorem raise_col (c : Cause) (p a : Nat) (s : State) : (raise c p a s).col = s.col := rfl
@[simp] theorem raise_ct (c : Cause) (p a : Nat) (s : State) : (raise c p a s).ct = s.ct := rfl
@[simp] theorem raise_ctLen (c : Cause) (p a : Nat) (s : State) : (raise c p a s).ctLen = s.ctLen := rfl
@[simp] theorem raise_src (c : Cause) (p a : Nat) (s : State) : (raise c p a s).src = s.src := rfl
@[simp] theorem raise_fb (c : Cause) (p a : Nat) (s : State) : (raise c p a s).fb = s.fb := rfl
@[simp] theorem raise_fbStale (c : Cause) (p a : Nat) (s : State) :
    (raise c p a s).fbStale = (s.fbStale || c.ofComposite a) := rfl
@[simp] theorem raise_ctl (c : Cause) (p a : Nat) (s : State) :
    (raise c p a s).ctl = [] := rfl
@[simp] theorem raise_ret (c : Cause) (p a : Nat) (s : State) : (raise c p a s).ret = s.ret := rfl

/-! ### `clearReport` -/

@[simp] theorem clearReport_cmd (s : State) : (clearReport s).cmd = s.cmd := rfl
@[simp] theorem clearReport_arg (s : State) : (clearReport s).arg = s.arg := rfl
@[simp] theorem clearReport_cfg (s : State) : (clearReport s).cfg = s.cfg := rfl
@[simp] theorem clearReport_status_busy (s : State) :
    (clearReport s).status.busy = true := rfl
@[simp] theorem clearReport_status_done (s : State) :
    (clearReport s).status.done = false := rfl
@[simp] theorem clearReport_status_fault (s : State) :
    (clearReport s).status.fault = false := rfl
@[simp] theorem clearReport_status_resultValid (s : State) :
    (clearReport s).status.resultValid = s.status.resultValid := rfl
@[simp] theorem clearReport_status_driftWarn (s : State) :
    (clearReport s).status.driftWarn = s.status.driftWarn := rfl
@[simp] theorem clearReport_faultKind (s : State) :
    (clearReport s).faultKind = 0 := rfl
@[simp] theorem clearReport_faultCause (s : State) :
    (clearReport s).faultCause = 0 := rfl
@[simp] theorem clearReport_faultPos (s : State) :
    (clearReport s).faultPos = 0 := rfl
@[simp] theorem clearReport_faultAux (s : State) :
    (clearReport s).faultAux = 0 := rfl
@[simp] theorem clearReport_pos (s : State) : (clearReport s).pos = s.pos := rfl
@[simp] theorem clearReport_phase (s : State) : (clearReport s).phase = s.phase := rfl
@[simp] theorem clearReport_img (s : State) : (clearReport s).img = s.img := rfl
@[simp] theorem clearReport_acc (s : State) : (clearReport s).acc = s.acc := rfl
@[simp] theorem clearReport_sbLen (s : State) : (clearReport s).sbLen = s.sbLen := rfl
@[simp] theorem clearReport_cur (s : State) : (clearReport s).cur = s.cur := rfl
@[simp] theorem clearReport_mcsPos (s : State) : (clearReport s).mcsPos = s.mcsPos := rfl
@[simp] theorem clearReport_curLabel (s : State) : (clearReport s).curLabel = s.curLabel := rfl
@[simp] theorem clearReport_peeked (s : State) : (clearReport s).peeked = s.peeked := rfl
@[simp] theorem clearReport_lzw (s : State) : (clearReport s).lzw = s.lzw := rfl
@[simp] theorem clearReport_row (s : State) : (clearReport s).row = s.row := rfl
@[simp] theorem clearReport_col (s : State) : (clearReport s).col = s.col := rfl
@[simp] theorem clearReport_ct (s : State) : (clearReport s).ct = s.ct := rfl
@[simp] theorem clearReport_ctLen (s : State) : (clearReport s).ctLen = s.ctLen := rfl
@[simp] theorem clearReport_src (s : State) : (clearReport s).src = s.src := rfl
@[simp] theorem clearReport_fb (s : State) : (clearReport s).fb = s.fb := rfl
@[simp] theorem clearReport_fbStale (s : State) : (clearReport s).fbStale = s.fbStale := rfl
@[simp] theorem clearReport_ctl (s : State) : (clearReport s).ctl = s.ctl := rfl
@[simp] theorem clearReport_ret (s : State) : (clearReport s).ret = s.ret := rfl

/-! ### `complete` -/

@[simp] theorem complete_cmd (s : State) : (complete s).cmd = s.cmd := rfl
@[simp] theorem complete_arg (s : State) : (complete s).arg = s.arg := rfl
@[simp] theorem complete_cfg (s : State) : (complete s).cfg = s.cfg := rfl
@[simp] theorem complete_status_busy (s : State) :
    (complete s).status.busy = false := rfl
@[simp] theorem complete_status_done (s : State) :
    (complete s).status.done = true := rfl
@[simp] theorem complete_status_fault (s : State) :
    (complete s).status.fault = s.status.fault := rfl
@[simp] theorem complete_status_resultValid (s : State) :
    (complete s).status.resultValid = s.status.resultValid := rfl
@[simp] theorem complete_status_driftWarn (s : State) :
    (complete s).status.driftWarn = s.status.driftWarn := rfl
@[simp] theorem complete_faultKind (s : State) : (complete s).faultKind = s.faultKind := rfl
@[simp] theorem complete_faultCause (s : State) : (complete s).faultCause = s.faultCause := rfl
@[simp] theorem complete_faultPos (s : State) : (complete s).faultPos = s.faultPos := rfl
@[simp] theorem complete_faultAux (s : State) : (complete s).faultAux = s.faultAux := rfl
@[simp] theorem complete_pos (s : State) : (complete s).pos = s.pos := rfl
@[simp] theorem complete_phase (s : State) :
    (complete s).phase = .done := rfl
@[simp] theorem complete_img (s : State) : (complete s).img = s.img := rfl
@[simp] theorem complete_acc (s : State) : (complete s).acc = s.acc := rfl
@[simp] theorem complete_sbLen (s : State) : (complete s).sbLen = s.sbLen := rfl
@[simp] theorem complete_cur (s : State) : (complete s).cur = s.cur := rfl
@[simp] theorem complete_mcsPos (s : State) : (complete s).mcsPos = s.mcsPos := rfl
@[simp] theorem complete_curLabel (s : State) : (complete s).curLabel = s.curLabel := rfl
@[simp] theorem complete_peeked (s : State) : (complete s).peeked = s.peeked := rfl
@[simp] theorem complete_lzw (s : State) : (complete s).lzw = s.lzw := rfl
@[simp] theorem complete_row (s : State) : (complete s).row = s.row := rfl
@[simp] theorem complete_col (s : State) : (complete s).col = s.col := rfl
@[simp] theorem complete_ct (s : State) : (complete s).ct = s.ct := rfl
@[simp] theorem complete_ctLen (s : State) : (complete s).ctLen = s.ctLen := rfl
@[simp] theorem complete_src (s : State) : (complete s).src = s.src := rfl
@[simp] theorem complete_fb (s : State) : (complete s).fb = s.fb := rfl
@[simp] theorem complete_fbStale (s : State) : (complete s).fbStale = s.fbStale := rfl
@[simp] theorem complete_ctl (s : State) : (complete s).ctl = s.ctl := rfl
@[simp] theorem complete_ret (s : State) : (complete s).ret = s.ret := rfl

/-! ### `endLoad` -/

@[simp] theorem endLoad_cmd (s : State) : (endLoad s).cmd = s.cmd := rfl
@[simp] theorem endLoad_arg (s : State) : (endLoad s).arg = s.arg := rfl
@[simp] theorem endLoad_cfg (s : State) : (endLoad s).cfg = s.cfg := rfl
@[simp] theorem endLoad_status_busy (s : State) :
    (endLoad s).status.busy = false := rfl
@[simp] theorem endLoad_status_done (s : State) :
    (endLoad s).status.done = true := rfl
@[simp] theorem endLoad_status_fault (s : State) :
    (endLoad s).status.fault = s.status.fault := rfl
@[simp] theorem endLoad_status_resultValid (s : State) :
    (endLoad s).status.resultValid = true := rfl
@[simp] theorem endLoad_status_driftWarn (s : State) :
    (endLoad s).status.driftWarn = s.status.driftWarn := rfl
@[simp] theorem endLoad_faultKind (s : State) : (endLoad s).faultKind = s.faultKind := rfl
@[simp] theorem endLoad_faultCause (s : State) : (endLoad s).faultCause = s.faultCause := rfl
@[simp] theorem endLoad_faultPos (s : State) : (endLoad s).faultPos = s.faultPos := rfl
@[simp] theorem endLoad_faultAux (s : State) : (endLoad s).faultAux = s.faultAux := rfl
@[simp] theorem endLoad_pos (s : State) : (endLoad s).pos = s.pos := rfl
@[simp] theorem endLoad_phase (s : State) :
    (endLoad s).phase = .done := rfl
@[simp] theorem endLoad_img (s : State) : (endLoad s).img = s.img := rfl
@[simp] theorem endLoad_acc (s : State) : (endLoad s).acc = s.acc := rfl
@[simp] theorem endLoad_sbLen (s : State) : (endLoad s).sbLen = s.sbLen := rfl
@[simp] theorem endLoad_cur (s : State) : (endLoad s).cur = s.cur := rfl
@[simp] theorem endLoad_mcsPos (s : State) : (endLoad s).mcsPos = s.mcsPos := rfl
@[simp] theorem endLoad_curLabel (s : State) : (endLoad s).curLabel = s.curLabel := rfl
@[simp] theorem endLoad_peeked (s : State) : (endLoad s).peeked = s.peeked := rfl
@[simp] theorem endLoad_lzw (s : State) : (endLoad s).lzw = s.lzw := rfl
@[simp] theorem endLoad_row (s : State) : (endLoad s).row = s.row := rfl
@[simp] theorem endLoad_col (s : State) : (endLoad s).col = s.col := rfl
@[simp] theorem endLoad_ct (s : State) : (endLoad s).ct = s.ct := rfl
@[simp] theorem endLoad_ctLen (s : State) : (endLoad s).ctLen = s.ctLen := rfl
@[simp] theorem endLoad_src (s : State) : (endLoad s).src = s.src := rfl
@[simp] theorem endLoad_fb (s : State) : (endLoad s).fb = s.fb := rfl
@[simp] theorem endLoad_fbStale (s : State) : (endLoad s).fbStale = s.fbStale := rfl
@[simp] theorem endLoad_ctl (s : State) : (endLoad s).ctl = s.ctl := rfl
@[simp] theorem endLoad_ret (s : State) : (endLoad s).ret = s.ret := rfl

/-! ### `startLoad` -/

@[simp] theorem startLoad_cmd (s : State) : (startLoad s).cmd = s.cmd := rfl
@[simp] theorem startLoad_arg (s : State) : (startLoad s).arg = s.arg := rfl
@[simp] theorem startLoad_cfg (s : State) : (startLoad s).cfg = s.cfg := rfl
@[simp] theorem startLoad_status_busy (s : State) :
    (startLoad s).status.busy = true := rfl
@[simp] theorem startLoad_status_done (s : State) :
    (startLoad s).status.done = false := rfl
@[simp] theorem startLoad_status_fault (s : State) :
    (startLoad s).status.fault = false := rfl
@[simp] theorem startLoad_status_resultValid (s : State) :
    (startLoad s).status.resultValid = false := rfl
@[simp] theorem startLoad_status_driftWarn (s : State) :
    (startLoad s).status.driftWarn = false := rfl
@[simp] theorem startLoad_faultKind (s : State) :
    (startLoad s).faultKind = 0 := rfl
@[simp] theorem startLoad_faultCause (s : State) :
    (startLoad s).faultCause = 0 := rfl
@[simp] theorem startLoad_faultPos (s : State) :
    (startLoad s).faultPos = 0 := rfl
@[simp] theorem startLoad_faultAux (s : State) :
    (startLoad s).faultAux = 0 := rfl
@[simp] theorem startLoad_pos (s : State) :
    (startLoad s).pos = 0 := rfl
@[simp] theorem startLoad_phase (s : State) : (startLoad s).phase = s.phase := rfl
@[simp] theorem startLoad_img (s : State) :
    (startLoad s).img = { s.img with frames := [], exts := [], gct := none } := rfl
@[simp] theorem startLoad_acc (s : State) : (startLoad s).acc = s.acc := rfl
@[simp] theorem startLoad_sbLen (s : State) : (startLoad s).sbLen = s.sbLen := rfl
@[simp] theorem startLoad_cur (s : State) : (startLoad s).cur = s.cur := rfl
@[simp] theorem startLoad_mcsPos (s : State) : (startLoad s).mcsPos = s.mcsPos := rfl
@[simp] theorem startLoad_curLabel (s : State) : (startLoad s).curLabel = s.curLabel := rfl
@[simp] theorem startLoad_peeked (s : State) : (startLoad s).peeked = s.peeked := rfl
@[simp] theorem startLoad_lzw (s : State) : (startLoad s).lzw = s.lzw := rfl
@[simp] theorem startLoad_row (s : State) : (startLoad s).row = s.row := rfl
@[simp] theorem startLoad_col (s : State) : (startLoad s).col = s.col := rfl
@[simp] theorem startLoad_ct (s : State) : (startLoad s).ct = s.ct := rfl
@[simp] theorem startLoad_ctLen (s : State) : (startLoad s).ctLen = s.ctLen := rfl
@[simp] theorem startLoad_src (s : State) : (startLoad s).src = s.src := rfl
@[simp] theorem startLoad_fb (s : State) : (startLoad s).fb = s.fb := rfl
@[simp] theorem startLoad_fbStale (s : State) : (startLoad s).fbStale = s.fbStale := rfl
@[simp] theorem startLoad_ctl (s : State) :
    (startLoad s).ctl = [.run .demux, .endLoad] := rfl
@[simp] theorem startLoad_ret (s : State) : (startLoad s).ret = s.ret := rfl

/-! ### `startComposite` -/

@[simp] theorem startComposite_cmd (s : State) : (startComposite s).cmd = s.cmd := rfl
@[simp] theorem startComposite_arg (s : State) : (startComposite s).arg = s.arg := rfl
@[simp] theorem startComposite_cfg (s : State) : (startComposite s).cfg = s.cfg := rfl
@[simp] theorem startComposite_status_busy (s : State) :
    (startComposite s).status.busy = true := rfl
@[simp] theorem startComposite_status_done (s : State) :
    (startComposite s).status.done = false := rfl
@[simp] theorem startComposite_status_fault (s : State) :
    (startComposite s).status.fault = false := rfl
@[simp] theorem startComposite_status_resultValid (s : State) :
    (startComposite s).status.resultValid = s.status.resultValid := rfl
@[simp] theorem startComposite_status_driftWarn (s : State) :
    (startComposite s).status.driftWarn = s.status.driftWarn := rfl
@[simp] theorem startComposite_faultKind (s : State) :
    (startComposite s).faultKind = 0 := rfl
@[simp] theorem startComposite_faultCause (s : State) :
    (startComposite s).faultCause = 0 := rfl
@[simp] theorem startComposite_faultPos (s : State) :
    (startComposite s).faultPos = 0 := rfl
@[simp] theorem startComposite_faultAux (s : State) :
    (startComposite s).faultAux = 0 := rfl
@[simp] theorem startComposite_pos (s : State) : (startComposite s).pos = s.pos := rfl
@[simp] theorem startComposite_phase (s : State) :
    (startComposite s).phase = .composite := rfl
@[simp] theorem startComposite_img (s : State) : (startComposite s).img = s.img := rfl
@[simp] theorem startComposite_acc (s : State) : (startComposite s).acc = s.acc := rfl
@[simp] theorem startComposite_sbLen (s : State) : (startComposite s).sbLen = s.sbLen := rfl
@[simp] theorem startComposite_cur (s : State) : (startComposite s).cur = s.cur := rfl
@[simp] theorem startComposite_mcsPos (s : State) : (startComposite s).mcsPos = s.mcsPos := rfl
@[simp] theorem startComposite_curLabel (s : State) : (startComposite s).curLabel = s.curLabel := rfl
@[simp] theorem startComposite_peeked (s : State) : (startComposite s).peeked = s.peeked := rfl
@[simp] theorem startComposite_lzw (s : State) : (startComposite s).lzw = s.lzw := rfl
@[simp] theorem startComposite_row (s : State) : (startComposite s).row = s.row := rfl
@[simp] theorem startComposite_col (s : State) : (startComposite s).col = s.col := rfl
@[simp] theorem startComposite_ct (s : State) : (startComposite s).ct = s.ct := rfl
@[simp] theorem startComposite_ctLen (s : State) : (startComposite s).ctLen = s.ctLen := rfl
@[simp] theorem startComposite_src (s : State) : (startComposite s).src = s.src := rfl
@[simp] theorem startComposite_fb (s : State) : (startComposite s).fb = s.fb := rfl
@[simp] theorem startComposite_fbStale (s : State) : (startComposite s).fbStale = s.fbStale := rfl
@[simp] theorem startComposite_ctl (s : State) :
    (startComposite s).ctl = [.run (.cmpFrame s.arg), .endComposite] := rfl
@[simp] theorem startComposite_ret (s : State) : (startComposite s).ret = s.ret := rfl

/-! ### `storeExt` -/

@[simp] theorem storeExt_cmd (s : State) : (storeExt s).cmd = s.cmd := rfl
@[simp] theorem storeExt_arg (s : State) : (storeExt s).arg = s.arg := rfl
@[simp] theorem storeExt_cfg (s : State) : (storeExt s).cfg = s.cfg := rfl
@[simp] theorem storeExt_status (s : State) : (storeExt s).status = s.status := rfl
@[simp] theorem storeExt_faultKind (s : State) : (storeExt s).faultKind = s.faultKind := rfl
@[simp] theorem storeExt_faultCause (s : State) : (storeExt s).faultCause = s.faultCause := rfl
@[simp] theorem storeExt_faultPos (s : State) : (storeExt s).faultPos = s.faultPos := rfl
@[simp] theorem storeExt_faultAux (s : State) : (storeExt s).faultAux = s.faultAux := rfl
@[simp] theorem storeExt_pos (s : State) : (storeExt s).pos = s.pos := rfl
@[simp] theorem storeExt_phase (s : State) : (storeExt s).phase = s.phase := rfl
@[simp] theorem storeExt_img (s : State) :
    (storeExt s).img = { s.img with exts := s.img.exts ++ [⟨s.curLabel, s.acc⟩] } := rfl
@[simp] theorem storeExt_acc (s : State) : (storeExt s).acc = s.acc := rfl
@[simp] theorem storeExt_sbLen (s : State) : (storeExt s).sbLen = s.sbLen := rfl
@[simp] theorem storeExt_cur (s : State) : (storeExt s).cur = s.cur := rfl
@[simp] theorem storeExt_mcsPos (s : State) : (storeExt s).mcsPos = s.mcsPos := rfl
@[simp] theorem storeExt_curLabel (s : State) : (storeExt s).curLabel = s.curLabel := rfl
@[simp] theorem storeExt_peeked (s : State) : (storeExt s).peeked = s.peeked := rfl
@[simp] theorem storeExt_lzw (s : State) : (storeExt s).lzw = s.lzw := rfl
@[simp] theorem storeExt_row (s : State) : (storeExt s).row = s.row := rfl
@[simp] theorem storeExt_col (s : State) : (storeExt s).col = s.col := rfl
@[simp] theorem storeExt_ct (s : State) : (storeExt s).ct = s.ct := rfl
@[simp] theorem storeExt_ctLen (s : State) : (storeExt s).ctLen = s.ctLen := rfl
@[simp] theorem storeExt_src (s : State) : (storeExt s).src = s.src := rfl
@[simp] theorem storeExt_fb (s : State) : (storeExt s).fb = s.fb := rfl
@[simp] theorem storeExt_fbStale (s : State) : (storeExt s).fbStale = s.fbStale := rfl
@[simp] theorem storeExt_ctl (s : State) : (storeExt s).ctl = s.ctl := rfl
@[simp] theorem storeExt_ret (s : State) : (storeExt s).ret = s.ret := rfl

/-! ### `resetLzw` -/

@[simp] theorem resetLzw_codeSize (z : Lzw) : (resetLzw z).codeSize = z.codeSize := rfl
@[simp] theorem resetLzw_clearCode (z : Lzw) : (resetLzw z).clearCode = z.clearCode := rfl
@[simp] theorem resetLzw_eoiCode (z : Lzw) : (resetLzw z).eoiCode = z.eoiCode := rfl
@[simp] theorem resetLzw_codeLen (z : Lzw) :
    (resetLzw z).codeLen = z.codeSize + 1 := rfl
@[simp] theorem resetLzw_nextCode (z : Lzw) :
    (resetLzw z).nextCode = z.eoiCode + 1 := rfl
@[simp] theorem resetLzw_last (z : Lzw) :
    (resetLzw z).last = [] := rfl
@[simp] theorem resetLzw_dict (z : Lzw) :
    (resetLzw z).dict = seedDict z.clearCode := rfl
@[simp] theorem resetLzw_byteIdx (z : Lzw) : (resetLzw z).byteIdx = z.byteIdx := rfl
@[simp] theorem resetLzw_bitOff (z : Lzw) : (resetLzw z).bitOff = z.bitOff := rfl
@[simp] theorem resetLzw_out (z : Lzw) : (resetLzw z).out = z.out := rfl
@[simp] theorem resetLzw_runs (z : Lzw) : (resetLzw z).runs = z.runs := rfl
@[simp] theorem resetLzw_status (z : Lzw) : (resetLzw z).status = z.status := rfl
@[simp] theorem resetLzw_code (z : Lzw) : (resetLzw z).code = z.code := rfl
@[simp] theorem resetLzw_p0 (z : Lzw) : (resetLzw z).p0 = z.p0 := rfl

/-! ### `initLzw` -/

@[simp] theorem initLzw_codeSize (cs : Nat) (z : Lzw) :
    (initLzw cs z).codeSize = cs := rfl
@[simp] theorem initLzw_clearCode (cs : Nat) (z : Lzw) :
    (initLzw cs z).clearCode = 2 ^ cs := rfl
@[simp] theorem initLzw_eoiCode (cs : Nat) (z : Lzw) :
    (initLzw cs z).eoiCode = 2 ^ cs + 1 := rfl
@[simp] theorem initLzw_codeLen (cs : Nat) (z : Lzw) :
    (initLzw cs z).codeLen = cs + 1 := rfl
@[simp] theorem initLzw_nextCode (cs : Nat) (z : Lzw) :
    (initLzw cs z).nextCode = 2 ^ cs + 2 := rfl
@[simp] theorem initLzw_last (cs : Nat) (z : Lzw) :
    (initLzw cs z).last = [] := rfl
@[simp] theorem initLzw_dict (cs : Nat) (z : Lzw) :
    (initLzw cs z).dict = seedDict (2 ^ cs) := rfl
@[simp] theorem initLzw_byteIdx (cs : Nat) (z : Lzw) :
    (initLzw cs z).byteIdx = 0 := rfl
@[simp] theorem initLzw_bitOff (cs : Nat) (z : Lzw) :
    (initLzw cs z).bitOff = 0 := rfl
@[simp] theorem initLzw_out (cs : Nat) (z : Lzw) :
    (initLzw cs z).out = [] := rfl
@[simp] theorem initLzw_runs (cs : Nat) (z : Lzw) :
    (initLzw cs z).runs = [] := rfl
@[simp] theorem initLzw_status (cs : Nat) (z : Lzw) :
    (initLzw cs z).status = .running := rfl
@[simp] theorem initLzw_code (cs : Nat) (z : Lzw) : (initLzw cs z).code = z.code := rfl
@[simp] theorem initLzw_p0 (cs : Nat) (z : Lzw) : (initLzw cs z).p0 = z.p0 := rfl

/-! ### `emit` -/

@[simp] theorem emit_codeSize (v : List Byte) (z : Lzw) : (emit v z).codeSize = z.codeSize := rfl
@[simp] theorem emit_clearCode (v : List Byte) (z : Lzw) : (emit v z).clearCode = z.clearCode := rfl
@[simp] theorem emit_eoiCode (v : List Byte) (z : Lzw) : (emit v z).eoiCode = z.eoiCode := rfl
@[simp] theorem emit_codeLen (v : List Byte) (z : Lzw) : (emit v z).codeLen = z.codeLen := rfl
@[simp] theorem emit_nextCode (v : List Byte) (z : Lzw) : (emit v z).nextCode = z.nextCode := rfl
@[simp] theorem emit_last (v : List Byte) (z : Lzw) : (emit v z).last = z.last := rfl
@[simp] theorem emit_dict (v : List Byte) (z : Lzw) : (emit v z).dict = z.dict := rfl
@[simp] theorem emit_byteIdx (v : List Byte) (z : Lzw) : (emit v z).byteIdx = z.byteIdx := rfl
@[simp] theorem emit_bitOff (v : List Byte) (z : Lzw) : (emit v z).bitOff = z.bitOff := rfl
@[simp] theorem emit_out (v : List Byte) (z : Lzw) :
    (emit v z).out = z.out ++ v := rfl
@[simp] theorem emit_runs (v : List Byte) (z : Lzw) :
    (emit v z).runs = z.runs ++ [v] := rfl
@[simp] theorem emit_status (v : List Byte) (z : Lzw) : (emit v z).status = z.status := rfl
@[simp] theorem emit_code (v : List Byte) (z : Lzw) : (emit v z).code = z.code := rfl
@[simp] theorem emit_p0 (v : List Byte) (z : Lzw) : (emit v z).p0 = z.p0 := rfl

/-! ### `fetchCode` -/

@[simp] theorem fetchCode_codeSize (acc : List Byte) (z : Lzw) : (fetchCode acc z).codeSize = z.codeSize := rfl
@[simp] theorem fetchCode_clearCode (acc : List Byte) (z : Lzw) : (fetchCode acc z).clearCode = z.clearCode := rfl
@[simp] theorem fetchCode_eoiCode (acc : List Byte) (z : Lzw) : (fetchCode acc z).eoiCode = z.eoiCode := rfl
@[simp] theorem fetchCode_codeLen (acc : List Byte) (z : Lzw) : (fetchCode acc z).codeLen = z.codeLen := rfl
@[simp] theorem fetchCode_nextCode (acc : List Byte) (z : Lzw) : (fetchCode acc z).nextCode = z.nextCode := rfl
@[simp] theorem fetchCode_last (acc : List Byte) (z : Lzw) : (fetchCode acc z).last = z.last := rfl
@[simp] theorem fetchCode_dict (acc : List Byte) (z : Lzw) : (fetchCode acc z).dict = z.dict := rfl
@[simp] theorem fetchCode_byteIdx (acc : List Byte) (z : Lzw) :
    (fetchCode acc z).byteIdx = (bitPos z + z.codeLen) / 8 := rfl
@[simp] theorem fetchCode_bitOff (acc : List Byte) (z : Lzw) :
    (fetchCode acc z).bitOff = (bitPos z + z.codeLen) % 8 := rfl
@[simp] theorem fetchCode_out (acc : List Byte) (z : Lzw) : (fetchCode acc z).out = z.out := rfl
@[simp] theorem fetchCode_runs (acc : List Byte) (z : Lzw) : (fetchCode acc z).runs = z.runs := rfl
@[simp] theorem fetchCode_status (acc : List Byte) (z : Lzw) : (fetchCode acc z).status = z.status := rfl
@[simp] theorem fetchCode_code (acc : List Byte) (z : Lzw) :
    (fetchCode acc z).code = codeAt acc (bitPos z) z.codeLen := rfl
@[simp] theorem fetchCode_p0 (acc : List Byte) (z : Lzw) :
    (fetchCode acc z).p0 = bitPos z := rfl

/-! ### `growDict` -/

@[simp] theorem growDict_codeSize (v : List Byte) (z : Lzw) : (growDict v z).codeSize = z.codeSize := by unfold growDict; split <;> rfl
@[simp] theorem growDict_clearCode (v : List Byte) (z : Lzw) : (growDict v z).clearCode = z.clearCode := by unfold growDict; split <;> rfl
@[simp] theorem growDict_eoiCode (v : List Byte) (z : Lzw) : (growDict v z).eoiCode = z.eoiCode := by unfold growDict; split <;> rfl
@[simp] theorem growDict_codeLen (v : List Byte) (z : Lzw) : (growDict v z).codeLen = z.codeLen := by unfold growDict; split <;> rfl
@[simp] theorem growDict_last (v : List Byte) (z : Lzw) : (growDict v z).last = z.last := by unfold growDict; split <;> rfl
@[simp] theorem growDict_byteIdx (v : List Byte) (z : Lzw) : (growDict v z).byteIdx = z.byteIdx := by unfold growDict; split <;> rfl
@[simp] theorem growDict_bitOff (v : List Byte) (z : Lzw) : (growDict v z).bitOff = z.bitOff := by unfold growDict; split <;> rfl
@[simp] theorem growDict_out (v : List Byte) (z : Lzw) : (growDict v z).out = z.out := by unfold growDict; split <;> rfl
@[simp] theorem growDict_runs (v : List Byte) (z : Lzw) : (growDict v z).runs = z.runs := by unfold growDict; split <;> rfl
@[simp] theorem growDict_status (v : List Byte) (z : Lzw) : (growDict v z).status = z.status := by unfold growDict; split <;> rfl
@[simp] theorem growDict_code (v : List Byte) (z : Lzw) : (growDict v z).code = z.code := by unfold growDict; split <;> rfl
@[simp] theorem growDict_p0 (v : List Byte) (z : Lzw) : (growDict v z).p0 = z.p0 := by unfold growDict; split <;> rfl

/-! ### `growWidth` -/

@[simp] theorem growWidth_codeSize (z : Lzw) : (growWidth z).codeSize = z.codeSize := by unfold growWidth; split <;> rfl
@[simp] theorem growWidth_clearCode (z : Lzw) : (growWidth z).clearCode = z.clearCode := by unfold growWidth; split <;> rfl
@[simp] theorem growWidth_eoiCode (z : Lzw) : (growWidth z).eoiCode = z.eoiCode := by unfold growWidth; split <;> rfl
@[simp] theorem growWidth_nextCode (z : Lzw) : (growWidth z).nextCode = z.nextCode := by unfold growWidth; split <;> rfl
@[simp] theorem growWidth_last (z : Lzw) : (growWidth z).last = z.last := by unfold growWidth; split <;> rfl
@[simp] theorem growWidth_dict (z : Lzw) : (growWidth z).dict = z.dict := by unfold growWidth; split <;> rfl
@[simp] theorem growWidth_byteIdx (z : Lzw) : (growWidth z).byteIdx = z.byteIdx := by unfold growWidth; split <;> rfl
@[simp] theorem growWidth_bitOff (z : Lzw) : (growWidth z).bitOff = z.bitOff := by unfold growWidth; split <;> rfl
@[simp] theorem growWidth_out (z : Lzw) : (growWidth z).out = z.out := by unfold growWidth; split <;> rfl
@[simp] theorem growWidth_runs (z : Lzw) : (growWidth z).runs = z.runs := by unfold growWidth; split <;> rfl
@[simp] theorem growWidth_status (z : Lzw) : (growWidth z).status = z.status := by unfold growWidth; split <;> rfl
@[simp] theorem growWidth_code (z : Lzw) : (growWidth z).code = z.code := by unfold growWidth; split <;> rfl
@[simp] theorem growWidth_p0 (z : Lzw) : (growWidth z).p0 = z.p0 := by unfold growWidth; split <;> rfl

/-! ### `dataCode` -/

@[simp] theorem dataCode_codeSize (v : List Byte) (z : Lzw) : (dataCode v z).codeSize = z.codeSize := by simp [dataCode]
@[simp] theorem dataCode_clearCode (v : List Byte) (z : Lzw) : (dataCode v z).clearCode = z.clearCode := by simp [dataCode]
@[simp] theorem dataCode_eoiCode (v : List Byte) (z : Lzw) : (dataCode v z).eoiCode = z.eoiCode := by simp [dataCode]
@[simp] theorem dataCode_last (v : List Byte) (z : Lzw) :
    (dataCode v z).last = v := rfl
@[simp] theorem dataCode_byteIdx (v : List Byte) (z : Lzw) : (dataCode v z).byteIdx = z.byteIdx := by simp [dataCode]
@[simp] theorem dataCode_bitOff (v : List Byte) (z : Lzw) : (dataCode v z).bitOff = z.bitOff := by simp [dataCode]
@[simp] theorem dataCode_status (v : List Byte) (z : Lzw) : (dataCode v z).status = z.status := by simp [dataCode]
@[simp] theorem dataCode_code (v : List Byte) (z : Lzw) : (dataCode v z).code = z.code := by simp [dataCode]
@[simp] theorem dataCode_p0 (v : List Byte) (z : Lzw) : (dataCode v z).p0 = z.p0 := by simp [dataCode]

@[simp] theorem dataCode_out (v : List Byte) (z : Lzw) : (dataCode v z).out = z.out ++ v := by
  simp [dataCode]

@[simp] theorem dataCode_runs (v : List Byte) (z : Lzw) : (dataCode v z).runs = z.runs ++ [v] := by
  simp [dataCode]

@[simp] theorem dataCode_dict (v : List Byte) (z : Lzw) :
    (dataCode v z).dict = (growDict v z).dict := by
  simp [dataCode]

@[simp] theorem dataCode_nextCode (v : List Byte) (z : Lzw) :
    (dataCode v z).nextCode = (growDict v z).nextCode := by
  simp [dataCode]

@[simp] theorem dataCode_codeLen (v : List Byte) (z : Lzw) :
    (dataCode v z).codeLen = (growWidth (growDict v z)).codeLen := rfl

end Sys2Proof.Machine
end

