-- ==== Sys2Proof/Laws/Ops.lean ====
section
/-! SUPPORT. What the shared operations can do: cells and byte memory, the dictionary, the reads of the byte
source, the growth steps and the bit fetch. One lemma each, cited instead of unfolding the operation. -/

namespace Sys2Proof.Machine

/-! ### Cells -/

theorem cellGet_cellPut {α : Type} (m : List (Nat × α)) (a : Nat) (v : α) (b : Nat) :
    cellGet (cellPut m a v) b = if b = a then some v else cellGet m b := by
  induction m with
  | nil => by_cases h : b = a <;> simp [cellPut, cellGet, h]
  | cons x rest ih =>
    obtain ⟨k, w⟩ := x
    unfold cellPut
    split
    · rename_i h
      by_cases hb : b = a
      · simp [cellGet, hb]
      · simp only [cellGet, hb, if_false]
        split
        · have h1 : b ≠ k := by omega
          have h2 : b < k := by omega
          simp [h1, h2]
        · rfl
    · split
      · rename_i h1 h2
        subst h2
        by_cases hb : b = a <;> simp [cellGet, hb]
      · rename_i h1 h2
        simp only [cellGet, ih]
        by_cases hb : b = a
        · subst hb
          have h3 : ¬ b < k := h1
          simp [h2, h3]
        · simp [hb]

@[simp] theorem cellGet_cellPut_same {α : Type} (m : List (Nat × α)) (a : Nat) (v : α) :
    cellGet (cellPut m a v) a = some v := by simp [cellGet_cellPut]

theorem cellGet_cellPut_other {α : Type} (m : List (Nat × α)) (a : Nat) (v : α) {b : Nat}
    (h : b ≠ a) : cellGet (cellPut m a v) b = cellGet m b := by simp [cellGet_cellPut, h]

/-- A canonical list's tail is canonical, and its keys lie above the head's. -/
theorem cellWf_cons {α : Type} {x : Nat × α} {m : List (Nat × α)} :
    cellWf (x :: m) = true ↔ (∀ y ∈ m.head?, x.1 < y.1) ∧ cellWf m = true := by
  cases m with
  | nil => simp [cellWf]
  | cons y rest => simp [cellWf]

theorem cellPut_head {α : Type} (m : List (Nat × α)) (a : Nat) (v : α) :
    ∀ y ∈ (cellPut m a v).head?, y.1 = a ∨ ∃ z ∈ m.head?, y.1 = z.1 := by
  cases m with
  | nil => simp [cellPut]
  | cons x rest =>
    obtain ⟨k, w⟩ := x
    unfold cellPut
    split
    · simp
    · split <;> simp

/-- Every write keeps the canonical form. -/
theorem cellPut_wf {α : Type} (m : List (Nat × α)) (a : Nat) (v : α) (h : cellWf m = true) :
    cellWf (cellPut m a v) = true := by
  induction m with
  | nil => rfl
  | cons x rest ih =>
    obtain ⟨k, w⟩ := x
    have hx := cellWf_cons.mp h
    unfold cellPut
    split
    · rename_i hlt
      exact cellWf_cons.mpr ⟨by simpa using hlt, h⟩
    · split
      · rename_i _ heq
        subst heq
        exact cellWf_cons.mpr hx
      · rename_i h1 h2
        refine cellWf_cons.mpr ⟨?_, ih hx.2⟩
        intro y hy
        rcases cellPut_head rest a v y hy with h3 | ⟨z, hz, h3⟩
        · simp only [h3]; omega
        · rw [h3]; exact hx.1 z hz

/-- The canonical form in one relation: the keys rise strictly. -/
theorem cellWf_iff {α : Type} (m : List (Nat × α)) :
    cellWf m = true ↔ (m.map Prod.fst).Pairwise (· < ·) := by
  induction m with
  | nil => simp [cellWf]
  | cons x rest ih =>
    rw [cellWf_cons, ih, List.map_cons, List.pairwise_cons]
    refine and_congr_left fun h => ?_
    cases rest with
    | nil => simp
    | cons y rest =>
      rw [List.map_cons, List.pairwise_cons] at h
      constructor
      · intro hy a ha
        have hxy : x.1 < y.1 := hy y (by simp)
        rcases List.mem_cons.mp ha with rfl | ha
        · exact hxy
        · exact Nat.lt_trans hxy (h.1 a ha)
      · intro hy z hz
        cases hz
        exact hy y.1 (by simp)

/-- A write at a key the list holds keeps its keys. -/
theorem cellPut_keys {α : Type} (m : List (Nat × α)) (a : Nat) (v : α) (hw : cellWf m = true)
    (h : a ∈ m.map Prod.fst) : (cellPut m a v).map Prod.fst = m.map Prod.fst := by
  induction m with
  | nil => cases h
  | cons x rest ih =>
    obtain ⟨k, w⟩ := x
    have above : ∀ y ∈ rest, k < y.1 := fun y hy =>
      (List.pairwise_cons.mp ((cellWf_iff _).mp hw)).1 y.1 (List.mem_map_of_mem hy)
    unfold cellPut
    split
    · rename_i hlt
      rcases List.mem_cons.mp h with h | h
      · exact absurd h (by simpa using Nat.ne_of_lt hlt)
      · obtain ⟨y, hy, rfl⟩ := List.mem_map.mp h
        exact absurd (above y hy) (by omega)
    · split
      · rename_i _ heq
        simp [heq]
      · rename_i h1 h2
        have hr : a ∈ rest.map Prod.fst := by
          rcases List.mem_cons.mp h with h | h
          · exact absurd h h2
          · exact h
        simp [ih (cellWf_cons.mp hw).2 hr]

/-! ### Byte memory -/

theorem Memory.read_write (m : Memory) (a : Nat) (b : Byte) (x : Nat) :
    (m.write a b).read x = if x = a then some b else m.read x := cellGet_cellPut m a b x

theorem Memory.write_wf (m : Memory) (a : Nat) (b : Byte) (h : m.wf = true) :
    (m.write a b).wf = true := cellPut_wf m a b h

theorem Memory.writeBytes_wf (bs : List Byte) (m : Memory) (a : Nat) (h : m.wf = true) :
    (m.writeBytes a bs).wf = true := by
  induction bs generalizing m a with
  | nil => exact h
  | cons b rest ih => exact ih _ _ (Memory.write_wf m a b h)

/-- A write of a byte sequence: its bytes from `a` on, every other address as before. -/
theorem Memory.read_writeBytes (bs : List Byte) (m : Memory) (a x : Nat) :
    (m.writeBytes a bs).read x =
      if a ≤ x ∧ x < a + bs.length then bs[x - a]? else m.read x := by
  induction bs generalizing m a with
  | nil =>
    have h : ¬ (a ≤ x ∧ x < a + ([] : List Byte).length) := by simp
    rw [if_neg h]; rfl
  | cons b rest ih =>
    simp only [Memory.writeBytes, ih, Memory.read_write, List.length_cons]
    by_cases hx : x = a
    · subst hx; simp
    · by_cases h1 : a + 1 ≤ x ∧ x < a + 1 + rest.length
      · have h2 : a ≤ x ∧ x < a + (rest.length + 1) := by omega
        rw [if_pos h1, if_pos h2]
        obtain ⟨d, hd⟩ : ∃ d, x = a + 1 + d := ⟨x - (a + 1), by omega⟩
        subst hd
        simp [show a + 1 + d - a = d + 1 from by omega]
      · have h2 : ¬ (a ≤ x ∧ x < a + (rest.length + 1)) := by omega
        rw [if_neg h1, if_neg h2, if_neg hx]

theorem Memory.read_writeBytes_outside (bs : List Byte) (m : Memory) {a x : Nat}
    (h : ¬ (a ≤ x ∧ x < a + bs.length)) : (m.writeBytes a bs).read x = m.read x := by
  rw [Memory.read_writeBytes, if_neg h]

/-- A write of bytes at addresses the memory holds keeps its addresses. -/
theorem Memory.writeBytes_keys (bs : List Byte) (m : Memory) (a : Nat) (hw : m.wf = true)
    (h : ∀ i < bs.length, a + i ∈ m.map Prod.fst) :
    (m.writeBytes a bs).map Prod.fst = m.map Prod.fst := by
  induction bs generalizing m a with
  | nil => rfl
  | cons b rest ih =>
    have hk : (m.write a b).map Prod.fst = m.map Prod.fst :=
      cellPut_keys m a b hw (by simpa using h 0 (by simp))
    rw [Memory.writeBytes, ih (m.write a b) (a + 1) (Memory.write_wf m a b hw), hk]
    intro i hi
    rw [hk]
    have := h (i + 1) (by simpa using hi)
    rwa [show a + 1 + i = a + (i + 1) from by omega]

theorem reset_fb_wf : State.reset.fb.wf = true := rfl

/-! ### The byte source (R140 to R144) -/

theorem readByte_ok {s : State} (h : s.pos + 1 ≤ srcLen s) :
    readByte s = .ok (srcByte s s.pos) { s with pos := s.pos + 1 } := by
  simp [readByte, Nat.not_lt.mpr h]

theorem readByte_trap {s : State} (h : srcLen s < s.pos + 1) : readByte s = .trap (truncated 1 s) := by
  simp [readByte, h]

theorem peekByte_ok {s : State} (h : s.pos + 1 ≤ srcLen s) :
    peekByte s = .ok (srcByte s s.pos) s := by
  simp [peekByte, Nat.not_lt.mpr h]

theorem peekByte_trap {s : State} (h : srcLen s < s.pos + 1) : peekByte s = .trap (truncated 1 s) := by
  simp [peekByte, h]

theorem readHalf_ok {s : State} (h : s.pos + 2 ≤ srcLen s) :
    readHalf s = .ok (half (srcByte s s.pos) (srcByte s (s.pos + 1))) { s with pos := s.pos + 2 } := by
  simp [readHalf, Nat.not_lt.mpr h]

theorem readHalf_trap {s : State} (h : srcLen s < s.pos + 2) : readHalf s = .trap (truncated 2 s) := by
  simp [readHalf, h]

theorem readBytes_ok {n : Nat} {s : State} (h : s.pos + n ≤ srcLen s) :
    readBytes n s = .ok ((s.src.drop s.pos).take n) { s with pos := s.pos + n } := by
  simp [readBytes, Nat.not_lt.mpr h]

theorem readBytes_trap {n : Nat} {s : State} (h : srcLen s < s.pos + n) :
    readBytes n s = .trap (truncated n s) := by
  simp [readBytes, h]

@[simp] theorem Res.andThen_ok {α : Type} (v : α) (s : State) (f : α → State → Out) :
    (Res.ok v s).andThen f = f v s := rfl

@[simp] theorem Res.andThen_trap {α : Type} (s : State) (f : α → State → Out) :
    (Res.trap s : Res α).andThen f = .next s := rfl

/-- The byte at the end of a prefix of `SRC`. -/
theorem srcByte_append {s : State} {pre post : List Byte} {b : Byte} (h : s.src = pre ++ b :: post) :
    srcByte s pre.length = b := by
  simp [srcByte, h, List.getD]

/-- The bytes after a prefix of `SRC`. -/
theorem srcTake_append {s : State} {pre mid post : List Byte} (h : s.src = pre ++ mid ++ post) :
    (s.src.drop pre.length).take mid.length = mid := by
  simp [h, List.append_assoc]

/-! ### Field assembly -/

/-- R112: `b0 + 256 * b1`. -/
theorem half_toNat (lo hi : Byte) : (half lo hi).toNat = lo.toNat + 256 * hi.toNat := by
  unfold half
  rw [BitVec.toNat_append, Nat.shiftLeft_eq, Nat.mul_comm,
    ← Nat.two_pow_add_eq_or_of_lt lo.isLt]
  omega

theorem half_halfBytes (v : Half) : half (v.extractLsb' 0 8) (v.extractLsb' 8 8) = v := by
  apply BitVec.eq_of_toNat_eq
  rw [half_toNat]
  have h := v.isLt
  simp only [BitVec.extractLsb'_toNat, Nat.shiftRight_eq_div_pow]
  omega

/-- The low byte of a concatenation. -/
theorem byte_append_low {n : Nat} (a : BitVec n) (b : Byte) : (a ++ b).extractLsb' 0 8 = b := by
  apply BitVec.eq_of_getLsbD_eq
  intro i hi
  simp [BitVec.getLsbD_append, hi]

/-- A byte above the low byte of a concatenation. -/
theorem byte_append_high {n : Nat} (a : BitVec n) (b : Byte) (k : Nat) :
    (a ++ b).extractLsb' (k + 8) 8 = a.extractLsb' k 8 := by
  apply BitVec.eq_of_getLsbD_eq
  intro i hi
  rw [BitVec.getLsbD_extractLsb', BitVec.getLsbD_extractLsb', BitVec.getLsbD_append, if_neg (by omega),
    show k + 8 + i - 8 = k + i from by omega]

/-- The six bytes of a magic give it back, and are given back by it (R116). -/
theorem magicBytes_magicOf (x y z w u v : Byte) :
    magicBytes (magicOf x y z w u v) = [x, y, z, w, u, v] := by
  simp only [magicBytes, magicOf, byte_append_low, byte_append_high _ _ 32, byte_append_high _ _ 24,
    byte_append_high _ _ 16, byte_append_high _ _ 8, byte_append_high _ _ 0]
  have h : x.extractLsb' 0 8 = x := by simp
  rw [h]

theorem magicOf_magicBytes (m : BitVec 48) :
    magicOf (m.extractLsb' 40 8) (m.extractLsb' 32 8) (m.extractLsb' 24 8) (m.extractLsb' 16 8)
      (m.extractLsb' 8 8) (m.extractLsb' 0 8) = m := by
  apply BitVec.eq_of_toNat_eq
  have h := m.isLt
  simp only [magicOf, BitVec.toNat_append, BitVec.extractLsb'_toNat, Nat.shiftLeft_eq]
  simp only [Nat.shiftRight_eq_div_pow]
  repeat rw [Nat.mul_comm _ (2 ^ 8), ← Nat.two_pow_add_eq_or_of_lt (by omega)]
  omega

theorem tableOf_encodeTable (t : List Rgb) : tableOf (encodeTable t) = t := by
  induction t with
  | nil => rfl
  | cons e rest ih => simp [encodeTable, tableOf, ih]

theorem encodeTable_length (t : List Rgb) : (encodeTable t).length = 3 * t.length := by
  induction t with
  | nil => rfl
  | cons e rest ih => simp [encodeTable, ih]; omega

/-- A table read from `3n` bytes has `n` entries (R103). -/
theorem tableOf_length (n : Nat) (bs : List Byte) (h : bs.length = 3 * n) : (tableOf bs).length = n := by
  induction n generalizing bs with
  | zero =>
    have : bs = [] := List.eq_nil_of_length_eq_zero (by omega)
    subst this; rfl
  | succ n ih =>
    match bs, h with
    | r :: g :: b :: rest, h =>
      simp only [tableOf, List.length_cons] at *
      rw [ih rest (by omega)]
    | [], h => simp at h
    | [_], h => simp at h; omega
    | [_, _], h => simp at h; omega

/-! ### The dictionary -/

theorem cellGet_map_range (f : Nat → List Byte) (n m c : Nat) :
    cellGet ((List.range' m n).map fun i => (i, f i)) c = if m ≤ c ∧ c < m + n then some (f c) else none := by
  induction n generalizing m with
  | zero => simp [cellGet]
  | succ n ih =>
    simp only [List.range'_succ, List.map_cons, cellGet, ih]
    by_cases h1 : c = m
    · subst h1; simp
    · by_cases h2 : c < m
      · rw [if_neg h1, if_pos h2, if_neg (by omega)]
      · rw [if_neg h1, if_neg h2]
        exact if_congr (by omega) rfl rfl

/-- The seed: the literals and nothing else (R202, R40). -/
theorem cellGet_seedDict (n c : Nat) :
    cellGet (seedDict n) c = if c < n then some [BitVec.ofNat 8 c] else none := by
  have h := cellGet_map_range (fun c => [BitVec.ofNat 8 c]) n 0 c
  simpa [seedDict, List.range_eq_range'] using h

/-- Step 5 on the allocation counter (R214). -/
theorem growDict_nextCode (v : List Byte) (z : Lzw) :
    (growDict v z).nextCode =
      if z.last ≠ [] ∧ z.nextCode < 4096 then z.nextCode + 1 else z.nextCode := by
  unfold growDict
  by_cases h : z.last ≠ [] ∧ z.nextCode < Config.dictEntries
  · rw [if_pos h]; exact (if_pos h).symm
  · rw [if_neg h]; exact (if_neg h).symm

/-- Step 5 on the dictionary (R214). -/
theorem cellGet_growDict (v : List Byte) (z : Lzw) (c : Nat) :
    cellGet (growDict v z).dict c =
      if z.last ≠ [] ∧ z.nextCode < 4096 ∧ c = z.nextCode then some (z.last ++ v.take 1)
      else cellGet z.dict c := by
  unfold growDict
  by_cases h : z.last ≠ [] ∧ z.nextCode < Config.dictEntries
  · rw [if_pos h]
    simp only [cellGet_cellPut]
    exact if_congr ⟨fun hc => ⟨h.1, h.2, hc⟩, fun hc => hc.2.2⟩ rfl rfl
  · rw [if_neg h, if_neg (fun h' => h ⟨h'.1, h'.2.1⟩)]

/-- Step 6 (R215). -/
theorem growWidth_codeLen (z : Lzw) :
    (growWidth z).codeLen =
      if 2 ^ z.codeLen ≤ z.nextCode ∧ z.codeLen < 12 then z.codeLen + 1 else z.codeLen := by
  unfold growWidth
  by_cases h : 2 ^ z.codeLen ≤ z.nextCode ∧ z.codeLen < Config.maxCodeLen
  · rw [if_pos h]; exact (if_pos h).symm
  · rw [if_neg h]; exact (if_neg h).symm

/-! ### The bit fetch -/

theorem bitAt_lt (buf : List Byte) (k : Nat) : bitAt buf k < 2 := Nat.mod_lt _ (by decide)

/-- A code of width `w` is below `2^w` (R203). -/
theorem codeAt_lt (buf : List Byte) (p w : Nat) : codeAt buf p w < 2 ^ w := by
  induction w generalizing p with
  | zero => simp [codeAt]
  | succ w ih =>
    have h1 := bitAt_lt buf p
    have h2 := ih (p + 1)
    simp only [codeAt, Nat.pow_succ]
    omega

/-- The cursor moves by the width of the code (R205). -/
theorem bitPos_fetchCode (buf : List Byte) (z : Lzw) :
    bitPos (fetchCode buf z) = bitPos z + z.codeLen := by
  simp only [bitPos, fetchCode_byteIdx, fetchCode_bitOff]
  omega

end Sys2Proof.Machine
end

