-- ==== Sys2Proof/Laws/Exec.lean ====
section
/-! SUPPORT. What a step is in each situation, how runs compose, and what the shared parts of the meanings can do:
one lemma each, cited instead of unfolding. -/

namespace Sys2Proof.Machine

/-! ### One step -/

/-- An idle engine, or a value in `CMD`: the command runs and `CMD` is emptied. -/
theorem step_command {s : State} (h : s.cmd ≠ 0 ∨ s.status.busy = false) :
    step s = exec (decodeCmd s.cmd) { s with cmd := 0 } := by
  simp only [step, fetch, if_pos h]

theorem running_iff {s : State} : running s = true ↔ s.status.busy = true ∧ s.cmd = 0 := by
  simp [running]

/-- A running engine takes the first pending line off and runs it. -/
theorem step_line {s : State} {l : Line} {rest : List Line} (hr : running s = true)
    (hc : s.ctl = l :: rest) :
    step s = match fetchLine l { s with ctl := rest } with
      | .instr i t => exec i t
      | .outcome o => o := by
  obtain ⟨hb, hm⟩ := running_iff.mp hr
  simp only [step, fetch, hb, hm, hc]
  rfl

/-- A running engine without a pending line stops. -/
theorem step_nil {s : State} (hr : running s = true) (hc : s.ctl = []) :
    step s = .fault .noPendingLine := by
  obtain ⟨hb, hm⟩ := running_iff.mp hr
  simp [step, fetch, hb, hm, hc]

theorem step_run {s : State} {i : Instr} {rest : List Line} (hr : running s = true)
    (hc : s.ctl = .run i :: rest) : step s = exec i { s with ctl := rest } := by
  rw [step_line hr hc]; rfl

theorem step_decodeAt {s : State} {p : Point} {i : Instr} {rest : List Line} (hr : running s = true)
    (hc : s.ctl = .decodeAt p :: rest) (hd : decode p (bytesAt p s) = .ok i) :
    step s = exec i { s with ctl := rest } := by
  have hb : bytesAt p { s with ctl := rest } = bytesAt p s := by cases p <;> rfl
  rw [step_line hr hc]
  simp only [fetchLine, fetchAt, hb, hd]

theorem step_decodeAt_short {s : State} {p : Point} {n : Nat} {rest : List Line}
    (hr : running s = true) (hc : s.ctl = .decodeAt p :: rest)
    (hd : decode p (bytesAt p s) = .error (.short n)) :
    step s = .next (truncated n { s with ctl := rest }) := by
  have hb : bytesAt p { s with ctl := rest } = bytesAt p s := by cases p <;> rfl
  rw [step_line hr hc]
  simp only [fetchLine, fetchAt, hb, hd]

/-- A byte that is no separator is consumed, then it is `BAD_SEPARATOR` at its offset. -/
theorem step_decodeAt_badSeparator {s : State} {p : Point} {b : Byte} {rest : List Line}
    (hr : running s = true) (hc : s.ctl = .decodeAt p :: rest)
    (hd : decode p (bytesAt p s) = .error (.badSeparator b)) :
    step s = .next (raise .badSeparator s.pos b.toNat { s with ctl := rest, pos := s.pos + 1 }) := by
  have hb : bytesAt p { s with ctl := rest } = bytesAt p s := by cases p <;> rfl
  rw [step_line hr hc]
  simp only [fetchLine, fetchAt, hb, hd]

/-! ### Moves of the host -/

theorem hostTurn_iff {s : State} : hostTurn s = true ↔ s.status.busy = false ∧ s.cmd = 0 := by
  simp [hostTurn]

/-- A buffer of the right length is in canonical form. -/
theorem fbSized_wf {s : State} (h : fbSized s = true) : s.fb.wf = true :=
  (cellWf_iff s.fb).mpr (by rw [beq_iff_eq.mp h]; exact List.pairwise_lt_range)

/-- A move that the host has only at its turn. -/
theorem hostMove_eq_next {s t : State} {o : Out} :
    hostMove s o = .next t ↔ hostTurn s = true ∧ o = .next t := by
  unfold hostMove; split <;> simp [*]

/-- Everything a move of a run can do: a step of the engine, at once or with a command written, or, at the host's turn,
a write of `ARG`, `CFG`, `SRC` or `FB` that keeps the form of `FB`; only a move on `FB` touches `fbStale`. -/
theorem move_cases {m : Option HostAct} {s t : State} (h : move m s = .next t) :
    (m = none ∧ step s = .next t) ∨
    (∃ c, m = some (.cmd c) ∧ (c = 0x03 ∨ hostTurn s = true) ∧ step { s with cmd := c } = .next t) ∨
    (hostTurn s = true ∧ (∀ c, m ≠ some (.cmd c)) ∧ ∃ arg cfg src fb stale,
      t = { s with arg := arg, cfg := cfg, src := src, fb := fb, fbStale := stale } ∧
      (s.fb.wf = true → fb.wf = true) ∧
      ((∃ bs, m = some (.supplyFb bs)) ∨ (∃ a bs, m = some (.writeFb a bs)) ∨
        fb = s.fb ∧ stale = s.fbStale)) := by
  cases m with
  | none => exact .inl ⟨rfl, h⟩
  | some a =>
    cases a with
    | cmd c =>
      refine .inr (.inl ⟨c, rfl, ?_⟩)
      simp only [move, hostAct, hostWriteCmd] at h
      split at h
      · exact ⟨.inl ‹_›, h⟩
      · obtain ⟨ht, h⟩ := hostMove_eq_next.mp h
        split at h
        · cases h
        · split at h
          · cases h
          · exact ⟨.inr ht, h⟩
    | arg v | cfg v | src bs =>
      obtain ⟨ht, h⟩ := hostMove_eq_next.mp h
      cases h
      exact .inr (.inr ⟨ht, by simp, _, _, _, _, _, rfl, id, .inr (.inr ⟨rfl, rfl⟩)⟩)
    | supplyFb bs =>
      obtain ⟨ht, h⟩ := hostMove_eq_next.mp h
      split at h <;> cases h
      exact .inr (.inr ⟨ht, by simp, _, _, _, _, _, rfl, fun _ => Memory.writeBytes_wf bs _ 0 rfl,
        .inl ⟨bs, rfl⟩⟩)
    | writeFb a bs =>
      obtain ⟨ht, h⟩ := hostMove_eq_next.mp h
      split at h <;> cases h
      exact .inr (.inr ⟨ht, by simp, _, _, _, _, _, rfl, Memory.writeBytes_wf bs _ a,
        .inr (.inl ⟨a, bs, rfl⟩)⟩)

/-! ### Runs -/

theorem Reaches.refl (s : State) : Reaches 0 s s := rfl

theorem Reaches.head {n : Nat} {s t u : State} (h : step s = .next t) (hr : Reaches n t u) :
    Reaches (n + 1) s u := by
  unfold Reaches at *
  simp only [Host.Core.run, core] at *
  rw [h]; exact hr

theorem Reaches.one {s t : State} (h : step s = .next t) : Reaches 1 s t :=
  Reaches.head h (Reaches.refl t)

theorem Reaches.trans {m n : Nat} {s t u : State} (h : Reaches m s t) (h' : Reaches n t u) :
    Reaches (m + n) s u := by
  induction m generalizing s with
  | zero =>
    injection h with h
    subst h; rwa [Nat.zero_add]
  | succ m ih =>
    unfold Reaches at h
    simp only [Host.Core.run, core] at h
    cases hs : step s with
    | next v =>
      rw [hs] at h
      rw [Nat.add_right_comm]
      exact Reaches.head hs (ih h)
    | fault r => rw [hs] at h; cases h
    | refused r => rw [hs] at h; cases h

/-! ### The shared parts of the meanings -/

/-- A read that answers has its bytes in `SRC` and moves `POS` past them. -/
theorem readByte_cases (s : State) :
    (s.pos + 1 ≤ srcLen s ∧ readByte s = .ok (srcByte s s.pos) { s with pos := s.pos + 1 }) ∨
    (srcLen s < s.pos + 1 ∧ readByte s = .trap (truncated 1 s)) := by
  rcases Nat.lt_or_ge (srcLen s) (s.pos + 1) with h | h
  · exact .inr ⟨h, readByte_trap h⟩
  · exact .inl ⟨h, readByte_ok h⟩

theorem peekByte_cases (s : State) :
    (s.pos + 1 ≤ srcLen s ∧ peekByte s = .ok (srcByte s s.pos) s) ∨
    (srcLen s < s.pos + 1 ∧ peekByte s = .trap (truncated 1 s)) := by
  rcases Nat.lt_or_ge (srcLen s) (s.pos + 1) with h | h
  · exact .inr ⟨h, peekByte_trap h⟩
  · exact .inl ⟨h, peekByte_ok h⟩

theorem readHalf_cases (s : State) :
    (s.pos + 2 ≤ srcLen s ∧
      readHalf s = .ok (half (srcByte s s.pos) (srcByte s (s.pos + 1))) { s with pos := s.pos + 2 }) ∨
    (srcLen s < s.pos + 2 ∧ readHalf s = .trap (truncated 2 s)) := by
  rcases Nat.lt_or_ge (srcLen s) (s.pos + 2) with h | h
  · exact .inr ⟨h, readHalf_trap h⟩
  · exact .inl ⟨h, readHalf_ok h⟩

theorem readBytes_cases (n : Nat) (s : State) :
    (s.pos + n ≤ srcLen s ∧
      readBytes n s = .ok ((s.src.drop s.pos).take n) { s with pos := s.pos + n }) ∨
    (srcLen s < s.pos + n ∧ readBytes n s = .trap (truncated n s)) := by
  rcases Nat.lt_or_ge (srcLen s) (s.pos + n) with h | h
  · exact .inr ⟨h, readBytes_trap h⟩
  · exact .inl ⟨h, readBytes_ok h⟩

/-! ### What a read answers, taken apart -/

/-- An operation that begins with a read: the read answers and the rest runs, or the read's fault is the outcome. -/
theorem andThen_eq_next {α : Type} {r : Res α} {f : α → State → Out} {t : State} :
    r.andThen f = .next t ↔ (∃ v s, r = .ok v s ∧ f v s = .next t) ∨ r = .trap t := by
  cases r with
  | ok v s => simp
  | trap s => simp [Res.andThen]

theorem readByte_eq_ok {s t : State} {b : Byte} : readByte s = .ok b t ↔
    s.pos + 1 ≤ srcLen s ∧ b = srcByte s s.pos ∧ t = { s with pos := s.pos + 1 } := by
  rcases readByte_cases s with ⟨h, e⟩ | ⟨h, e⟩ <;> rw [e]
  · simp [h, eq_comm]
  · simp; omega

theorem readByte_eq_trap {s t : State} : readByte s = .trap t ↔
    srcLen s < s.pos + 1 ∧ t = truncated 1 s := by
  rcases readByte_cases s with ⟨h, e⟩ | ⟨h, e⟩ <;> rw [e]
  · simp; omega
  · simp [h, eq_comm]

theorem peekByte_eq_ok {s t : State} {b : Byte} : peekByte s = .ok b t ↔
    s.pos + 1 ≤ srcLen s ∧ b = srcByte s s.pos ∧ t = s := by
  rcases peekByte_cases s with ⟨h, e⟩ | ⟨h, e⟩ <;> rw [e]
  · simp [h, eq_comm]
  · simp; omega

theorem peekByte_eq_trap {s t : State} : peekByte s = .trap t ↔
    srcLen s < s.pos + 1 ∧ t = truncated 1 s := by
  rcases peekByte_cases s with ⟨h, e⟩ | ⟨h, e⟩ <;> rw [e]
  · simp; omega
  · simp [h, eq_comm]

theorem readHalf_eq_ok {s t : State} {v : Half} : readHalf s = .ok v t ↔
    s.pos + 2 ≤ srcLen s ∧ v = half (srcByte s s.pos) (srcByte s (s.pos + 1)) ∧
      t = { s with pos := s.pos + 2 } := by
  rcases readHalf_cases s with ⟨h, e⟩ | ⟨h, e⟩ <;> rw [e]
  · simp [h, eq_comm]
  · simp; omega

theorem readHalf_eq_trap {s t : State} : readHalf s = .trap t ↔
    srcLen s < s.pos + 2 ∧ t = truncated 2 s := by
  rcases readHalf_cases s with ⟨h, e⟩ | ⟨h, e⟩ <;> rw [e]
  · simp; omega
  · simp [h, eq_comm]

theorem readBytes_eq_ok {n : Nat} {s t : State} {bs : List Byte} : readBytes n s = .ok bs t ↔
    s.pos + n ≤ srcLen s ∧ bs = (s.src.drop s.pos).take n ∧ t = { s with pos := s.pos + n } := by
  rcases readBytes_cases n s with ⟨h, e⟩ | ⟨h, e⟩ <;> rw [e]
  · simp [h, eq_comm]
  · simp; omega

theorem readBytes_eq_trap {n : Nat} {s t : State} : readBytes n s = .trap t ↔
    srcLen s < s.pos + n ∧ t = truncated n s := by
  rcases readBytes_cases n s with ⟨h, e⟩ | ⟨h, e⟩ <;> rw [e]
  · simp; omega
  · simp [h, eq_comm]

/-- An operation on frame `k` runs on that frame, or stops where there is none. -/
theorem withFrame_some {k : Nat} {s : State} {f : Frame → Out} {fr : Frame}
    (h : s.img.frames[k]? = some fr) : withFrame k s f = f fr := by
  simp [withFrame, h]

theorem withFrame_next {k : Nat} {s t : State} {f : Frame → Out} (h : withFrame k s f = .next t) :
    ∃ fr, s.img.frames[k]? = some fr ∧ f fr = .next t := by
  unfold withFrame at h
  split at h
  · exact ⟨_, ‹_›, h⟩
  · cases h

theorem withFrame_eq_next {k : Nat} {s t : State} {f : Frame → Out} :
    withFrame k s f = .next t ↔ ∃ fr, s.img.frames[k]? = some fr ∧ f fr = .next t :=
  ⟨withFrame_next, fun ⟨_, h, e⟩ => by rw [withFrame_some h, e]⟩

/-- What a code with an entry does: its next state is that of the data code of the entry. -/
theorem lookUp_eq_next {code : Nat} {s t : State} : lookUp code s = .next t ↔
    ∃ value, cellGet s.lzw.dict code = some value ∧
      t = { s with lzw := dataCode value s.lzw, ctl := .lzwNext :: s.ctl } := by
  unfold lookUp
  constructor
  · intro h
    split at h
    · exact ⟨_, ‹_›, by cases h; rfl⟩
    · cases h
  · rintro ⟨v, h, rfl⟩
    rw [h]; rfl

/-- What the fix-up does: a fault with `LAST` empty, else the data code of the fix-up value. -/
theorem takeFixUp_cases (s : State) :
    (s.lzw.last = [] ∧ takeFixUp s = .next (raise .lzwEmptyPrefix s.mcsPos s.lzw.p0 s)) ∨
    (s.lzw.last ≠ [] ∧
      takeFixUp s = .next { s with lzw := dataCode (fixUp s.lzw) s.lzw, ctl := .lzwNext :: s.ctl }) := by
  unfold takeFixUp
  split
  · exact .inl ⟨‹_›, rfl⟩
  · exact .inr ⟨‹_›, rfl⟩

/-- What `CMP.SELECT` does: it takes the local table, or the global one, or faults with neither (R243). -/
theorem cmpSelect_eq_next {k : Nat} {s t : State} : execCmpSelect k s = .next t ↔
    ∃ fr, s.img.frames[k]? = some fr ∧
      ((lctPresent fr.flags = true ∧ ∃ c, fr.lct = some c ∧ t = { s with ct := c, ctLen := lctEntries fr }) ∨
       (lctPresent fr.flags = false ∧ ∃ c, s.img.gct = some c ∧
         t = { s with ct := c, ctLen := gctEntries s }) ∨
       (lctPresent fr.flags = false ∧ s.img.gct = none ∧ t = raise .noColorTable 0 k s)) := by
  simp only [execCmpSelect, withFrame_eq_next]
  refine exists_congr fun fr => and_congr_right fun _ => ?_
  cases hl : lctPresent fr.flags
  · cases s.img.gct <;> simp [eq_comm]
  · cases fr.lct <;> simp [eq_comm]

/-- What `CMP.PIX` does: a fault for an index at or beyond the table's length, else three bytes written (R242). -/
theorem cmpPix_eq_next {k r c : Nat} {s t : State} : execCmpPix k r c s = .next t ↔
    ∃ fr i, s.img.frames[k]? = some fr ∧ fr.idx[r * fr.width.toNat + c]? = some i ∧
      ((s.ctLen ≤ i.toNat ∧ t = raise .colorIndexRange 0 (r * fr.width.toNat + c) s) ∨
       (i.toNat < s.ctLen ∧ ∃ e, s.ct[i.toNat]? = some e ∧ pixelOffset fr r c s + 3 ≤ fbSize s ∧
         t = { s with fb := s.fb.writeBytes (pixelOffset fr r c s) [e.r, e.g, e.b] })) := by
  simp only [execCmpPix, withFrame_eq_next]
  refine exists_congr fun fr => ?_
  cases fr.idx[r * fr.width.toNat + c]? with
  | none => simp
  | some i =>
    by_cases hi : s.ctLen ≤ i.toNat
    · simp [hi, Nat.not_lt.mpr hi, eq_comm]
    · cases he : s.ct[i.toNat]? with
      | none => simp [hi, he]
      | some e =>
        by_cases hb : pixelOffset fr r c s + 3 ≤ fbSize s
        · simp [hi, Nat.lt_of_not_le hi, hb, he, eq_comm]
        · simp [hi, hb, he]

/-- What the head of the pixel loops does: the next pixel, the next row, or the end (R240). -/
theorem pixelLoop_eq_next {k r c : Nat} {s t : State} : pixelLoop k r c s = .next t ↔
    ∃ fr, s.img.frames[k]? = some fr ∧
      ((r < fr.height.toNat ∧ c < fr.width.toNat ∧
        t = { s with row := r, col := c, ctl := .run (.cmpPix k r c) :: .pixelLoop k r (c + 1) :: s.ctl }) ∨
       (r < fr.height.toNat ∧ ¬ c < fr.width.toNat ∧ t = { s with ctl := .pixelLoop k (r + 1) 0 :: s.ctl }) ∨
       (¬ r < fr.height.toNat ∧ t = s)) := by
  simp only [pixelLoop, withFrame_eq_next]
  refine exists_congr fun fr => and_congr_right fun _ => ?_
  by_cases hr : r < fr.height.toNat
  · by_cases hc : c < fr.width.toNat <;> simp [hr, hc, call, eq_comm]
  · simp [hr, eq_comm]

/-- A data code as the relation that the statements use. -/
theorem dataCode_taken (value : List Byte) (z : Lzw) : DataCodeTaken value z (dataCode value z) := by
  have hn : (dataCode value z).nextCode = (growDict value z).nextCode := by
    simp only [dataCode, emit, growWidth]; split <;> rfl
  have hl : (growDict value z).codeLen = z.codeLen := by simp only [growDict]; split <;> rfl
  have hd : (dataCode value z).dict = (growDict value z).dict := by
    simp only [dataCode, emit, growWidth]; split <;> rfl
  have he : z.nextCode < 4096 ↔ z.nextCode ≤ 4095 := by omega
  refine ⟨?_, ?_, ?_, fun c => ?_⟩
  · simp only [dataCode, emit, growWidth, growDict]; split <;> split <;> rfl
  · rw [hn, growDict_nextCode]; exact if_congr (and_congr_right' he) rfl rfl
  · have h2 : (dataCode value z).codeLen = (growWidth (growDict value z)).codeLen := rfl
    rw [h2, growWidth_codeLen, hl, hn]
  · rw [hd, cellGet_growDict]
    exact if_congr (and_congr_right' (and_congr_left' he)) rfl rfl

end Sys2Proof.Machine
end

