-- ==== Sys2Proof/Laws/PerInstr.lean ====
section
/-! SUPPORT. Statements made per instruction: a family's `Statement` and one lemma per constructor. -/

namespace Sys2Proof.Laws.EncodedLength

/-- How many bytes a decode point's pattern has: six at `SRC offset 0`, one elsewhere (R101 to R111, R116). -/
def patternBytes : Option Point → Nat
  | none => 0
  | some .header => 6
  | some .introducer => 1
  | some .imageByte0 => 1
  | some .label => 1
  | some .sbLength => 1
  | some .cmd => 1

/-- An operation's encoding has as many bytes as the pattern of its decode point. -/
def Statement (i : Instr) : Prop := (encode i).length = patternBytes i.point

theorem rd8 : Statement .rd8 := rfl
theorem pk8 : Statement .pk8 := rfl
theorem rd16 : Statement .rd16 := rfl
theorem rdn (n : Nat) : Statement (.rdn n) := rfl
theorem sbkRead : Statement .sbkRead := rfl
theorem sbkData (n : Byte) : Statement (.sbkData n) := rfl
theorem sbkTerm : Statement .sbkTerm := rfl
theorem demux : Statement .demux := rfl
theorem hdr87a : Statement .hdr87a := rfl
theorem hdr89a : Statement .hdr89a := rfl
theorem hdrBad (m : BitVec 48) : Statement (.hdrBad m) := rfl
theorem lsdesc : Statement .lsdesc := rfl
theorem gctRead : Statement .gctRead := rfl
theorem blkClassify : Statement .blkClassify := rfl
theorem blkImg : Statement .blkImg := rfl
theorem blkExt : Statement .blkExt := rfl
theorem blkTrl : Statement .blkTrl := rfl
theorem blkUnk (b : Byte) : Statement (.blkUnk b) := rfl
theorem imgBlock : Statement .imgBlock := rfl
theorem imgSep : Statement .imgSep := rfl
theorem imgDesc : Statement .imgDesc := rfl
theorem lctRead : Statement .lctRead := rfl
theorem imgMcs : Statement .imgMcs := rfl
theorem imgData : Statement .imgData := rfl
theorem imgDecode : Statement .imgDecode := rfl
theorem imgCommit : Statement .imgCommit := rfl
theorem extBlock : Statement .extBlock := rfl
theorem extPtx : Statement .extPtx := rfl
theorem extGce : Statement .extGce := rfl
theorem extCom : Statement .extCom := rfl
theorem extApp : Statement .extApp := rfl
theorem extOther (l : Byte) : Statement (.extOther l) := rfl
theorem lzwRun : Statement .lzwRun := rfl
theorem lzwInit (cs : Byte) : Statement (.lzwInit cs) := rfl
theorem lzwReset : Statement .lzwReset := rfl
theorem lzwFetch : Statement .lzwFetch := rfl
theorem lzwExh : Statement .lzwExh := rfl
theorem lzwClear : Statement .lzwClear := rfl
theorem lzwEoi : Statement .lzwEoi := rfl
theorem lzwLit (c : Nat) : Statement (.lzwLit c) := rfl
theorem lzwKnown (c : Nat) : Statement (.lzwKnown c) := rfl
theorem lzwKwkwk : Statement .lzwKwkwk := rfl
theorem lzwDrift (c : Nat) : Statement (.lzwDrift c) := rfl
theorem cmpFrame (k : Nat) : Statement (.cmpFrame k) := rfl
theorem cmpSelect (k : Nat) : Statement (.cmpSelect k) := rfl
theorem cmpCheck (k : Nat) : Statement (.cmpCheck k) := rfl
theorem cmpPix (k r c : Nat) : Statement (.cmpPix k r c) := rfl
theorem cmdNop : Statement .cmdNop := rfl
theorem cmdLoad : Statement .cmdLoad := rfl
theorem cmdComposite : Statement .cmdComposite := rfl
theorem cmdReset : Statement .cmdReset := rfl
theorem cmdReserved (c : Byte) : Statement (.cmdReserved c) := rfl

end Sys2Proof.Laws.EncodedLength
end

