-- ==== Sys2Proof/Tests/Slice0.lean ====
section
/-! SUPPORT. Tests: ill-formed operands refused, words written out from the spec's encodings, single steps with the
values of 95_test_vectors.md, and for every statement with hypotheses a state and operands that meet them. -/

open Sys2Proof Sys2Proof.Machine

namespace Sys2Proof.Tests

/-! ### Helpers -/

/-- The next state of an outcome. -/
def nextOf (o : Out) : Option State :=
  match o with
  | .next s => some s
  | .fault _ => none
  | .refused _ => none

/-- A running engine at offset `pos` of `src` with the given pending lines. -/
def at_ (src : List Byte) (pos : Nat) (ctl : List Line) : State :=
  { State.reset with src := src, pos := pos, ctl := ctl, status := ⟨true, false, false, false, false⟩ }

/-- The report of a state: kind, cause, position, second locator. -/
def report (s : State) : Byte × Byte × Nat × Nat := (s.faultKind, s.faultCause, s.faultPos, s.faultAux)

/-- A running engine in a decode of code size 2 with the codes of `acc`, at its start. -/
def decoding (acc : List Byte) (ctl : List Line) : State :=
  { at_ [] 0 ctl with acc := acc, lzw := initLzw 2 Lzw.reset, mcsPos := 29 }

/-- The frame of program P1. -/
def frame1 : Frame := ⟨0, 0, 2, 2, 0x00, none, 2, [0, 1, 1, 0]⟩

/-- The table of program P1. -/
def table1 : List Rgb := [⟨255, 0, 0⟩, ⟨0, 255, 0⟩]

/-- The result of program P1. -/
def image1 : GifImage := ⟨0x383961, 2, 2, 0x80, 0, 0, some table1, [frame1], []⟩

/-- An engine compositing frame 0 of program P1. -/
def compositing (ctl : List Line) : State :=
  { at_ [] 0 ctl with img := image1, ct := table1, ctLen := 2 }

/-- An idle engine that has loaded program P1, without an output buffer. -/
def loaded : State := { State.reset with img := image1, phase := .done, status := ⟨false, true, false, true, false⟩ }

/-- The same with a buffer of 2 * 2 * 3 bytes. -/
def supplied : State := { loaded with fb := Memory.writeBytes [] 0 (List.replicate 12 0x55) }

/-! ### WellFormed: an ill-formed term for each check, refused -/

theorem test_wf_sbkData : (Instr.sbkData 0).wf = false := by decide
theorem test_wf_hdrBad : (Instr.hdrBad magic87a).wf = false ∧ (Instr.hdrBad magic89a).wf = false := by decide
theorem test_wf_blkUnk : (Instr.blkUnk 0x2C).wf = false ∧ (Instr.blkUnk 0x21).wf = false ∧
    (Instr.blkUnk 0x3B).wf = false := by decide
theorem test_wf_extOther : (Instr.extOther 0x01).wf = false ∧ (Instr.extOther 0xF9).wf = false ∧
    (Instr.extOther 0xFE).wf = false ∧ (Instr.extOther 0xFF).wf = false := by decide
theorem test_wf_lzwLit : (Instr.lzwLit 256).wf = false := by decide
theorem test_wf_lzwKnown : (Instr.lzwKnown 5).wf = false ∧ (Instr.lzwKnown 4096).wf = false := by decide
theorem test_wf_lzwDrift : (Instr.lzwDrift 6).wf = false ∧ (Instr.lzwDrift 4096).wf = false := by decide
theorem test_wf_cmpPix : (Instr.cmpPix 0 65536 0).wf = false ∧ (Instr.cmpPix 0 0 65536).wf = false := by decide
theorem test_wf_cmdReserved : (Instr.cmdReserved 3).wf = false := by decide
theorem test_wf_ok : (Instr.sbkData 255).wf = true ∧ (Instr.blkUnk 0x99).wf = true ∧
    (Instr.cmdReserved 4).wf = true := by decide

/-! ### Decoding: words written out bit by bit from the tables of 30_encoding.md -/

/-- R101: `GIF87a` and `GIF89a`, bytes 0 to 5. -/
theorem test_decode_header :
    decode .header [0b01000111, 0b01001001, 0b01000110, 0b00111000, 0b00110111, 0b01100001] = .ok .hdr87a ∧
    decode .header [0b01000111, 0b01001001, 0b01000110, 0b00111000, 0b00111001, 0b01100001] = .ok .hdr89a := by
  decide

/-- V-HDR-4, V-HDR-5, V-HDR-6: all six bytes count, and case does. -/
theorem test_decode_header_bad :
    decode .header [0x67, 0x69, 0x66, 0x38, 0x39, 0x61] = .ok (.hdrBad 0x676966383961) ∧
    decode .header [0x47, 0x49, 0x46, 0x38, 0x39, 0x62] = .ok (.hdrBad 0x474946383962) ∧
    decode .header [0x47, 0x49, 0x46, 0x38] = .error (.short 6) := by decide

/-- R104, V-BLK-1. -/
theorem test_decode_introducer :
    decode .introducer [0b00101100] = .ok .blkImg ∧ decode .introducer [0b00100001] = .ok .blkExt ∧
    decode .introducer [0b00111011] = .ok .blkTrl ∧ decode .introducer [0b00101101] = .ok (.blkUnk 0x2D) ∧
    decode .introducer [0b00000000] = .ok (.blkUnk 0) := by decide

/-- R105: the separator. -/
theorem test_decode_imageByte0 : decode .imageByte0 [0b00101100] = .ok .imgSep ∧
    decode .imageByte0 [0x21] = .error (.badSeparator 0x21) := by decide

/-- R108. -/
theorem test_decode_label :
    decode .label [0b00000001] = .ok .extPtx ∧ decode .label [0b11111001] = .ok .extGce ∧
    decode .label [0b11111110] = .ok .extCom ∧ decode .label [0b11111111] = .ok .extApp ∧
    decode .label [0b01110111] = .ok (.extOther 0x77) := by decide

/-- R107. -/
theorem test_decode_sbLength :
    decode .sbLength [0b00000000] = .ok .sbkTerm ∧ decode .sbLength [0b00000011] = .ok (.sbkData 3) ∧
    decode .sbLength [0b11111111] = .ok (.sbkData 255) := by decide

/-- R111. -/
theorem test_decode_cmd :
    decode .cmd [0b00000000] = .ok .cmdNop ∧ decode .cmd [0b00000001] = .ok .cmdLoad ∧
    decode .cmd [0b00000010] = .ok .cmdComposite ∧ decode .cmd [0b00000011] = .ok .cmdReset ∧
    decode .cmd [0b00000100] = .ok (.cmdReserved 4) ∧ decode .cmd [0b11111111] = .ok (.cmdReserved 255) := by
  decide

/-- R117 at `CLEAR_CODE` 4, `EOI_CODE` 5, `NEXT_CODE` 7, each class at the ends of its range. -/
theorem test_decode_lzw :
    decodeLzw 4 5 7 4 = .lzwClear ∧ decodeLzw 4 5 7 5 = .lzwEoi ∧ decodeLzw 4 5 7 0 = .lzwLit 0 ∧
    decodeLzw 4 5 7 3 = .lzwLit 3 ∧ decodeLzw 4 5 7 6 = .lzwKnown 6 ∧ decodeLzw 4 5 7 7 = .lzwKwkwk ∧
    decodeLzw 4 5 6 7 = .lzwDrift 7 := by decide

/-- R204: exactly `CODE_LEN` bits left are enough, one fewer is not. -/
theorem test_decode_lzwNext : decodeLzwNext 3 3 = .lzwFetch ∧ decodeLzwNext 2 3 = .lzwExh := by decide

/-- V-LZW-19: extraction across three bytes. -/
theorem test_codeAt : codeAt [0xAB, 0xCD, 0xEF] 0 12 = 0xDAB ∧ codeAt [0xAB, 0xCD, 0xEF] 7 12 = 0xF9B ∧
    codeAt [0xAB, 0xCD, 0xEF] 12 12 = 0xEFC ∧ codeAt [0xAB, 0xCD, 0xEF] 3 9 = 0x1B5 ∧
    codeAt [0xE0, 0xFF, 0x01] 5 12 = 0xFFF := by decide

/-- V-LZW-5: five 9-bit codes packed. -/
theorem test_packCodes : packCodes [(256, 9), (65, 9), (66, 9), (258, 9), (257, 9)] =
    [0x00, 0x83, 0x08, 0x11, 0x18, 0x10] := by decide

/-- V-FL-1, V-FL-5: flag bytes. -/
theorem test_flags : gctPresent 0x91 = true ∧ colorRes 0x91 = 1 ∧ lsdSort 0x91 = false ∧
    tableEntries (gctExp 0x91) = 4 ∧ lctPresent 0xE3 = true ∧ interlace 0xE3 = true ∧
    imageSort 0xE3 = true ∧ tableEntries (lctExp 0xE3) = 16 := by decide

/-- The table's bit numbering: byte 0 of the stream in the low bits. -/
theorem test_decodeTableWord : decodeTableWord 48 0x613938464947 = some .hdr89a ∧
    decodeTableWord 8 0x21 = some .blkExt ∧ decodeTableWord 8 0x02 = some .cmdComposite ∧
    decodeTableWord 56 0 = some .lsdesc ∧ decodeTableWord 0 0 = none := by decide

/-- The placed instruction runs as the next step after reset. -/
theorem test_withFetchWord :
    step (State.reset.withFetchWord 8 0x2C) =
      exec .blkImg { State.reset.withFetchWord 8 0x2C with ctl := [] } ∧
    step (State.reset.withFetchWord 8 0x7F) =
      exec (.cmdReserved 0x7F) { State.reset.withFetchWord 8 0x7F with cmd := 0 } := ⟨rfl, rfl⟩

/-! ### Byte source (V-BS-1 to V-BS-13) -/

theorem test_rd8 : (nextOf (exec .rd8 (at_ [0x2C, 0x3B] 0 []))).map (fun t => (t.ret, t.pos)) =
    some (.byte 0x2C, 1) := by decide
theorem test_pk8 : (nextOf (exec .pk8 (at_ [0x2C, 0x3B] 1 []))).map (fun t => (t.ret, t.pos)) =
    some (.byte 0x3B, 1) := by decide
theorem test_rd16 : (nextOf (exec .rd16 (at_ [0x34, 0x12] 0 []))).map (fun t => (t.ret, t.pos)) =
    some (.half 4660, 2) := by decide
theorem test_rd16_short : (nextOf (exec .rd16 (at_ [0x34] 0 []))).map (fun t => (report t, t.pos)) =
    some ((2, 4, 0, 2), 0) := by decide
theorem test_rdn : (nextOf (exec (.rdn 6) (at_ [0x47, 0x49, 0x46, 0x38, 0x39, 0x61, 0x01] 0 []))).map
    (fun t => (t.ret, t.pos)) = some (.bytes [0x47, 0x49, 0x46, 0x38, 0x39, 0x61], 6) := by decide
theorem test_rdn_zero : (nextOf (exec (.rdn 0) (at_ [0xAA] 1 []))).map (fun t => (t.ret, t.pos)) =
    some (.bytes [], 1) := by decide

/-! ### Sub-block reader (V-SBK-1, V-SBK-4) -/

theorem test_sbkRead : (nextOf (exec .sbkRead { at_ [] 0 [] with acc := [1] })).map
    (fun t => (t.acc, t.ctl)) = some ([], [.decodeAt .sbLength]) := by decide
theorem test_sbkData : (nextOf (exec (.sbkData 2)
    { at_ [0x03, 0xAA, 0xBB, 0xCC, 0x02, 0xDD, 0xEE, 0x00] 4 [] with acc := [0xAA, 0xBB, 0xCC] })).map
    (fun t => (t.acc, t.sbLen, t.pos)) = some ([0xAA, 0xBB, 0xCC, 0xDD, 0xEE], 2, 7) := by decide
theorem test_sbkData_short : (nextOf (exec (.sbkData 2) (at_ [0x03, 0xAA, 0xBB, 0xCC, 0x02, 0xDD] 4 []))).map
    (fun t => (report t, t.pos)) = some ((2, 4, 5, 2), 5) := by decide
theorem test_sbkTerm : (nextOf (exec .sbkTerm (at_ [0x00, 0x3B] 0 []))).map (fun t => (t.acc, t.pos)) =
    some ([], 1) := by decide

/-! ### Demuxer (V-HDR-1 to V-HDR-6, V-LSD-1, V-BLK-1, P1, P4) -/

theorem test_demux : (nextOf (exec .demux (at_ [] 0 [.endLoad]))).map (fun t => t.ctl.length) = some 8 := by
  decide
theorem test_hdr87a : (nextOf (exec .hdr87a (at_ [0x47, 0x49, 0x46, 0x38, 0x37, 0x61] 0 []))).map
    (fun t => (t.img.version, t.pos)) = some (0x383761, 6) := by decide
theorem test_hdr89a : (nextOf (exec .hdr89a (at_ [0x47, 0x49, 0x46, 0x38, 0x39, 0x61] 0 []))).map
    (fun t => (t.img.version, t.pos)) = some (0x383961, 6) := by decide
theorem test_hdrBad : (nextOf (exec (.hdrBad 0x474946383861) (at_ [0x47, 0x49, 0x46, 0x38, 0x38, 0x61] 0 []))).map
    report = some (1, 1, 0, 0) := by decide
theorem test_hdr_short : (nextOf (step (at_ [0x47, 0x49, 0x46, 0x38] 0 [.decodeAt .header]))).map report =
    some (2, 4, 0, 6) := by decide
theorem test_lsdesc : (nextOf (exec .lsdesc (at_ [0x00, 0x01, 0xFF, 0xFF, 0x00, 0x07, 0x31] 0 []))).map
    (fun t => (t.img.lsdWidth, t.img.lsdHeight, t.img.lsdFlags, t.img.bgIndex, t.img.aspect, t.pos)) =
    some (256, 65535, 0x00, 7, 0x31, 7) := by decide
theorem test_lsdesc_short : (nextOf (exec .lsdesc (at_ [2, 0, 2] 0 []))).map
    (fun t => (report t, t.pos, t.img.lsdWidth)) = some ((2, 4, 2, 2), 2, 2) := by decide
theorem test_gctRead : (nextOf (exec .gctRead { at_ [0xFF, 0, 0, 0, 0xFF, 0] 0 [] with
    img := { image1 with gct := none } })).map (fun t => (t.img.gct, t.pos)) = some (some table1, 6) := by decide
theorem test_gctRead_absent : (nextOf (exec .gctRead { at_ [0xFF] 0 [] with
    img := { image1 with lsdFlags := 0x0F } })).map (fun t => (t.img.gct, t.pos)) = some (none, 0) := by decide
theorem test_blkClassify : (nextOf (exec .blkClassify (at_ [0x2C] 0 []))).map
    (fun t => (t.peeked, t.pos, t.ctl)) = some (0x2C, 0, [.decodeAt .introducer]) := by decide
theorem test_blkImg : (nextOf (exec .blkImg (at_ [0x2C] 0 []))).map (fun t => (t.phase, t.pos)) =
    some (.image, 0) := by decide
theorem test_blkExt : (nextOf (exec .blkExt (at_ [0x21] 0 []))).map (fun t => (t.phase, t.pos)) =
    some (.extension, 0) := by decide
theorem test_blkTrl : (nextOf (exec .blkTrl (at_ [0x3B] 0 [.endLoad]))).map (fun t => (t.ctl, t.pos)) =
    some ([.endLoad], 0) := by decide
theorem test_blkUnk : (nextOf (exec (.blkUnk 0x99) (at_ [0x99] 13 []))).map report =
    some (1, 2, 13, 0x99) := by decide

/-! ### Image block and extension parsers (V-IMG-1 to V-IMG-7, V-EXT-1) -/

theorem test_imgBlock : (nextOf (exec .imgBlock (at_ [] 0 []))).map (fun t => t.ctl.head?) =
    some (some (.run .imgSep)) := by decide
theorem test_imgSep : (nextOf (exec .imgSep (at_ [0x2C] 0 []))).map (fun t => t.pos) = some 1 := by decide
theorem test_imgSep_bad : (nextOf (exec .imgSep (at_ [0x2D] 0 []))).map report =
    some (1, 3, 0, 0x2D) := by decide
theorem test_imgDesc : (nextOf (exec .imgDesc (at_ [1, 0, 0, 2, 0x0A, 0, 0xFF, 0xFF, 0xE3] 0 []))).map
    (fun t => (t.cur.left, t.cur.top, t.cur.width, t.cur.height, t.cur.flags, t.pos)) =
    some (1, 512, 10, 65535, 0xE3, 9) := by decide
theorem test_lctRead : (nextOf (exec .lctRead { at_ [0, 0, 0, 0xFF, 0xFF, 0xFF, 0x10, 0x20, 0x30, 0x40, 0x50, 0x60]
    0 [] with cur := { frame1 with flags := 0x81 } })).map (fun t => (t.cur.lct, t.pos)) =
    some (some [⟨0, 0, 0⟩, ⟨255, 255, 255⟩, ⟨0x10, 0x20, 0x30⟩, ⟨0x40, 0x50, 0x60⟩], 12) := by decide
theorem test_imgMcs : (nextOf (exec .imgMcs (at_ [0x2C, 0x0C] 1 []))).map
    (fun t => (t.cur.minCodeSize, t.mcsPos, t.pos)) = some (12, 1, 2) := by decide
theorem test_imgData : (nextOf (exec .imgData (at_ [] 0 []))).map (fun t => t.ctl) =
    some [.run .sbkRead] := by decide
theorem test_imgDecode : (nextOf (exec .imgDecode (at_ [] 0 []))).map (fun t => t.ctl) =
    some [.run .lzwRun] := by decide
theorem test_imgCommit : (nextOf (exec .imgCommit { at_ [] 0 [] with
    cur := { frame1 with idx := [] }, lzw := { Lzw.reset with out := [0, 1, 1, 0] } })).map
    (fun t => t.img.frames) = some [frame1] := by decide
theorem test_imgCommit_count : (nextOf (exec .imgCommit { at_ [] 0 [] with
    cur := { frame1 with height := 3 }, mcsPos := 29, lzw := { Lzw.reset with out := [0, 1, 1, 0] } })).map
    (fun t => (report t, t.img.frames)) = some ((4, 8, 29, 4), []) := by decide
theorem test_extBlock : (nextOf (exec .extBlock (at_ [0x21, 0xFE] 0 []))).map (fun t => (t.ctl, t.pos)) =
    some ([.decodeAt .label], 1) := by decide
theorem test_extPtx : (nextOf (exec .extPtx (at_ [0x21, 0x01] 1 []))).map (fun t => (t.curLabel, t.pos)) =
    some (0x01, 2) := by decide
theorem test_extGce : (nextOf (exec .extGce (at_ [0x21, 0xF9] 1 []))).map (fun t => (t.curLabel, t.pos)) =
    some (0xF9, 2) := by decide
theorem test_extCom : (nextOf (exec .extCom (at_ [0x21, 0xFE] 1 []))).map (fun t => (t.curLabel, t.pos)) =
    some (0xFE, 2) := by decide
theorem test_extApp : (nextOf (exec .extApp (at_ [0x21, 0xFF] 1 []))).map (fun t => (t.curLabel, t.pos)) =
    some (0xFF, 2) := by decide
theorem test_extOther : (nextOf (exec (.extOther 0x77) (at_ [0x21, 0x77] 1 []))).map
    (fun t => (t.curLabel, t.ctl)) = some (0x77, [.run .sbkRead, .storeExt]) := by decide

/-! ### The host (R22, R25, R81, R325; U15) -/

/-- The write of LOAD starts the operation: `STATUS` reads `BUSY` alone at once, `CMD` is empty, the host has lost its
turn. -/
theorem test_host_load : (nextOf (hostWriteCmd 0x01 loaded)).map
    (fun t => (hostReadStatus t, t.cmd, hostTurn t)) = some (0x01, 0, false) := by decide
theorem test_host_cfg_after_load : ((nextOf (hostWriteCmd 0x01 loaded)).map
    fun t => (nextOf (hostWriteCfg 0x01 t)).isNone) = some true := by decide
/-- The write of RESET is over at once, and the host has its turn. -/
theorem test_host_reset : (nextOf (hostWriteCmd 0x03 (at_ [] 0 [.endLoad]))).map
    (fun t => (hostReadStatus t, hostTurn t)) = some (0x00, true) := by decide
/-- COMPOSITE needs its buffer; without a result it is `BAD_COMMAND` all the same. -/
theorem test_host_composite : (nextOf (hostWriteCmd 0x02 loaded)).isNone = true ∧
    ((nextOf (hostWriteCmd 0x02 supplied)).map hostReadStatus) = some 0x09 ∧
    ((nextOf (hostWriteCmd 0x02 State.reset)).map hostReadStatus) = some 0x04 := by decide
theorem test_host_fb : (nextOf (hostSupplyFb [1, 2] loaded)).isNone = true ∧
    (nextOf (hostWriteFb 11 [1, 2] supplied)).isNone = true ∧
    (nextOf (hostWriteFb 11 [1] supplied)).map (fun t => t.fb.read 11) = some (some 1) := by decide

/-- R330 item 6: after a COMPOSITE fault `FB` is not read or composited on until it has been filled again. -/
theorem test_host_stale :
    let s := raise .colorIndexRange 0 3 supplied
    s.fbStale = true ∧ s.fb = supplied.fb ∧ (hostReadFb 0 s).toOption = none ∧
    (nextOf (hostWriteCmd 0x02 s)).isNone = true ∧
    ((nextOf (hostWriteFb 11 [1] s)).map fun t => t.fbStale) = some true ∧
    ((nextOf (hostWriteFb 0 (List.replicate 12 1) s)).map fun t => (hostReadFb 0 t).toOption) =
      some (some 1) ∧
    ((nextOf (hostSupplyFb (List.replicate 12 2) s)).map fun t => (nextOf (hostWriteCmd 0x02 t)).isSome) =
      some true := by decide
theorem test_host_stale_kept :
    (nextOf (hostWriteCmd 0x03 (raise .noColorTable 0 0 supplied))).map (fun t => (t.fbStale, t.fb.length)) =
      some (true, 12) ∧
    (raise .badCommand 0 2 supplied).fbStale = true ∧ (raise .badCommand 0 9 supplied).fbStale = false ∧
    (raise .truncated 0 2 supplied).fbStale = false := by decide

/-! ### LZW decoder (V-LZW-0 to V-LZW-17) -/

theorem test_lzwRun : (nextOf (exec .lzwRun { at_ [] 0 [] with cur := frame1 })).map (fun t => t.ctl) =
    some [.run (.lzwInit 2), .lzwNext] := by decide
theorem test_lzwInit : (nextOf (exec (.lzwInit 2) (at_ [] 0 []))).map
    (fun t => (t.lzw.clearCode, t.lzw.codeLen, t.lzw.nextCode)) =
    some (4, 3, 6) := by decide
theorem test_lzwInit_bad : (nextOf (exec (.lzwInit 9) { at_ [] 0 [] with mcsPos := 29 })).map report =
    some (4, 6, 29, 9) := by decide
theorem test_lzwReset : (nextOf (exec .lzwReset { at_ [] 0 [] with
    lzw := { initLzw 2 Lzw.reset with codeLen := 5, nextCode := 20, last := [1] } })).map
    (fun t => (t.lzw.codeLen, t.lzw.nextCode, t.lzw.last)) = some (3, 6, []) := by decide
theorem test_lzwFetch : (nextOf (exec .lzwFetch (decoding [0x2C] []))).map
    (fun t => (t.lzw.code, t.lzw.byteIdx, t.lzw.bitOff)) = some (4, 0, 3) := by decide
theorem test_lzwExh : (nextOf (exec .lzwExh (decoding [] []))).map (fun t => t.lzw.status) =
    some .exhausted := by decide
theorem test_lzwClear : (nextOf (exec .lzwClear (decoding [0x2C] []))).map (fun t => (t.lzw.out, t.lzw.runs)) =
    some ([], [[]]) := by decide
theorem test_lzwEoi : (nextOf (exec .lzwEoi (decoding [0x2C] []))).map (fun t => t.lzw.status) =
    some .eoi := by decide
/-- V-LZW-3: the insertion that makes `NEXT_CODE` 8 widens the code. -/
theorem test_lzwLit : (nextOf (exec (.lzwLit 1) { decoding [] [] with
    lzw := { initLzw 2 Lzw.reset with nextCode := 7, last := [1] } })).map
    (fun t => (t.lzw.nextCode, t.lzw.codeLen, t.lzw.last, cellGet t.lzw.dict 7)) =
    some (8, 4, [1], some [1, 1]) := by decide
/-- R219: code 6 with `DICT[6] = 01 01` and `LAST = 01 01`. -/
theorem test_lzwKnown : (nextOf (exec (.lzwKnown 6) { decoding [] [] with
    lzw := { initLzw 2 Lzw.reset with dict := cellPut (seedDict 4) 6 [1, 1], nextCode := 7, last := [1, 1] } })).map
    (fun t => (t.lzw.out, cellGet t.lzw.dict 7)) = some ([1, 1], some [1, 1, 1]) := by decide
/-- V-LZW-15. -/
theorem test_lzwKwkwk : (nextOf (exec .lzwKwkwk { decoding [] [] with
    lzw := { initLzw 2 Lzw.reset with last := [1] } })).map
    (fun t => (t.lzw.out, cellGet t.lzw.dict 6, t.lzw.nextCode)) = some ([1, 1], some [1, 1], 7) := by decide
/-- V-LZW-17. -/
theorem test_lzwKwkwk_empty : (nextOf (exec .lzwKwkwk { decoding [] [] with
    lzw := { initLzw 2 Lzw.reset with p0 := 3 } })).map report = some (4, 7, 29, 3) := by decide
/-- V-LZW-16, tolerant: inserted at 6, not at 7. -/
theorem test_lzwDrift : (nextOf (exec (.lzwDrift 7) { decoding [] [] with
    lzw := { initLzw 2 Lzw.reset with last := [0] } })).map
    (fun t => (t.lzw.out, cellGet t.lzw.dict 6, cellGet t.lzw.dict 7, t.status.driftWarn)) =
    some ([0, 0], some [0, 0], none, true) := by decide
/-- V-LZW-16, strict. -/
theorem test_lzwDrift_strict : (nextOf (exec (.lzwDrift 7) { decoding [] [] with
    cfg := 1, lzw := { initLzw 2 Lzw.reset with last := [0], p0 := 6 } })).map report =
    some (3, 5, 29, 6) := by decide

/-! ### Compositor (V-CMP-1 to V-CMP-5) -/

theorem test_cmpFrame : (nextOf (exec (.cmpFrame 0) (compositing []))).map (fun t => t.ctl) =
    some [.run (.cmpSelect 0), .run (.cmpCheck 0), .pixelLoop 0 0 0] := by decide
theorem test_cmpSelect : (nextOf (exec (.cmpSelect 0) { compositing [] with ct := [], ctLen := 0 })).map
    (fun t => (t.ct, t.ctLen)) = some (table1, 2) := by decide
theorem test_cmpSelect_none : (nextOf (exec (.cmpSelect 0) { compositing [] with
    img := { image1 with gct := none } })).map report = some (4, 9, 0, 0) := by decide
theorem test_cmpCheck : (nextOf (exec (.cmpCheck 0) (compositing []))).map (fun t => t.status.fault) =
    some false := by decide
theorem test_cmpCheck_outside : (nextOf (exec (.cmpCheck 0) { compositing [] with
    img := { image1 with frames := [{ frame1 with left := 1 }] } })).map report = some (4, 10, 0, 0) := by decide
/-- The example of R242. -/
theorem test_cmpPix : (nextOf (exec (.cmpPix 0 0 1) { compositing [] with
    ct := [⟨0, 0, 0⟩, ⟨0, 0, 0⟩, ⟨0x10, 0x20, 0x30⟩], ctLen := 3
    img := { image1 with lsdWidth := 4, lsdHeight := 4,
                         frames := [⟨1, 1, 2, 2, 0, none, 2, [0, 2, 1, 0]⟩] } })).map (fun t => t.fb) =
    some [(18, 0x10), (19, 0x20), (20, 0x30)] := by decide
theorem test_cmpPix_range : (nextOf (exec (.cmpPix 0 1 0) { compositing [] with
    img := { image1 with frames := [{ frame1 with idx := [0, 1, 2, 0] }] } })).map (fun t => (report t, t.fb)) =
    some ((4, 11, 0, 2), []) := by decide

/-! ### Commands (V-CMD-1 to V-CMD-11) -/

theorem test_cmdNop : (nextOf (step State.reset)) = some State.reset := by decide
theorem test_cmdLoad : (nextOf (step { State.reset with cmd := 1, pos := 7 })).map
    (fun t => (t.status.byte, t.pos, t.cmd)) = some (0x01, 0, 0) := by decide
theorem test_cmdComposite_bad : (nextOf (step { State.reset with cmd := 2 })).map
    (fun t => (t.status.byte, report t)) = some (0x04, 4, 12, 0, 2) := by decide
theorem test_cmdComposite : (nextOf (step { State.reset with
    cmd := 2, img := image1, status := ⟨false, true, false, true, false⟩ })).map
    (fun t => (t.status.byte, t.phase, t.ctl)) =
    some (0x09, .composite, [.run (.cmpFrame 0), .endComposite]) := by decide
theorem test_cmdReset : (nextOf (step { at_ [0x3B] 1 [.endLoad] with cmd := 3, cfg := 1 })) =
    some { State.reset with src := [0x3B] } := by decide
theorem test_cmdReserved : (nextOf (step { State.reset with cmd := 0x7F })).map
    (fun t => (t.status.byte, report t)) = some (0x04, 4, 12, 0, 0x7F) := by decide
/-- V-DMX-1: the end of a load, status `0x0A`. -/
theorem test_endLoad : (nextOf (step (at_ [0x3B] 0 [.endLoad]))).map (fun t => (t.status.byte, t.phase)) =
    some (0x0A, .done) := by decide

/-! ### Witnesses: for every statement with hypotheses, a state and operands that meet them all -/

/-- `PackedCodeReadBack`, and `DecodeOfEncode`, `EncodeOfDecode`: an operation of each decode point. -/
theorem witness_encoding : (4 : Nat) < 2 ^ 3 ∧
    (Instr.hdrBad 0).wf = true ∧ (Instr.hdrBad 0).point = some .header ∧
    (Instr.blkUnk 0).wf = true ∧ (Instr.blkUnk 0).point = some .introducer ∧
    Instr.imgSep.wf = true ∧ Instr.imgSep.point = some .imageByte0 ∧
    (Instr.extOther 0).wf = true ∧ (Instr.extOther 0).point = some .label ∧
    (Instr.sbkData 1).wf = true ∧ (Instr.sbkData 1).point = some .sbLength ∧
    (Instr.cmdReserved 255).wf = true ∧ (Instr.cmdReserved 255).point = some .cmd ∧
    decode .cmd [4, 5] = .ok (.cmdReserved 4) := by decide

/-- `LzwClassesPartition`: a full dictionary, and a width that leaves no drift. -/
theorem witness_LzwClassesPartition :
    ((4 : Nat) + 1 < 4096 ∧ (12 : Nat) ≤ 12 ∧ (4095 : Nat) < 2 ^ 12) ∧
    ((4 : Nat) + 1 < 7 ∧ (3 : Nat) ≤ 12 ∧ (7 : Nat) < 2 ^ 3 ∧ 2 ^ 3 ≤ 7 + 1) := by decide

/-- `CodeExtraction`: three bytes, the widest code at the last bit offset that fits. -/
theorem witness_CodeExtraction : (7 : Nat) < 8 ∧ (12 : Nat) ≤ 12 ∧
    8 * 0 + 7 + 12 ≤ 8 * ([0xAB, 0xCD, 0xEF] : List Byte).length := by decide

/-- `StepRunsFetched`: a command in `CMD` of a busy engine, an idle engine, each kind of line. -/
theorem witness_StepRunsFetched :
    (({ at_ [] 0 [] with cmd := 3 } : State).cmd ≠ 0) ∧ State.reset.status.busy = false ∧
    running (at_ [0x2C] 0 [.run .imgSep]) = true ∧
    running (at_ [] 0 [.lzwNext]) = true ∧ running (at_ [] 0 [.lzwClassify]) = true ∧
    decode .label (bytesAt .label (at_ [0x21, 0xFE] 1 [.decodeAt .label])) = .ok .extCom ∧
    decode .sbLength (bytesAt .sbLength (at_ [0x21] 1 [.decodeAt .sbLength])) = .error (.short 1) ∧
    decode .imageByte0 (bytesAt .imageByte0 (at_ [0x2D] 0 [.decodeAt .imageByte0])) =
      .error (.badSeparator 0x2D) := by decide

/-- `IdleEngineWaits`. -/
theorem witness_IdleEngineWaits : State.reset.status.busy = false ∧ State.reset.cmd = 0 := by decide

/-- `ReadsReturnAndConsume`: at the start, in the middle and up to the last byte of `SRC`. -/
theorem witness_ReadsReturnAndConsume :
    (at_ [0x2C, 0x3B] 1 []).pos = ([0x2C] : List Byte).length ∧
    (at_ [0x2C, 0x3B] 1 []).src = [0x2C] ++ 0x3B :: [] ∧
    (at_ [0x34, 0x12] 0 []).src = [] ++ 0x34 :: 0x12 :: [] ∧
    (at_ [0x34, 0x12] 0 []).src = [] ++ [0x34, 0x12] ++ [] := by decide

/-- `ShortReadsTrap`: one byte short for each primitive. -/
theorem witness_ShortReadsTrap :
    srcLen (at_ [0x2C] 1 []) < (at_ [0x2C] 1 []).pos + 1 ∧
    srcLen (at_ [0x2C] 0 []) < (at_ [0x2C] 0 []).pos + 2 ∧
    srcLen (at_ [0x2C] 0 []) < (at_ [0x2C] 0 []).pos + 6 := by decide

/-- `SubBlockSteps`: a payload, one short of it, the terminator, and a missing length byte. -/
theorem witness_SubBlockSteps :
    (at_ [0x00, 0x02, 0xAA, 0xBB] 1 []).pos = ([0x00] : List Byte).length ∧
    (at_ [0x00, 0x02, 0xAA, 0xBB] 1 []).src = [0x00] ++ 0x02 :: ([0xAA, 0xBB] ++ []) ∧
    ([0xAA, 0xBB] : List Byte).length = (0x02 : Byte).toNat ∧
    (at_ [0x02, 0xAA] 0 []).pos < srcLen (at_ [0x02, 0xAA] 0 []) ∧
    srcLen (at_ [0x02, 0xAA] 0 []) < (at_ [0x02, 0xAA] 0 []).pos + 1 + (0x02 : Byte).toNat ∧
    running (at_ [0x02] 1 [.decodeAt .sbLength]) = true ∧
    srcLen (at_ [0x02] 1 [.decodeAt .sbLength]) ≤ (at_ [0x02] 1 [.decodeAt .sbLength]).pos := by decide

/-- `SubBlocksReassembled`: the stream of R154. -/
theorem witness_SubBlocksReassembled :
    running (at_ [0x03, 0xAA, 0xBB, 0xCC, 0x02, 0xDD, 0xEE, 0x00, 0x3B] 0 [.run .sbkRead, .storeExt]) = true ∧
    (at_ [0x03, 0xAA, 0xBB, 0xCC, 0x02, 0xDD, 0xEE, 0x00, 0x3B] 0 []).src =
      [] ++ encodeSubBlocks [[0xAA, 0xBB, 0xCC], [0xDD, 0xEE]] ++ [0x3B] ∧
    ∀ b ∈ ([[0xAA, 0xBB, 0xCC], [0xDD, 0xEE]] : List (List Byte)), 1 ≤ b.length ∧ b.length ≤ 255 := by decide

/-- `DemuxOrder`. -/
theorem witness_DemuxOrder : running (at_ [] 0 [.setPhase .lsd]) = true ∧
    running (at_ [] 0 [.blockLoop, .endLoad]) = true := by decide

/-- `HeaderStep`: five bytes, and six of each kind. -/
theorem witness_HeaderStep :
    running (at_ [1, 2, 3, 4, 5] 0 [.decodeAt .header]) = true ∧
    srcLen (at_ [1, 2, 3, 4, 5] 0 [.decodeAt .header]) < (at_ [1, 2, 3, 4, 5] 0 [.decodeAt .header]).pos + 6 ∧
    (at_ [1, 2, 3, 4, 5, 6] 0 []).src = [] ++ [1, 2, 3, 4, 5, 6] ++ [] ∧
    (at_ [1, 2, 3, 4, 5, 6] 0 []).pos + 6 ≤ srcLen (at_ [1, 2, 3, 4, 5, 6] 0 []) := by decide

/-- `LsdescFields`, `ImageDescFields`: the descriptors at odd offsets. -/
theorem witness_descriptors :
    (at_ [9, 0x0A, 0, 0xFF, 0xFF, 0x91, 1, 2] 1 []).src =
      [9] ++ encodeLsd 10 65535 0x91 1 2 ++ [] ∧
    (at_ [9, 1, 0, 0, 2, 0x0A, 0, 0xFF, 0xFF, 0xE3] 1 []).src =
      [9] ++ encodeImageDesc 1 512 10 65535 0xE3 ++ [] := by decide

/-- `ImageDescFields`: cut short with nothing left, in the middle of `TOP`, and before the flags (V-TRUNC-5). -/
theorem witness_ImageDescFields :
    (at_ [0x2C] 1 []).src = [0x2C] ++ [] ∧ ([] : List Byte).length < 9 ∧
    (at_ [0x2C, 1, 0, 2] 1 []).src = [0x2C] ++ [1, 0, 2] ∧ ([1, 0, 2] : List Byte).length < 9 ∧
    ([1, 0, 2, 0, 3, 0, 4, 0] : List Byte).length < 9 := by decide

/-- `LsdescCutShort`: nothing left, and one byte short. -/
theorem witness_LsdescCutShort :
    ((0 : Nat) < 7 ∧ (at_ [] 0 []).pos + 0 = srcLen (at_ [] 0 [])) ∧
    ((6 : Nat) < 7 ∧ (at_ [1, 2, 3, 4, 5, 6] 0 []).pos + 6 = srcLen (at_ [1, 2, 3, 4, 5, 6] 0 [])) := by decide

/-- `GctReadTable`: exponent 0 with the flag and its table, one byte short of it, and without the flag. -/
theorem witness_GctReadTable :
    gctPresent image1.lsdFlags = true ∧
    (at_ [0xFF, 0, 0, 0, 0xFF, 0] 0 []).src = [] ++ encodeTable table1 ++ [] ∧
    table1.length = 2 ^ ((gctExp image1.lsdFlags).toNat + 1) ∧
    srcLen (at_ [0xFF, 0, 0, 0, 0xFF] 0 []) < 0 + 3 * 2 ^ ((gctExp image1.lsdFlags).toNat + 1) ∧
    gctPresent 0x0F = false := by decide

/-- `LctReadTable`: the same for a local table. -/
theorem witness_LctReadTable : lctPresent 0x80 = true ∧
    table1.length = 2 ^ ((lctExp 0x80).toNat + 1) ∧
    srcLen (at_ [0xFF, 0, 0, 0, 0xFF] 0 []) < 0 + 3 * 2 ^ ((lctExp 0x80).toNat + 1) ∧
    lctPresent 0x18 = false := by decide

/-- `BlockClassified`, `BlockOperations`, `ExtensionSteps`: a byte left, and none. -/
theorem witness_introducer :
    running (at_ [0x99] 0 [.run .blkClassify, .endLoad]) = true ∧
    (at_ [0x99] 0 []).src = [] ++ 0x99 :: [] ∧
    (at_ [0x99] 0 []).pos < srcLen (at_ [0x99] 0 []) ∧
    srcLen (at_ [0x99] 1 [.run .blkClassify]) ≤ (at_ [0x99] 1 [.run .blkClassify]).pos ∧
    running (at_ [0x21] 1 [.decodeAt .label]) = true ∧
    srcLen (at_ [0x21] 1 [.decodeAt .label]) ≤ (at_ [0x21] 1 [.decodeAt .label]).pos := by decide

/-- `SeparatorAndCodeSize`: a byte left, and none. -/
theorem witness_SeparatorAndCodeSize : (at_ [0x2C] 0 []).pos = ([] : List Byte).length ∧
    (at_ [0x2C] 0 []).src = [] ++ 0x2C :: [] ∧
    srcLen (at_ [0x2C] 1 []) ≤ (at_ [0x2C] 1 []).pos := by decide

/-- `FrameCommitted`: the right number of bytes, a wrong one, and a frame without pixels. -/
theorem witness_FrameCommitted :
    ([0, 1, 1, 0] : List Byte).length = frame1.width.toNat * frame1.height.toNat ∧
    ([0, 1, 1] : List Byte).length ≠ frame1.width.toNat * frame1.height.toNat ∧
    ([] : List Byte).length = (0 : Half).toNat * (5 : Half).toNat := by decide

/-- `ExtensionStored`: a comment at offset 0. -/
theorem witness_ExtensionStored :
    running (at_ [0x21, 0xFE, 0x02, 0x68, 0x69, 0x00] 0 [.run .extBlock, .blockLoop]) = true ∧
    (at_ [0x21, 0xFE, 0x02, 0x68, 0x69, 0x00] 0 []).src =
      [] ++ 0x21 :: 0xFE :: (encodeSubBlocks [[0x68, 0x69]] ++ []) := by decide

/-- `DecodeStarts`: the ends of the admitted range and of the two beyond it. -/
theorem witness_DecodeStarts : 2 ≤ (2 : Byte).toNat ∧ (2 : Byte).toNat ≤ 8 ∧ 2 ≤ (8 : Byte).toNat ∧
    (8 : Byte).toNat ≤ 8 ∧ (1 : Byte).toNat < 2 ∧ 8 < (9 : Byte).toNat := by decide

/-- `FetchTakesCode`, `DecodeEnds`: exactly `CODE_LEN` bits left, and one fewer. -/
theorem witness_fetch :
    bitPos { initLzw 2 Lzw.reset with bitOff := 5 } + 3 ≤ 8 * ([0x2C] : List Byte).length ∧
    running (decoding [0x2C] [.lzwNext]) = true ∧
    bitsLeft { decoding [0x2C] [.lzwNext] with lzw := { initLzw 2 Lzw.reset with bitOff := 6 } } <
      ({ initLzw 2 Lzw.reset with bitOff := 6 } : Lzw).codeLen := by decide

/-- `EntryEmitted`: a literal of the seed, with `LAST` empty. -/
theorem witness_EntryEmitted : cellGet (decoding [] []).lzw.dict 3 = some [3] := by decide

/-- `KwkwkFixUp`, `DriftPolicy`: `LAST` empty and not, both policies. -/
theorem witness_fixUp : (decoding [] []).lzw.last = [] ∧
    ({ initLzw 2 Lzw.reset with last := [1] } : Lzw).last = 1 :: [] ∧
    (initLzw 2 Lzw.reset).nextCode ≤ 4095 ∧
    (decoding [] []).cfg.getLsbD 0 = false ∧ (1 : Byte).getLsbD 0 = true := by decide

/-- The registers at the start of a decode of code size 2 meet the invariants. -/
theorem witness_LzwOk : LzwOk (initLzw 2 Lzw.reset) := by
  refine ⟨by decide, rfl, rfl, by decide, by decide, by decide, fun c => ?_, rfl, by decide, by decide, rfl,
    by decide, by decide⟩
  have h : cellGet (initLzw 2 Lzw.reset).dict c = if c < 4 then some [BitVec.ofNat 8 c] else none :=
    cellGet_seedDict 4 c
  rw [h]
  by_cases hc : c < 4
  · rw [if_pos hc]; exact .inl ⟨hc, rfl⟩
  · rw [if_neg hc]
    exact ⟨Nat.not_lt.mp hc, by show c ≤ 5 ∨ 6 ≤ c; omega⟩

/-- `LzwInvariantsKept`, `CodeLenMonotone`, `DecodeLoopRefined`: a decode at its loop head and at a fetched code. -/
theorem witness_decode :
    running (decoding [0x2C] [.lzwNext]) = true ∧ LzwOk (decoding [0x2C] [.lzwNext]).lzw ∧
    bitPos (decoding [0x2C] [.lzwNext]).lzw ≤ 8 * (decoding [0x2C] [.lzwNext]).acc.length ∧
    running (decoding [0x2C] [.lzwClassify]) = true ∧ LzwOk (decoding [0x2C] [.lzwClassify]).lzw ∧
    (decoding [0x2C] [.lzwClassify]).lzw.code < 2 ^ (decoding [0x2C] [.lzwClassify]).lzw.codeLen ∧
    (nextOf (step (decoding [0x2C] [.lzwNext]))).isSome = true ∧
    (nextOf (step (decoding [0x2C] [.lzwClassify]))).isSome = true :=
  ⟨by decide, witness_LzwOk, by decide, by decide, witness_LzwOk, by decide, by decide, by decide⟩

/-- `CodeLenMonotone`: a data code and the clear code, in a decode whose `EOI_CODE` is 5. -/
theorem witness_CodeLenMonotone :
    let s : Nat → State := fun c =>
      { decoding [] [.lzwClassify] with lzw := { initLzw 2 Lzw.reset with code := c, codeLen := 5, nextCode := 20 } }
    running (s 1) = true ∧ (s 1).lzw.code ≠ (s 1).lzw.clearCode ∧ (nextOf (step (s 1))).isSome = true ∧
    running (s 4) = true ∧ (s 4).lzw.code = (s 4).lzw.clearCode ∧ (nextOf (step (s 4))).isSome = true ∧
    (s 4).lzw.eoiCode + 1 ≤ 4096 ∧ (s 4).lzw.nextCode ≤ 4096 := by decide

/-- A byte that is no separator is consumed before it is compared (R181). -/
theorem test_badSeparator_line :
    (nextOf (step (at_ [0x2C, 0x2D] 1 [.decodeAt .imageByte0]))).map (fun t => (report t, t.pos)) =
      some ((1, 3, 1, 0x2D), 2) := by decide

/-- `LiteralStreamDecodes`: the indices of the greatest admitted value, and the code 4, 3, 4, 0, 5 that packs them. -/
theorem witness_LiteralStreamDecodes :
    (∀ b ∈ ([3, 0] : List Byte), b.toNat < 2 ^ (2 : Byte).toNat) ∧
    running { at_ [] 0 [.run .lzwRun] with cur := frame1, acc := [0x1C, 0x51] } = true ∧
    frame1.minCodeSize = 2 ∧ packCodes (literalCodes 2 [3, 0]) = [0x1C, 0x51] := by decide

/-- `CompositeSetUp`: frame 0 of P1, with each way to a table and none. -/
theorem witness_CompositeSetUp :
    (compositing []).img.frames[0]? = some frame1 ∧ lctPresent frame1.flags = false ∧
    (compositing []).img.gct = some table1 ∧ lctPresent 0x80 = true ∧
    ({ frame1 with flags := 0x80, lct := some table1 } : Frame).lct = some table1 := by decide

/-- `PixelWritten`, `FrameComposited`: the last pixel of P1's frame; an index at the table's length. -/
theorem witness_pixels :
    fits frame1 (compositing []) = true ∧ 1 < frame1.height.toNat ∧ 1 < frame1.width.toNat ∧
    frame1.idx[1 * frame1.width.toNat + 1]? = some 0 ∧ (compositing []).ctLen ≤ (2 : Byte).toNat ∧
    (0 : Byte).toNat < (compositing []).ctLen ∧ (compositing []).ct[(0 : Byte).toNat]? = some ⟨255, 0, 0⟩ ∧
    running (compositing [.pixelLoop 0 0 0]) = true ∧ idxOk frame1 = true ∧
    (compositing []).ct.length = (compositing []).ctLen ∧
    ∀ i ∈ frame1.idx, i.toNat < (compositing []).ctLen := by decide

/-- `LoadStartsAndEnds`, `CompositeStartsAndEnds`, `NopAndReserved`, `ResetCommand`: an idle engine, with a result and a frame and without; a busy one; a reserved code; RESET. -/
theorem witness_commands :
    State.reset.status.busy = false ∧ State.reset.status.resultValid = false ∧
    running (at_ [] 0 [.endLoad]) = true ∧ running (at_ [] 0 [.endComposite]) = true ∧
    (⟨false, true, false, true, false⟩ : Status).resultValid = true ∧
    0 < nFrames (compositing []) ∧ nFrames (compositing []) ≤ 1 ∧
    4 ≤ (4 : Byte).toNat ∧ ({ State.reset with cmd := 4 } : State).cmd = 4 ∧
    ({ at_ [] 0 [.endLoad] with cmd := 3 } : State).cmd = 0x03 ∧ (at_ [] 0 []).status.busy = true := by decide

/-- `FaultEntry`: a running engine at the end of its source, which takes a fault, and one that goes on. -/
theorem witness_FaultEntry :
    (at_ [] 0 [.run .blkClassify]).status.busy = true ∧
    nextOf (step (at_ [] 0 [.run .blkClassify])) = some (raise .truncated 0 1 (at_ [] 0 [])) ∧
    nextOf (step (at_ [] 0 [.run .lzwReset])) =
      some { at_ [] 0 [] with lzw := resetLzw Lzw.reset } ∧
    ({ at_ [] 0 [] with lzw := resetLzw Lzw.reset } : State).status.fault = false := by decide

/-- `HostMovesOnlyWhenIdle`, `HostReads`: a busy engine, one with a command waiting, and the host's turn with and
without a result, with a buffer of the right length and of a wrong one, and offsets inside and outside of it. -/
theorem witness_host :
    (at_ [] 0 []).status.busy = true ∧ ({ State.reset with cmd := 1 } : State).cmd ≠ 0 ∧
    State.reset.status.busy = false ∧ State.reset.cmd = 0 ∧ State.reset.status.resultValid = false ∧
    loaded.status.busy = false ∧ loaded.cmd = 0 ∧ loaded.status.resultValid = true ∧
    loaded.arg < nFrames loaded ∧ fbSized loaded = false ∧
    (List.replicate 12 (0x55 : Byte)).length = fbSize loaded ∧
    fbSized supplied = true ∧ supplied.fb.read 11 = some 0x55 ∧ 11 < fbSize supplied ∧
    supplied.fbStale = false ∧ (raise .colorIndexRange 0 3 supplied).fbStale = true ∧
    (nextOf (move (some (.arg 0)) (raise .colorIndexRange 0 3 supplied))).isSome = true ∧
    inFb 11 supplied = true ∧ supplied.fb.read 12 = none ∧ inFb 12 supplied = false ∧
    fbSize supplied ≤ 12 := by decide

/-- `HostInputsUntouched`, `OutputFrame`, `ComponentsSeparate`, `PosMonotone`: an operation that answers a next state
and writes `FB` below an address, one that is no command, and a command. -/
theorem witness_frames :
    (nextOf (exec (.cmpPix 0 1 1) (compositing []))).isSome = true ∧
    pixelOffset frame1 1 1 (compositing []) + 3 ≤ 12 ∧ component (.cmpPix 0 1 1) ≠ .command ∧
    (nextOf (exec .rd8 (at_ [1] 0 []))).isSome = true ∧
    (nextOf (exec .cmdLoad State.reset)).isSome = true := by decide

/-- A legal running engine: the last line of a load. -/
theorem witness_Legal : Legal (at_ [0x3B] 0 [.endLoad]) := by
  refine ⟨rfl, ?_⟩
  rw [if_pos (show (at_ [0x3B] 0 [.endLoad]).status.busy = true from rfl)]
  exact ⟨.loaded, rfl, show (at_ [0x3B] 0 [.endLoad]).pos ≤ srcLen (at_ [0x3B] 0 [.endLoad]) by decide⟩

/-- A legal engine at the host's turn. -/
theorem witness_Legal_idle : Legal loaded := by
  refine ⟨by decide, ?_⟩
  rw [if_neg (show ¬ loaded.status.busy = true by decide)]
  exact ⟨rfl, .inr (.inl rfl)⟩

/-- `LegalKept`, `EngineNeverStuck`, `WorkDecreases`, `EveryCommandEnds`, `StoredFramesWhole`, `OutputCanonical`,
`ReportCoherent`: a step, a command written, and another move of the host. -/
theorem witness_invariants :
    (nextOf (move none (at_ [0x3B] 0 [.endLoad]))).isSome = true ∧
    (nextOf (move (some (.cmd 0x01)) loaded)).isSome = true ∧
    (nextOf (move (some (.writeFb 11 [0x77])) supplied)).isSome = true ∧
    (nextOf (move (some (.supplyFb (List.replicate 12 0x66))) supplied)).isSome = true ∧
    statusExclusive loaded.status = true ∧ statusSet loaded.status = true ∧
    (nextOf (hostWriteCmd 0x02 supplied)).isSome = true ∧ supplied.arg < nFrames supplied ∧
    supplied.fb.wf = true ∧ fbSized supplied = true ∧
    running (at_ [0x3B] 0 [.endLoad]) = true ∧ (at_ [0x3B] 0 [.endLoad]).cmd = 0 ∧
    statusExclusive (at_ [0x3B] 0 [.endLoad]).status = true ∧ (at_ [0x3B] 0 [.endLoad]).fb.wf = true ∧
    (nextOf (step (at_ [0x3B] 0 [.endLoad]))).isSome = true ∧
    (∀ f ∈ (compositing [.endComposite]).img.frames, idxOk f = true) ∧
    (nextOf (step (compositing [.endComposite]))).isSome = true := by decide

theorem witness_reportOk : reportOk (at_ [0x3B] 0 [.endLoad]) ∧
    reportOk (raise .badMagic 0 0 State.reset) := by
  refine ⟨?_, ?_⟩
  · show reportOk (at_ [0x3B] 0 [.endLoad])
    unfold reportOk
    rw [if_neg (by decide)]
    decide
  · unfold reportOk
    rw [if_pos (show (raise .badMagic 0 0 State.reset).status.fault = true from rfl)]
    exact ⟨.badMagic, rfl, rfl⟩

end Sys2Proof.Tests
end

section
/-! PROOFS. The invariants of the LZW registers (R42), over LZW.INIT, a clear code, a fetch and a data code. -/

namespace Sys2Proof.Machine

/-! ### The LZW invariants over the operations of the decoder (R42) -/

theorem dictOk_iff {z : Lzw} : dictOk z ↔
    (∀ c, cellGet z.dict c = none → z.clearCode ≤ c ∧ (c ≤ z.eoiCode ∨ z.nextCode ≤ c)) ∧
    (∀ c v, cellGet z.dict c = some v →
      (c < z.clearCode ∧ v = [BitVec.ofNat 8 c]) ∨
      (z.eoiCode < c ∧ c < z.nextCode ∧ 2 ≤ v.length ∧ v.length ≤ c - z.eoiCode + 1 ∧
        ∀ b ∈ v, b.toNat < z.clearCode)) := by
  unfold dictOk
  constructor
  · intro h
    exact ⟨fun c hc => by simpa only [hc] using h c, fun c v hc => by simpa only [hc] using h c⟩
  · rintro ⟨hn, hs⟩ c
    cases hc : cellGet z.dict c with
    | none => exact hn c hc
    | some v => exact hs c v hc

/-- The seed entries alone are a dictionary in order: nothing lies between the control codes and `NEXT_CODE`. -/
theorem dictOk_resetLzw {z : Lzw} (heoi : z.eoiCode = z.clearCode + 1) : dictOk (resetLzw z) := by
  refine dictOk_iff.mpr ⟨fun c hc => ?_, fun c v hc => ?_⟩
  · have hlit : z.clearCode ≤ c := by simpa [cellGet_seedDict] using hc
    simp only [resetLzw_clearCode, resetLzw_eoiCode, resetLzw_nextCode]
    omega
  · have hlit : c < z.clearCode ∧ [BitVec.ofNat 8 c] = v := by simpa [cellGet_seedDict] using hc
    exact .inl ⟨hlit.1, hlit.2.symm⟩

/-- `LZW.RESET` gives the invariants that concern the dictionary and the widths; those of the runs and of the cursor
are the ones it found, the last run being empty. -/
theorem lzwOk_resetLzw {z : Lzw} (hsize : 2 ≤ z.codeSize ∧ z.codeSize ≤ 8)
    (hclear : z.clearCode = 2 ^ z.codeSize) (heoi : z.eoiCode = z.clearCode + 1)
    (hlast : z.runs.getLast?.getD [] = []) (hout : z.out = z.runs.flatten)
    (hbytes : ∀ b ∈ z.out, b.toNat < z.clearCode) (hbit : z.bitOff < 8) : LzwOk (resetLzw z) := by
  have hlo : 2 ^ 2 ≤ 2 ^ z.codeSize := Nat.pow_le_pow_right (by decide) hsize.1
  have hhi : 2 ^ z.codeSize ≤ 2 ^ 8 := Nat.pow_le_pow_right (by decide) hsize.2
  have hroom : z.eoiCode + 1 < 2 ^ (z.codeSize + 1) := by rw [Nat.pow_succ]; omega
  exact {
    size := hsize
    clear := hclear
    eoi := heoi
    width := ⟨Nat.le_refl _, by simp only [resetLzw_codeLen]; omega⟩
    next := ⟨Nat.le_refl _, by simp only [resetLzw_nextCode]; omega⟩
    fill := ⟨Nat.le_of_lt hroom, fun h => absurd h (Nat.ne_of_lt hroom)⟩
    dict := dictOk_resetLzw heoi
    last := hlast.symm
    lastLen := Nat.zero_le _
    lastBytes := by simp
    out := hout
    outBytes := hbytes
    bit := hbit }

/-- `LZW.INIT` establishes the invariants for every admitted code size (R201, R42). -/
theorem lzwOk_initLzw {cs : Nat} (z : Lzw) (hlo : 2 ≤ cs) (hhi : cs ≤ 8) : LzwOk (initLzw cs z) :=
  lzwOk_resetLzw (z := { z with
      codeSize := cs, clearCode := 2 ^ cs, eoiCode := 2 ^ cs + 1
      byteIdx := 0, bitOff := 0, out := [], runs := [], status := .running })
    ⟨hlo, hhi⟩ rfl rfl rfl rfl (by simp) (Nat.zero_lt_succ 7)

/-- A clear code keeps the invariants (R206). -/
theorem lzwOk_clear {z : Lzw} (h : LzwOk z) : LzwOk (emit [] (resetLzw z)) :=
  lzwOk_resetLzw (z := emit [] z) h.size h.clear h.eoi (by simp) (by simp [h.out])
    (by simpa using h.outBytes) h.bit

/-- A fetch keeps the invariants (R203). -/
theorem lzwOk_fetchCode {z : Lzw} (h : LzwOk z) (acc : List Byte) : LzwOk (fetchCode acc z) :=
  { h with bit := Nat.mod_lt _ (by decide) }

/-- A value that a data code may have: some literals, no more of them than the codes allocated once its entry is in. -/
structure ValueOk (z : Lzw) (v : List Byte) : Prop where
  nonempty : v ≠ []
  bytes : ∀ b ∈ v, b.toNat < z.clearCode
  len : v.length ≤ (growDict v z).nextCode - z.eoiCode

/-- The entry of an allocated code is such a value (R209, R210). -/
theorem LzwOk.valueOk_entry {z : Lzw} (h : LzwOk z) {c : Nat} {v : List Byte}
    (hv : cellGet z.dict c = some v) : ValueOk z v := by
  have hn : z.nextCode ≤ (growDict v z).nextCode := by rw [growDict_nextCode]; split <;> omega
  have hnext := h.next.1
  rcases (dictOk_iff.mp h.dict).2 c v hv with ⟨hc, rfl⟩ | ⟨hlo, hhi, h2, hlen, hb⟩
  · have hlt : (BitVec.ofNat 8 c).toNat < z.clearCode :=
      Nat.lt_of_le_of_lt (by simpa using Nat.mod_le c 256) hc
    exact ⟨by simp, by simpa using hlt, by simp only [List.length_singleton]; omega⟩
  · exact ⟨List.ne_nil_of_length_pos (by omega), hb, by omega⟩

/-- The fix-up value is such a value while the dictionary is not full (R211). -/
theorem LzwOk.valueOk_fixUp {z : Lzw} (h : LzwOk z) (hl : z.last ≠ []) (hfull : z.nextCode < 4096) :
    ValueOk z (fixUp z) := by
  have hlen := h.lastLen
  have hpos : 0 < z.last.length := List.length_pos_iff.mpr hl
  refine ⟨by simp [fixUp, hl], fun b hb => ?_, ?_⟩
  · rcases List.mem_append.mp hb with hb | hb
    · exact h.lastBytes b hb
    · exact h.lastBytes b (List.mem_of_mem_take hb)
  · rw [growDict_nextCode, if_pos ⟨hl, hfull⟩]
    have hnext := h.next.1
    simp only [fixUp, List.length_append, List.length_take]
    omega

/-- Step 5 keeps the dictionary in order: the new entry is one byte longer than `LAST` (R214). -/
theorem LzwOk.dictOk_growDict {z : Lzw} {v : List Byte} (h : LzwOk z) (hv : ValueOk z v) :
    dictOk (growDict v z) := by
  obtain ⟨hnone, hsome⟩ := dictOk_iff.mp h.dict
  by_cases hg : z.last ≠ [] ∧ z.nextCode < 4096
  case neg =>
    have he : growDict v z = z := by unfold growDict; exact if_neg hg
    exact he.symm ▸ h.dict
  case pos =>
    have hnext := h.next.1
    refine dictOk_iff.mpr ⟨fun c hc => ?_, fun c w hc => ?_⟩ <;>
      simp only [growDict_clearCode, growDict_eoiCode, growDict_nextCode, if_pos hg] <;>
      rw [cellGet_growDict] at hc <;> split at hc
    · cases hc
    · rename_i hne
      obtain ⟨hlo, hhi⟩ := hnone c hc
      have hcn : c ≠ z.nextCode := fun e => hne ⟨hg.1, hg.2, e⟩
      exact ⟨hlo, by omega⟩
    · rename_i heq
      obtain ⟨hlast, -, rfl⟩ := heq
      have hpos : 0 < z.last.length := List.length_pos_iff.mpr hlast
      have hvpos : 0 < v.length := List.length_pos_iff.mpr hv.nonempty
      have hlen := h.lastLen
      cases hc
      simp only [List.length_append, List.length_take]
      refine .inr ⟨by omega, by omega, by omega, by omega, fun b hb => ?_⟩
      rcases List.mem_append.mp hb with hb | hb
      · exact h.lastBytes b hb
      · exact hv.bytes b (List.mem_of_mem_take hb)
    · rcases hsome c w hc with hlit | ⟨hlo, hhi, hw⟩
      · exact .inl hlit
      · exact .inr ⟨hlo, by omega, hw⟩

/-- Steps 5 and 6 together keep the codes within the width, which stops growing at 12 bits (R214, R215). -/
theorem LzwOk.fill_grow {z : Lzw} (h : LzwOk z) (v : List Byte) :
    (growDict v z).nextCode ≤ 4096 ∧ (growWidth (growDict v z)).codeLen ≤ 12 ∧
    (growDict v z).nextCode ≤ 2 ^ (growWidth (growDict v z)).codeLen ∧
    ((growDict v z).nextCode = 2 ^ (growWidth (growDict v z)).codeLen →
      (growWidth (growDict v z)).codeLen = 12) := by
  have hfill := h.fill
  have hnext := h.next.2
  have hwidth := h.width.2
  have hn : (growDict v z).nextCode ≤ z.nextCode + 1 ∧ (growDict v z).nextCode ≤ 4096 := by
    rw [growDict_nextCode]; split <;> omega
  rw [growWidth_codeLen, growDict_codeLen]
  rcases Nat.lt_or_eq_of_le hwidth with hw | hw
  · have hlt : z.nextCode < 2 ^ z.codeLen := Nat.lt_of_le_of_ne hfill.1 fun e => by have := hfill.2 e; omega
    have hpos : 0 < 2 ^ z.codeLen := Nat.two_pow_pos _
    split
    · rw [Nat.pow_succ]; omega
    · omega
  · rw [hw, if_neg fun hc => Nat.lt_irrefl 12 hc.2]
    omega

/-- A data code keeps the invariants (R208, R42). -/
theorem lzwOk_dataCode {z : Lzw} {v : List Byte} (h : LzwOk z) (hv : ValueOk z v) :
    LzwOk (dataCode v z) := by
  obtain ⟨hnext, hwidth, hfill, hfull⟩ := h.fill_grow v
  have hn : z.nextCode ≤ (growDict v z).nextCode := by rw [growDict_nextCode]; split <;> omega
  have hw : z.codeLen ≤ (growWidth (growDict v z)).codeLen := by
    rw [growWidth_codeLen, growDict_codeLen]; split <;> omega
  have hdict := h.dictOk_growDict hv
  have hlo := h.next.1
  have hwlo := h.width.1
  exact {
    size := by simpa using h.size
    clear := by simpa using h.clear
    eoi := by simpa using h.eoi
    width := by simp only [dataCode_codeSize, dataCode_codeLen]; omega
    next := by simp only [dataCode_eoiCode, dataCode_nextCode]; omega
    fill := by simpa using ⟨hfill, hfull⟩
    dict := by simpa [dictOk] using hdict
    last := by simp
    lastLen := by simpa using hv.len
    lastBytes := by simpa using hv.bytes
    out := by simp [h.out]
    outBytes := by
      simp only [dataCode_out, dataCode_clearCode, List.mem_append]
      exact fun b hb => hb.elim (h.outBytes b) (hv.bytes b)
    bit := by simpa using h.bit }

end Sys2Proof.Machine
end

section
/-! PROOFS. A step as the first pending line, run with that line taken off (log 1). -/

open Sys2Proof Sys2Proof.Machine

namespace Sys2Proof.Machine

/-! ### Pending lines -/

/-- What a running engine does with a pending line that has been taken off `ctl`. -/
def runLine (l : Line) (s : State) : Out :=
  match fetchLine l s with
  | .instr i t => exec i t
  | .outcome o => o

theorem runLine_lzwNext (s : State) :
    runLine .lzwNext s = exec (decodeLzwNext (bitsLeft s) s.lzw.codeLen) s := rfl

theorem runLine_lzwClassify (s : State) : runLine .lzwClassify s =
    exec (decodeLzw s.lzw.clearCode s.lzw.eoiCode s.lzw.nextCode s.lzw.code) s := rfl

/-- A step of a running engine is its first pending line, run with that line taken off. -/
theorem step_eq_runLine {s : State} {l : Line} {rest : List Line} (hr : running s = true)
    (hc : s.ctl = l :: rest) : step s = runLine l { s with ctl := rest } := by
  rw [step_line hr hc]; rfl

end Sys2Proof.Machine

/-- Settles O7: the situations of a step, one lemma each. -/
theorem stepRunsFetched : Obligations.StepRunsFetched :=
  ⟨fun _ => step_command, fun _ _ hr =>
    ⟨fun _ => step_run hr, fun _ _ => step_decodeAt hr, fun _ _ => step_decodeAt_short hr,
      fun _ _ => step_decodeAt_badSeparator hr, step_eq_runLine hr, step_eq_runLine hr⟩⟩
end

section
/-! PROOFS. The control invariant `Legal`: each pending line, each command and each move of the host keeps it. -/

open Sys2Proof Sys2Proof.Machine

namespace Sys2Proof.Machine

/-! ### Stacks of pending lines -/

/-- The lines of two stacks, one on the other, lead on one after the other. -/
theorem afterAll_append {new rest : List Line} {g g' : Stage} (h : afterAll g new = some g') :
    afterAll g (new ++ rest) = afterAll g' rest := by
  induction new generalizing g with
  | nil => cases h; rfl
  | cons l new ih =>
    simp only [List.cons_append, afterAll] at h ⊢
    split at h
    · exact ih h
    · cases h

/-- A stack that leads on begins with a line that may stand there. -/
theorem afterAll_cons {l : Line} {rest : List Line} {g g' : Stage} :
    afterAll g (l :: rest) = some g' ↔ ∃ k, after g l = some k ∧ afterAll k rest = some g' := by
  rw [afterAll]
  cases after g l <;> simp

/-- Nothing may stand after a command's end. -/
theorem afterAll_over {ls : List Line} (h : afterAll .over ls = some .over) : ls = [] := by
  cases ls with
  | nil => rfl
  | cons l rest => cases h

/-! ### Legal states -/

theorem legal_iff_of_busy {s : State} (hb : s.status.busy = true) :
    Legal s ↔ imgOk s.img = true ∧ ∃ g, afterAll g s.ctl = some .over ∧ StageOk g s := by
  simp [Legal, hb]

theorem legal_iff_of_idle {s : State} (hb : s.status.busy = false) :
    Legal s ↔ imgOk s.img = true ∧ s.ctl = [] ∧ (s.phase = .idle ∨ s.phase = .done ∨ s.phase = .faulted) := by
  simp [Legal, hb]

/-- A fault leaves a legal state, whatever it ends. -/
theorem legal_raise {s : State} {c : Cause} {pos aux : Nat} (himg : imgOk s.img = true) :
    Legal (raise c pos aux s) :=
  (legal_iff_of_idle rfl).mpr ⟨himg, rfl, .inr (.inr rfl)⟩

/-- A busy state whose pending lines lead from `g` to the end of the command, its store in order. What the control
point `g` promises is left out: it is what the line that has just been taken off has to bring about. -/
def Resumes (g : Stage) (s : State) : Prop :=
  imgOk s.img = true ∧ s.status.busy = true ∧ afterAll g s.ctl = some .over

theorem Resumes.img {g : Stage} {s : State} (h : Resumes g s) : imgOk s.img = true := h.1

theorem Resumes.busy {g : Stage} {s : State} (h : Resumes g s) : s.status.busy = true := h.2.1

theorem Resumes.ctl {g : Stage} {s : State} (h : Resumes g s) : afterAll g s.ctl = some .over := h.2.2

theorem Resumes.legal {g : Stage} {s : State} (h : Resumes g s) (hok : StageOk g s) : Legal s :=
  (legal_iff_of_busy h.busy).mpr ⟨h.img, g, h.ctl, hok⟩

/-- Called lines that lead from `g` to where the caller goes on. -/
theorem legal_call {g g' : Stage} {s : State} {new : List Line} (h : Resumes g' s)
    (hnew : afterAll g new = some g') (hok : StageOk g (call new s)) : Legal (call new s) :=
  Resumes.legal ⟨h.img, h.busy, (afterAll_append hnew).trans h.ctl⟩ hok

/-- The last line of a command without a fault. -/
theorem Resumes.legal_complete {s : State} (h : Resumes .over s) : Legal (complete s) :=
  (legal_iff_of_idle rfl).mpr ⟨h.img, afterAll_over h.ctl, .inr (.inl rfl)⟩

theorem stageOk_cmd {g : Stage} {s : State} {c : Byte} : StageOk g { s with cmd := c } ↔ StageOk g s := by
  cases g <;> exact Iff.rfl

theorem stageOk_ctl {g : Stage} {s : State} {ls : List Line} :
    StageOk g { s with ctl := ls } ↔ StageOk g s := by
  cases g <;> exact Iff.rfl

/-- A value in `CMD` is no part of what makes a state legal. -/
theorem Legal.withCmd {s : State} (h : Legal s) (c : Byte) : Legal { s with cmd := c } := by
  simpa only [Legal, stageOk_cmd] using h

/-! ### The result store (R34, R35) -/

theorem imgOk_iff {img : GifImage} :
    imgOk img = true ↔ gctOk img = true ∧ ∀ f ∈ img.frames, tableOk f = true ∧ idxOk f = true := by
  simp [imgOk]

/-- The table that `GCT.READ` or `LCT.READ` takes has the announced length (R103, R163, R183). -/
theorem tableOf_read_length {s : State} {n : Nat} (h : s.pos + 3 * n ≤ srcLen s) :
    (tableOf ((s.src.drop s.pos).take (3 * n))).length = n :=
  tableOf_length n _ (by simp only [srcLen, List.length_take, List.length_drop] at *; omega)

/-- A read that fails ends the command in a fault, one that answers goes on: for `readByte_cases` and its like. -/
theorem legal_read {α : Type} {n : Nat} {s t u : State} {v : α} {r : Res α} {f : α → State → Out}
    (hread : (s.pos + n ≤ srcLen s ∧ r = .ok v u) ∨ (srcLen s < s.pos + n ∧ r = .trap (truncated n s)))
    (h : r.andThen f = .next t) (himg : imgOk s.img = true)
    (hok : s.pos + n ≤ srcLen s → f v u = .next t → Legal t) : Legal t := by
  rcases hread with ⟨hp, rfl⟩ | ⟨-, rfl⟩
  · exact hok hp h
  · cases h; exact legal_raise himg

/-! ### Decode points -/

/-- A line that decodes at `p` faults or executes an operation of that point. -/
theorem legal_decodeAt {p : Point} {s t : State} (himg : imgOk s.img = true)
    (h : runLine (.decodeAt p) s = .next t)
    (hok : ∀ i, decode p (bytesAt p s) = .ok i → exec i s = .next t → Legal t) : Legal t := by
  simp only [runLine, fetchLine, fetchAt] at h
  cases hd : decode p (bytesAt p s) with
  | ok i => rw [hd] at h; exact hok i hd h
  | error e =>
    rw [hd] at h
    cases e with
    | short n => cases h; exact legal_raise himg
    | badSeparator b => cases h; exact legal_raise himg

theorem decode_header_ok {bs : List Byte} {i : Instr} (h : decode .header bs = .ok i) :
    ∃ m, i = decodeMagic m := by
  match bs, h with
  | _ :: _ :: _ :: _ :: _ :: _ :: _, h => cases h; exact ⟨_, rfl⟩
  | [], h | [_], h | [_, _], h | [_, _, _], h | [_, _, _, _], h | [_, _, _, _, _], h => cases h

theorem decode_label_ok {bs : List Byte} {i : Instr} (h : decode .label bs = .ok i) :
    ∃ l, i = decodeLabel l := by
  cases bs with
  | nil => cases h
  | cons l rest => cases h; exact ⟨l, rfl⟩

theorem decode_sbLength_ok {bs : List Byte} {i : Instr} (h : decode .sbLength bs = .ok i) :
    ∃ n, i = decodeSbLength n := by
  cases bs with
  | nil => cases h
  | cons n rest => cases h; exact ⟨n, rfl⟩

theorem decodeMagic_cases (m : BitVec 48) :
    decodeMagic m = .hdr87a ∨ decodeMagic m = .hdr89a ∨ decodeMagic m = .hdrBad m := by
  unfold decodeMagic
  split_ifs <;> simp

theorem decodeIntroducer_cases (b : Byte) :
    decodeIntroducer b = .blkImg ∨ decodeIntroducer b = .blkExt ∨ decodeIntroducer b = .blkTrl ∨
      decodeIntroducer b = .blkUnk b := by
  unfold decodeIntroducer
  split_ifs <;> simp

theorem decodeSbLength_cases (n : Byte) : decodeSbLength n = .sbkTerm ∨ decodeSbLength n = .sbkData n := by
  unfold decodeSbLength
  split_ifs <;> simp

theorem decodeCmd_cases (c : Byte) :
    decodeCmd c = .cmdNop ∨ decodeCmd c = .cmdLoad ∨ decodeCmd c = .cmdComposite ∨
      decodeCmd c = .cmdReset ∨ decodeCmd c = .cmdReserved c := by
  unfold decodeCmd
  split_ifs <;> simp

/-- The five label rows share one meaning (R191). -/
theorem exec_decodeLabel (l : Byte) (s : State) : exec (decodeLabel l) s = labelled l s := by
  unfold decodeLabel
  split_ifs <;> subst_vars <;> rfl

/-! ### The demuxer's lines -/

/-- `HDR.87A`, `HDR.89A` and `HDR.BAD` (R161). -/
theorem legal_header {s t : State} (hr : Resumes .lsd s) (hok : StageOk .start s)
    (h : runLine (.decodeAt .header) s = .next t) : Legal t := by
  refine legal_decodeAt hr.img h fun i hd h => ?_
  have good : ∀ m, header m s = .next t → Legal t := fun m h =>
    legal_read (readBytes_cases _ _) h hr.img fun hp h => by
      cases h
      exact Resumes.legal hr ⟨hp, hok.2⟩
  obtain ⟨m, rfl⟩ := decode_header_ok hd
  rcases decodeMagic_cases m with e | e | e <;> rw [e] at h
  · exact good _ h
  · exact good _ h
  · refine legal_read (readBytes_cases _ _) h hr.img fun _ h => ?_
    cases h
    exact legal_raise hr.img

/-- `LSDESC` (R162): the flags are written while no table is stored, so no table's length is at stake. -/
theorem legal_lsdesc {s t : State} (hr : Resumes .gct s) (hok : StageOk .lsd s)
    (h : execLsdesc s = .next t) : Legal t := by
  obtain ⟨-, hg⟩ := hok
  have himg : ∀ f, imgOk { s.img with lsdFlags := f } = true := fun f => by
    rw [imgOk_iff]
    exact ⟨by simp only [gctOk, hg], (imgOk_iff.mp hr.img).2⟩
  refine legal_read (readHalf_cases _) h hr.img fun _ h => legal_read (readHalf_cases _) h hr.img fun _ h =>
    legal_read (readByte_cases _) h hr.img fun _ h =>
    legal_read (readByte_cases _) h (himg _) fun _ h => legal_read (readByte_cases _) h (himg _) fun hp h => ?_
  cases h
  exact Resumes.legal ⟨himg _, hr.busy, hr.ctl⟩ ⟨hp, hg⟩

/-- `GCT.READ` (R163). -/
theorem legal_gctRead {s t : State} (hr : Resumes .block s) (hok : StageOk .gct s)
    (h : execGctRead s = .next t) : Legal t := by
  have hframes := (imgOk_iff.mp hr.img).2
  unfold execGctRead at h
  split at h
  · refine legal_read (readBytes_cases _ _) h hr.img fun hp h => ?_
    cases h
    have hgct : gctOk { s.img with gct := some (tableOf _) } = true := beq_iff_eq.mpr (tableOf_read_length hp)
    exact Resumes.legal ⟨imgOk_iff.mpr ⟨hgct, hframes⟩, hr.busy, hr.ctl⟩ hp
  · cases h
    exact Resumes.legal ⟨imgOk_iff.mpr ⟨rfl, hframes⟩, hr.busy, hr.ctl⟩ hok.1

/-- `BLK.CLASSIFY` (R164): what the peek has seen is there to be consumed. -/
theorem legal_blkClassify {s t : State} (hr : Resumes .loaded s) (h : execBlkClassify s = .next t) :
    Legal t := by
  refine legal_read (peekByte_cases _) h hr.img fun hp h => ?_
  cases h
  exact legal_call (g := .intro) hr rfl hp

/-- The four rows of a block introducer (R165, R166, R170, R171). -/
theorem legal_introducer {s t : State} (hr : Resumes .loaded s) (hok : StageOk .intro s)
    (h : runLine (.decodeAt .introducer) s = .next t) : Legal t := by
  refine legal_decodeAt hr.img h fun i hd h => ?_
  cases hd
  rcases decodeIntroducer_cases s.peeked with e | e | e | e <;> rw [e] at h <;> cases h
  · exact legal_call (g := .intro) hr rfl hok
  · exact legal_call (g := .intro) hr rfl hok
  · exact hr.legal (Nat.le_of_lt hok)
  · exact legal_raise hr.img

/-! ### The lines of an image block -/

/-- `IMG.SEP` (R181). -/
theorem legal_imgSep {s t : State} (hr : Resumes .desc s) (h : execImgSep s = .next t) : Legal t := by
  refine legal_read (readByte_cases _) h hr.img fun hp h => ?_
  split at h <;> cases h
  · exact Resumes.legal hr hp
  · exact legal_raise hr.img

/-- `IMG.DESC` (R182). -/
theorem legal_imgDesc {s t : State} (hr : Resumes .lct s) (h : execImgDesc s = .next t) : Legal t := by
  refine legal_read (readHalf_cases _) h hr.img fun _ h => legal_read (readHalf_cases _) h hr.img fun _ h =>
    legal_read (readHalf_cases _) h hr.img fun _ h => legal_read (readHalf_cases _) h hr.img fun _ h =>
    legal_read (readByte_cases _) h hr.img fun hp h => ?_
  cases h
  exact Resumes.legal hr hp

/-- `LCT.READ` (R183): the table is stored exactly when the flags announce it. -/
theorem legal_lctRead {s t : State} (hr : Resumes .mcs s) (hok : StageOk .lct s)
    (h : execLctRead s = .next t) : Legal t := by
  unfold execLctRead at h
  split at h
  · rename_i hl
    refine legal_read (readBytes_cases _ _) h hr.img fun hp h => ?_
    cases h
    have htable : tableOk { s.cur with lct := some (tableOf _) } = true :=
      Bool.and_eq_true_iff.mpr ⟨hl, beq_iff_eq.mpr (tableOf_read_length hp)⟩
    exact Resumes.legal hr ⟨hp, htable⟩
  · rename_i hl
    cases h
    have htable : tableOk { s.cur with lct := none } = true := by simpa [tableOk] using hl
    exact Resumes.legal hr ⟨hok, htable⟩

/-- `IMG.MCS` (R184). -/
theorem legal_imgMcs {s t : State} (hr : Resumes .data s) (hok : StageOk .mcs s)
    (h : execImgMcs s = .next t) : Legal t := by
  refine legal_read (readByte_cases _) h hr.img fun hp h => ?_
  cases h
  exact Resumes.legal hr ⟨hp, hok.2⟩

/-- `IMG.COMMIT` (R187): the frame that is stored has its pixels and its table. -/
theorem legal_imgCommit {s t : State} (hr : Resumes .block s) (hok : StageOk .commit s)
    (h : execImgCommit s = .next t) : Legal t := by
  obtain ⟨hgct, hframes⟩ := imgOk_iff.mp hr.img
  unfold execImgCommit at h
  split at h <;> cases h
  · rename_i hlen
    refine Resumes.legal ⟨imgOk_iff.mpr ⟨hgct, fun f hf => ?_⟩, hr.busy, hr.ctl⟩ hok.1
    rcases List.mem_append.mp hf with hf | hf
    · exact hframes f hf
    · cases List.mem_singleton.mp hf
      exact ⟨hok.2, beq_iff_eq.mpr hlen⟩
  · exact legal_raise hr.img

/-! ### The lines of the sub-block reader -/

/-- `SBK.DATA` and `SBK.TERM` (R151, R152), at the head `g` of the loop, with `g'` the control point after it: in an
image block and in an extension both promise no more than a cursor within `SRC` and what `CUR` says. -/
theorem legal_sbLength {g g' : Stage} {s t : State} (hr : Resumes g' s)
    (hloop : after g (.decodeAt .sbLength) = some g')
    (hokLoop : ∀ u : State, u.pos ≤ srcLen u → u.cur = s.cur → StageOk g u)
    (hokEnd : ∀ u : State, u.pos ≤ srcLen u → u.cur = s.cur → StageOk g' u)
    (h : runLine (.decodeAt .sbLength) s = .next t) : Legal t := by
  refine legal_decodeAt hr.img h fun i hd h => ?_
  obtain ⟨n, rfl⟩ := decode_sbLength_ok hd
  rcases decodeSbLength_cases n with e | e <;> rw [e] at h
  · refine legal_read (readByte_cases _) h hr.img fun hp h => ?_
    cases h
    exact Resumes.legal hr (hokEnd _ hp rfl)
  · refine legal_read (readByte_cases _) h hr.img fun _ h =>
      legal_read (readBytes_cases _ _) h hr.img fun hp h => ?_
    cases h
    exact legal_call hr (afterAll_cons.mpr ⟨g', hloop, rfl⟩) (hokLoop _ hp rfl)

/-! ### The lines of an extension block -/

/-- `EXT.BLOCK` (R190). -/
theorem legal_extBlock {s t : State} (hr : Resumes .block s) (h : execExtBlock s = .next t) : Legal t := by
  refine legal_read (readByte_cases _) h hr.img fun hp h => ?_
  cases h
  exact legal_call (g := .label) hr rfl hp

/-- The five label rows (R191). -/
theorem legal_label {s t : State} (hr : Resumes .block s) (h : runLine (.decodeAt .label) s = .next t) :
    Legal t := by
  refine legal_decodeAt hr.img h fun i hd h => ?_
  obtain ⟨l, rfl⟩ := decode_label_ok hd
  rw [exec_decodeLabel] at h
  refine legal_read (readByte_cases _) h hr.img fun hp h => ?_
  cases h
  exact legal_call (g := .extData) hr rfl hp

/-! ### The lines of the LZW decoder -/

/-- `LZW.INIT` (R201). -/
theorem legal_lzwInit {cs : Byte} {s t : State} (hr : Resumes .lzw s) (hok : StageOk .decode s)
    (h : execLzwInit cs s = .next t) : Legal t := by
  unfold execLzwInit at h
  split at h <;> cases h
  · exact legal_raise hr.img
  · rename_i hcs
    obtain ⟨hlo, hhi⟩ := not_or.mp hcs
    exact Resumes.legal hr
      ⟨hok.1, hok.2, lzwOk_initLzw _ (Nat.le_of_not_lt hlo) (Nat.le_of_not_lt hhi), Nat.zero_le _⟩

/-- The head of the loop of R200: `LZW.FETCH` while a code's bits remain, else `LZW.EXH` (R203, R204). -/
theorem legal_lzwNext {s t : State} (hr : Resumes .commit s) (hok : StageOk .lzw s)
    (h : runLine .lzwNext s = .next t) : Legal t := by
  obtain ⟨hp, htable, hz, hbits⟩ := hok
  rw [runLine_lzwNext, decodeLzwNext] at h
  split at h
  · cases h
    exact Resumes.legal hr ⟨hp, htable⟩
  · rename_i hleft
    have hf : execLzwFetch s = .next (call [.lzwClassify] { s with lzw := fetchCode s.acc s.lzw }) :=
      if_neg hleft
    cases hf.symm.trans h
    refine legal_call (g := .code) hr rfl ⟨hp, htable, lzwOk_fetchCode hz s.acc, ?_, codeAt_lt _ _ _⟩
    have hwidth := hz.width.1
    simp only [call_lzw, call_acc, bitPos_fetchCode]
    unfold bitsLeft at hleft
    omega

/-- A data code of a value that keeps the invariants goes back to the head of the loop (R208). -/
theorem legal_dataCode {v : List Byte} {s : State} (hr : Resumes .commit s) (hok : StageOk .code s)
    (hv : ValueOk s.lzw v) : Legal { s with lzw := dataCode v s.lzw, ctl := .lzwNext :: s.ctl } := by
  obtain ⟨hp, htable, hz, hbits, -⟩ := hok
  refine legal_call (g := .lzw) (s := { s with lzw := dataCode v s.lzw }) (new := [.lzwNext]) hr rfl
    ⟨hp, htable, lzwOk_dataCode hz hv, ?_⟩
  simpa [bitPos] using hbits

/-- `LZW.LIT` and `LZW.KNOWN` (R209, R210). -/
theorem legal_lookUp {code : Nat} {s t : State} (hr : Resumes .commit s) (hok : StageOk .code s)
    (h : lookUp code s = .next t) : Legal t := by
  obtain ⟨v, hv, rfl⟩ := lookUp_eq_next.mp h
  have ⟨_, _, hz, _⟩ := hok
  exact legal_dataCode hr hok (hz.valueOk_entry hv)

/-- `LZW.KWKWK`, and `LZW.DRIFT` where it is tolerated: a code at or beyond `NEXT_CODE` leaves the dictionary room for
the fix-up's entry (R211, R212). -/
theorem legal_takeFixUp {s t : State} (hr : Resumes .commit s) (hok : StageOk .code s)
    (hcode : s.lzw.nextCode ≤ s.lzw.code) (h : takeFixUp s = .next t) : Legal t := by
  rcases takeFixUp_cases s with ⟨-, e⟩ | ⟨hlast, e⟩ <;> cases e.symm.trans h
  · exact legal_raise hr.img
  · have ⟨_, _, hz, _, hlt⟩ := hok
    have hwidth : 2 ^ s.lzw.codeLen ≤ 2 ^ 12 := Nat.pow_le_pow_right (by decide) hz.width.2
    exact legal_dataCode hr hok (hz.valueOk_fixUp hlast (by omega))

/-- The classes of a fetched code (R117, R206 to R212). -/
theorem legal_lzwClassify {s t : State} (hr : Resumes .commit s) (hok : StageOk .code s)
    (h : runLine .lzwClassify s = .next t) : Legal t := by
  have ⟨hp, htable, hz, hbits, _⟩ := hok
  rw [runLine_lzwClassify, decodeLzw] at h
  split_ifs at h with hclear heoi hlit hknown hnext
  · cases h
    exact legal_call (g := .lzw) hr rfl ⟨hp, htable, lzwOk_clear hz, hbits⟩
  · cases h
    exact Resumes.legal hr ⟨hp, htable⟩
  · exact legal_lookUp hr hok h
  · exact legal_lookUp hr hok h
  · exact legal_takeFixUp hr hok (Nat.le_of_eq hnext.symm) h
  · have hd : execLzwDrift s.lzw.code s = .next t := h
    unfold execLzwDrift at hd
    split at hd
    · cases hd
      exact legal_raise hr.img
    · exact legal_takeFixUp (s := { s with status := { s.status with driftWarn := true } }) hr hok
        (Nat.le_of_not_lt hknown) hd

/-! ### The lines of the compositor -/

/-- `CMP.FRAME` (R240). -/
theorem legal_cmpFrame {k : Nat} {s t : State} (hr : Resumes .composited s) (hok : StageOk (.cmpSelect k) s)
    (h : execCmpFrame k s = .next t) : Legal t := by
  obtain ⟨fr, -, h⟩ := withFrame_eq_next.mp h
  cases h
  exact legal_call (g := .cmpSelect k) hr (by simp [afterAll, after]) hok

/-- `CMP.SELECT` (R243): the table taken is one of the store's, of the length that goes with it. -/
theorem legal_cmpSelect {k : Nat} {s t : State} (hr : Resumes (.cmpCheck k) s) (hok : StageOk (.cmpSelect k) s)
    (h : execCmpSelect k s = .next t) : Legal t := by
  obtain ⟨hgct, hframes⟩ := imgOk_iff.mp hr.img
  obtain ⟨fr, hfr, ⟨-, c, hc, rfl⟩ | ⟨-, c, hc, rfl⟩ | ⟨-, -, rfl⟩⟩ := cmpSelect_eq_next.mp h
  · have htable := (hframes fr (List.mem_of_getElem? hfr)).1
    rw [tableOk, hc] at htable
    exact Resumes.legal hr ⟨hok, beq_iff_eq.mp (Bool.and_eq_true_iff.mp htable).2⟩
  · rw [gctOk, hc] at hgct
    exact Resumes.legal hr ⟨hok, beq_iff_eq.mp hgct⟩
  · exact legal_raise hr.img

/-- `CMP.CHECK` (R241). -/
theorem legal_cmpCheck {k : Nat} {s t : State} (hr : Resumes (.pixels k) s) (hok : StageOk (.cmpCheck k) s)
    (h : execCmpCheck k s = .next t) : Legal t := by
  obtain ⟨fr, hfr, h⟩ := withFrame_eq_next.mp h
  split at h <;> cases h
  · rename_i hfits
    exact Resumes.legal hr ⟨hok.2, fr, hfr, hfits⟩
  · exact legal_raise hr.img

/-- The heads of the loops of `CMP.FRAME` (R240). -/
theorem legal_pixelLoop {k r c : Nat} {s t : State} (hr : Resumes .composited s) (hok : StageOk (.pixels k) s)
    (h : pixelLoop k r c s = .next t) : Legal t := by
  obtain ⟨hct, fr', hfr', hfits⟩ := hok
  obtain ⟨fr, hfr, hcase⟩ := pixelLoop_eq_next.mp h
  cases hfr'.symm.trans hfr
  rcases hcase with ⟨hrow, hcol, rfl⟩ | ⟨-, -, rfl⟩ | ⟨-, rfl⟩
  · exact legal_call (g := .pixel k r c) (s := { s with row := r, col := c })
      (new := [.run (.cmpPix k r c), .pixelLoop k r (c + 1)]) hr (by simp [afterAll, after])
      ⟨hct, fr', hfr', hfits, hrow, hcol⟩
  · exact legal_call (g := .pixels k) (new := [.pixelLoop k (r + 1) 0]) hr (by simp [afterAll, after])
      ⟨hct, fr', hfr', hfits⟩
  · exact Resumes.legal hr trivial

/-- `CMP.PIX` (R242). -/
theorem legal_cmpPix {k r c : Nat} {s t : State} (hr : Resumes (.pixels k) s) (hok : StageOk (.pixel k r c) s)
    (h : execCmpPix k r c s = .next t) : Legal t := by
  obtain ⟨hct, fr', hfr', hfits, -⟩ := hok
  obtain ⟨fr, i, -, -, ⟨-, rfl⟩ | ⟨-, e, -, -, rfl⟩⟩ := cmpPix_eq_next.mp h
  · exact legal_raise hr.img
  · exact Resumes.legal hr ⟨hct, fr', hfr', hfits⟩

/-! ### A step and a move -/

/-- A pending line keeps the control invariant: it faults, ends the command, or leaves lines that lead on from a
control point whose promises it has brought about. The cases are those of `after`. -/
theorem legal_runLine {g g' : Stage} {l : Line} {s t : State} (ha : after g l = some g') (hr : Resumes g' s)
    (hok : StageOk g s) (h : runLine l s = .next t) : Legal t := by
  unfold after at ha
  split at ha
  -- the demuxer
  · -- DEMUX
    cases ha; cases h; exact legal_call (g := .start) hr rfl hok
  · -- setPhase at start
    cases ha; cases h; exact Resumes.legal hr hok
  · cases ha; exact legal_header hr hok h
  · -- setPhase at lsd
    cases ha; cases h; exact Resumes.legal hr hok
  · cases ha; exact legal_lsdesc hr hok h
  · -- setPhase at gct
    cases ha; cases h; exact Resumes.legal hr hok
  · cases ha; exact legal_gctRead hr hok h
  · -- blockLoop
    cases ha; cases h; exact legal_call (g := .block) hr rfl hok
  · cases ha; exact legal_blkClassify hr h
  · cases ha; exact legal_introducer hr hok h
  -- an image block
  · -- IMG.BLOCK
    cases ha; cases h; exact legal_call (g := .intro) hr rfl hok
  · cases ha; exact legal_imgSep hr h
  · cases ha; exact legal_imgDesc hr h
  · cases ha; exact legal_lctRead hr hok h
  · cases ha; exact legal_imgMcs hr hok h
  · -- IMG.DATA
    cases ha; cases h; exact legal_call (g := .data) hr rfl hok
  · -- SBK.READ
    cases ha; cases h; exact legal_call (g := .data) hr rfl hok
  · -- sub-blocks of the image data
    have hcur : ∀ u : State, u.pos ≤ srcLen u → u.cur = s.cur → StageOk .data u :=
      fun _ hp hc => ⟨hp, hc ▸ hok.2⟩
    cases ha; exact legal_sbLength hr rfl hcur hcur h
  · -- IMG.DECODE
    cases ha; cases h; exact legal_call (g := .decode) hr rfl hok
  · -- LZW.RUN
    cases ha; cases h; exact legal_call (g := .decode) hr rfl hok
  · cases ha; exact legal_lzwInit hr hok h
  · cases ha; exact legal_lzwNext hr hok h
  · cases ha; exact legal_lzwClassify hr hok h
  · cases ha; exact legal_imgCommit hr hok h
  -- an extension block
  · cases ha; exact legal_extBlock hr h
  · cases ha; exact legal_label hr h
  · -- SBK.READ
    cases ha; cases h; exact legal_call (g := .extData) hr rfl hok
  · -- sub-blocks of the extension
    cases ha; exact legal_sbLength (g := .extData) hr rfl (fun _ hp _ => hp) (fun _ hp _ => hp) h
  · -- storeExt
    cases ha; cases h; exact Resumes.legal hr hok
  · -- endLoad
    cases ha; cases h; exact hr.legal_complete
  -- the compositor
  · split at ha <;> cases ha; subst_vars; exact legal_cmpFrame hr hok h
  · split at ha <;> cases ha; subst_vars; exact legal_cmpSelect hr hok h
  · split at ha <;> cases ha; subst_vars; exact legal_cmpCheck hr hok h
  · split at ha <;> cases ha; subst_vars; exact legal_pixelLoop hr hok h
  · split at ha <;> cases ha
    rename_i e
    obtain ⟨rfl, rfl, rfl⟩ := e
    exact legal_cmpPix hr hok h
  · -- endComposite
    cases ha; cases h; exact hr.legal_complete
  · -- no line may stand there
    cases ha

/-- A command that is accepted only while `BUSY = 0` (R262). -/
theorem accepted_eq_next {s t : State} {o : Out} :
    accepted s o = .next t ↔ s.status.busy = false ∧ o = .next t := by
  unfold accepted
  split <;> simp [*]

/-- A command keeps the control invariant, busy or not: only NOP and RESET run while the engine is busy. -/
theorem legal_command {c : Byte} {s t : State} (hs : Legal s) (h : exec (decodeCmd c) s = .next t) :
    Legal t := by
  rcases decodeCmd_cases c with e | e | e | e | e <;> rw [e] at h
  · cases h; exact hs
  · obtain ⟨-, h⟩ := accepted_eq_next.mp h
    cases h
    exact (legal_iff_of_busy rfl).mpr ⟨rfl, .start, rfl, Nat.zero_le _, rfl⟩
  · obtain ⟨-, h⟩ := accepted_eq_next.mp h
    split at h <;> cases h
    · exact legal_raise hs.1
    · rename_i hk
      refine (legal_iff_of_busy rfl).mpr ⟨hs.1, .cmpSelect s.arg, ?_, ?_⟩
      · simp [afterAll, after]
      · exact Nat.lt_of_not_le (not_or.mp hk).2
  · cases h
    exact (legal_iff_of_idle rfl).mpr ⟨rfl, rfl, .inl rfl⟩
  · obtain ⟨-, h⟩ := accepted_eq_next.mp h
    cases h
    exact legal_raise hs.1

/-- Every step of the engine keeps the control invariant. -/
theorem legal_step {s t : State} (hs : Legal s) (h : step s = .next t) : Legal t := by
  by_cases hc : s.cmd ≠ 0 ∨ s.status.busy = false
  · rw [step_command hc] at h
    exact legal_command (hs.withCmd 0) h
  · have hr : running s = true := by simpa [running_iff, and_comm] using hc
    have hbusy := (running_iff.mp hr).1
    obtain ⟨himg, g, hctl, hok⟩ := (legal_iff_of_busy hbusy).mp hs
    cases hl : s.ctl with
    | nil => rw [step_nil hr hl] at h; cases h
    | cons l rest =>
      rw [hl] at hctl
      obtain ⟨g', ha, hrest⟩ := afterAll_cons.mp hctl
      rw [step_eq_runLine hr hl] at h
      exact legal_runLine (s := { s with ctl := rest }) ha ⟨himg, hbusy, hrest⟩ (stageOk_ctl.mpr hok) h

end Sys2Proof.Machine

/-- Settles O57: a step of the engine, at once or with a command written, keeps the control invariant, and the host's
other moves touch nothing of what an idle engine's state promises. -/
theorem legalKept : Obligations.LegalKept := by
  intro m s t hs h
  rcases move_cases h with ⟨-, h⟩ | ⟨c, -, -, h⟩ | ⟨hturn, -, _, _, _, _, _, rfl, -⟩
  · exact legal_step hs h
  · exact legal_step (hs.withCmd c) h
  · have hidle := (hostTurn_iff.mp hturn).1
    exact Iff.mpr (legal_iff_of_idle hidle) ((legal_iff_of_idle hidle).mp hs)
end

section
/-! PROOFS. The invariants of the LZW registers (R42) along a decode: LZW.INIT and the two lines of the decode loop. -/

open Sys2Proof Sys2Proof.Machine

namespace Sys2Proof.Machine

/-- `LZW.LIT` and `LZW.KNOWN` keep the invariants (R209, R210). -/
theorem lzwOk_lookUp {code : Nat} {s t : State} (hz : LzwOk s.lzw) (h : lookUp code s = .next t) :
    LzwOk t.lzw := by
  obtain ⟨v, hv, rfl⟩ := lookUp_eq_next.mp h
  exact lzwOk_dataCode hz (hz.valueOk_entry hv)

/-- The fix-up keeps the invariants while the dictionary has room for its entry (R211). -/
theorem lzwOk_takeFixUp {s t : State} (hz : LzwOk s.lzw) (hroom : s.lzw.nextCode < 4096)
    (h : takeFixUp s = .next t) : LzwOk t.lzw := by
  rcases takeFixUp_cases s with ⟨-, e⟩ | ⟨hlast, e⟩ <;> cases e.symm.trans h
  · exact hz
  · exact lzwOk_dataCode hz (hz.valueOk_fixUp hlast hroom)

/-- `LZW.DRIFT`, strict or tolerant, keeps the invariants while the dictionary is not full (R212). -/
theorem lzwOk_lzwDrift {code : Nat} {s t : State} (hz : LzwOk s.lzw) (hroom : s.lzw.nextCode < 4096)
    (h : execLzwDrift code s = .next t) : LzwOk t.lzw := by
  unfold execLzwDrift at h
  split at h
  · cases h; exact hz
  · exact lzwOk_takeFixUp (s := { s with status := { s.status with driftWarn := true } }) hz hroom h

/-- `LZW.INIT` without a fault has an admitted code size (R201). -/
theorem lzwOk_lzwInit {cs : Byte} {s t : State} (h : execLzwInit cs s = .next t)
    (hf : t.status.fault = false) : LzwOk t.lzw := by
  unfold execLzwInit at h
  split at h <;> cases h
  · cases hf
  · rename_i hcs
    obtain ⟨hlo, hhi⟩ := not_or.mp hcs
    exact lzwOk_initLzw _ (Nat.le_of_not_lt hlo) (Nat.le_of_not_lt hhi)

/-- The head of the decode loop: `LZW.EXH` writes `LZW_STATUS` only, `LZW.FETCH` the code and the cursor (R203, R204). -/
theorem lzwOk_lzwNext {s t : State} (hz : LzwOk s.lzw) (h : runLine .lzwNext s = .next t) : LzwOk t.lzw := by
  rw [runLine_lzwNext, decodeLzwNext] at h
  split at h
  · cases h; exact { hz with }
  · have hf : execLzwFetch s = .next t := h
    unfold execLzwFetch at hf
    split at hf <;> cases hf
    exact lzwOk_fetchCode hz s.acc

/-- The classes of a fetched code: one at or beyond `NEXT_CODE` is below `2^12`, so the dictionary has room (R117). -/
theorem lzwOk_lzwClassify {s t : State} (hz : LzwOk s.lzw) (hcode : s.lzw.code < 2 ^ s.lzw.codeLen)
    (h : runLine .lzwClassify s = .next t) : LzwOk t.lzw := by
  have hroom : ¬ s.lzw.code < s.lzw.nextCode → s.lzw.nextCode < 4096 := fun hn => by
    have hwidth : 2 ^ s.lzw.codeLen ≤ 2 ^ 12 := Nat.pow_le_pow_right (by decide) hz.width.2
    omega
  rw [runLine_lzwClassify, decodeLzw] at h
  split_ifs at h with hclear heoi hlit hknown hnext
  · cases h; exact lzwOk_clear hz
  · cases h; exact { hz with }
  · exact lzwOk_lookUp hz h
  · exact lzwOk_lookUp hz h
  · exact lzwOk_takeFixUp hz (hroom hknown) h
  · exact lzwOk_lzwDrift (code := s.lzw.code) hz (hroom hknown) h

end Sys2Proof.Machine

/-- Settles O35: LZW.INIT establishes the invariants, and each of the two lines of the decode loop keeps them. -/
theorem lzwInvariantsKept : Obligations.LzwInvariantsKept := by
  refine ⟨fun s t cs h hf => lzwOk_lzwInit h hf, fun s t rest hr hz h => ⟨fun hc => ?_, fun hc hcode => ?_⟩⟩ <;>
    rw [step_eq_runLine hr hc] at h
  · exact lzwOk_lzwNext (s := { s with ctl := rest }) hz h
  · exact lzwOk_lzwClassify (s := { s with ctl := rest }) hz hcode h
end

section
/-! PROOFS. What one operation, one pending line and one step can do to each part of the state: an inversion lemma for
each, from which the invariants of the whole machine follow. -/

open Sys2Proof Sys2Proof.Machine

namespace Sys2Proof.Machine

/-! ### The effect of a component -/

/-- What an operation of component `c` that is no command may do short of a fault: it writes its own registers and the
pending lines, it moves `POS` forward within `SRC`, it stores whole frames, and it writes bytes that `FB` has. -/
structure Effect (c : Component) (s u : State) : Prop where
  cmd : u.cmd = s.cmd
  inputs : u.arg = s.arg ∧ u.cfg = s.cfg ∧ u.src = s.src
  busy : u.status.busy = s.status.busy
  done : u.status.done = s.status.done
  fault : u.status.fault = s.status.fault
  valid : u.status.resultValid = s.status.resultValid
  report : u.faultKind = s.faultKind ∧ u.faultCause = s.faultCause ∧ u.faultPos = s.faultPos ∧
    u.faultAux = s.faultAux
  posLe : s.pos ≤ u.pos
  posIn : s.pos ≤ srcLen s → u.pos ≤ srcLen u
  posKept : c = .lzw ∨ c = .compositor → u.pos = s.pos
  lzw : c ≠ .lzw → u.lzw = s.lzw
  raster : c ≠ .compositor → u.row = s.row ∧ u.col = s.col ∧ u.ct = s.ct ∧ u.ctLen = s.ctLen
  data : c ≠ .subBlock → u.acc = s.acc ∧ u.sbLen = s.sbLen
  parser : c ≠ .blockParser → u.cur = s.cur ∧ u.mcsPos = s.mcsPos ∧ u.curLabel = s.curLabel ∧
    u.img.frames = s.img.frames ∧ u.img.exts = s.img.exts
  screen : c ≠ .demuxer → u.peeked = s.peeked ∧ u.img.version = s.img.version ∧
    u.img.lsdWidth = s.img.lsdWidth ∧ u.img.lsdHeight = s.img.lsdHeight ∧
    u.img.lsdFlags = s.img.lsdFlags ∧ u.img.bgIndex = s.img.bgIndex ∧
    u.img.aspect = s.img.aspect ∧ u.img.gct = s.img.gct
  frames : (∀ f ∈ s.img.frames, idxOk f = true) → ∀ f ∈ u.img.frames, idxOk f = true
  fbWf : s.fb.wf = true → u.fb.wf = true
  fbKeys : fbSized s = true → u.fb.map Prod.fst = s.fb.map Prod.fst
  stale : u.fbStale = s.fbStale

theorem Effect.refl (c : Component) (s : State) : Effect c s s := by
  constructor <;> simp

/-- A read that answers moves `POS` past its bytes, for a component that may read `SRC` (R145). -/
theorem Effect.advance {c : Component} {s u : State} {n : Nat} (he : Effect c s u)
    (hc : ¬ (c = .lzw ∨ c = .compositor)) (hp : u.pos + n ≤ srcLen u) :
    Effect c s { u with pos := u.pos + n } :=
  { he with
    posLe := Nat.le_trans he.posLe (Nat.le_add_right _ _)
    posIn := fun _ => hp
    posKept := fun h => absurd h hc }

/-- The next states of an operation of component `c` that is no command: its effect, or a fault after part of it. -/
inductive Ran (c : Component) (s : State) : State → Prop where
  | done {t : State} (h : Effect c s t) : Ran c s t
  | fault {u : State} (h : Effect c s u) (cause : Cause) (pos aux : Nat) : Ran c s (raise cause pos aux u)

/-- A read that fails is a fault, one that answers goes on behind its bytes: for `readByte_cases` and its like. -/
theorem ran_read {α : Type} {c : Component} {n : Nat} {s u t : State} {v : α} {r : Res α} {f : α → State → Out}
    (hread : (u.pos + n ≤ srcLen u ∧ r = .ok v { u with pos := u.pos + n }) ∨
      (srcLen u < u.pos + n ∧ r = .trap (truncated n u)))
    (h : r.andThen f = .next t) (hc : ¬ (c = .lzw ∨ c = .compositor)) (he : Effect c s u)
    (hok : Effect c s { u with pos := u.pos + n } → f v { u with pos := u.pos + n } = .next t → Ran c s t) :
    Ran c s t := by
  rcases hread with ⟨hp, rfl⟩ | ⟨-, rfl⟩
  · exact hok (he.advance hc hp) h
  · cases h; exact .fault he _ _ _

/-- A peek that fails is a fault, one that answers goes on where it was (R142). -/
theorem ran_peek {c : Component} {s t : State} {f : Byte → State → Out}
    (h : (peekByte s).andThen f = .next t) (hok : f (srcByte s s.pos) s = .next t → Ran c s t) : Ran c s t := by
  rcases peekByte_cases s with ⟨-, e⟩ | ⟨-, e⟩ <;> rw [e] at h
  · exact hok h
  · cases h; exact .fault (.refl c s) _ _ _

/-! ### The operations of each component -/

/-- The primitives of the byte source write the returned result (R141 to R144). -/
theorem ran_byteSource {i : Instr} {s t : State} (hi : component i = .byteSource) (h : exec i s = .next t) :
    Ran .byteSource s t := by
  have he := Effect.refl .byteSource s
  cases i <;> cases hi
  case rd8 => exact ran_read (readByte_cases s) h (by decide) he fun he h => by cases h; exact .done { he with }
  case pk8 => exact ran_peek h fun h => by cases h; exact .done { he with }
  case rd16 => exact ran_read (readHalf_cases s) h (by decide) he fun he h => by cases h; exact .done { he with }
  case rdn n => exact ran_read (readBytes_cases n s) h (by decide) he fun he h => by cases h; exact .done { he with }

/-- The sub-block reader writes `ACC` and `SB_LEN` (R150 to R152). -/
theorem ran_subBlock {i : Instr} {s t : State} (hi : component i = .subBlock) (h : exec i s = .next t) :
    Ran .subBlock s t := by
  have he := Effect.refl .subBlock s
  cases i <;> cases hi
  case sbkRead => cases h; exact .done { he with data := absurd rfl }
  case sbkData n =>
    refine ran_read (readByte_cases s) h (by decide) he fun he h => ?_
    refine ran_read (readBytes_cases _ _) h (by decide) { he with data := absurd rfl } fun he h => ?_
    cases h; exact .done { he with data := absurd rfl }
  case sbkTerm =>
    refine ran_read (readByte_cases s) h (by decide) he fun he h => ?_
    cases h; exact .done { he with data := absurd rfl }

/-- A legal header writes `VERSION` (R161). -/
theorem ran_header {magic : BitVec 48} {s t : State} (h : header magic s = .next t) : Ran .demuxer s t := by
  refine ran_read (readBytes_cases 6 s) h (by decide) (.refl .demuxer s) fun he h => ?_
  cases h; exact .done { he with screen := absurd rfl }

/-- `LSDESC` writes the screen descriptor, read after read (R162). -/
theorem ran_lsdesc {s t : State} (h : execLsdesc s = .next t) : Ran .demuxer s t := by
  refine ran_read (readHalf_cases _) h (by decide) (.refl .demuxer s) fun he h => ?_
  refine ran_read (readHalf_cases _) h (by decide) { he with screen := absurd rfl } fun he h => ?_
  refine ran_read (readByte_cases _) h (by decide) { he with screen := absurd rfl } fun he h => ?_
  refine ran_read (readByte_cases _) h (by decide) { he with screen := absurd rfl } fun he h => ?_
  refine ran_read (readByte_cases _) h (by decide) { he with screen := absurd rfl } fun he h => ?_
  cases h; exact .done { he with screen := absurd rfl }

/-- The demuxer writes `PEEKED`, `VERSION`, the screen descriptor and the global table (R160 to R171). -/
theorem ran_demuxer {i : Instr} {s t : State} (hi : component i = .demuxer) (h : exec i s = .next t) :
    Ran .demuxer s t := by
  have he := Effect.refl .demuxer s
  cases i <;> cases hi
  case demux | blkImg | blkExt | blkTrl => cases h; exact .done { he with }
  case hdr87a | hdr89a => exact ran_header h
  case hdrBad m =>
    refine ran_read (readBytes_cases 6 s) h (by decide) he fun he h => ?_
    cases h; exact .fault he _ _ _
  case lsdesc => exact ran_lsdesc h
  case gctRead =>
    simp only [exec, execGctRead] at h
    split at h
    · refine ran_read (readBytes_cases _ s) h (by decide) he fun he h => ?_
      cases h; exact .done { he with screen := absurd rfl }
    · cases h; exact .done { he with screen := absurd rfl }
  case blkClassify =>
    refine ran_peek h fun h => ?_
    cases h; exact .done { he with screen := absurd rfl }
  case blkUnk b => cases h; exact .fault he _ _ _

/-- `IMG.DESC` writes `CUR`, read after read (R182). -/
theorem ran_imgDesc {s t : State} (h : execImgDesc s = .next t) : Ran .blockParser s t := by
  refine ran_read (readHalf_cases _) h (by decide) (.refl .blockParser s) fun he h => ?_
  refine ran_read (readHalf_cases _) h (by decide) { he with parser := absurd rfl } fun he h => ?_
  refine ran_read (readHalf_cases _) h (by decide) { he with parser := absurd rfl } fun he h => ?_
  refine ran_read (readHalf_cases _) h (by decide) { he with parser := absurd rfl } fun he h => ?_
  refine ran_read (readByte_cases _) h (by decide) { he with parser := absurd rfl } fun he h => ?_
  cases h; exact .done { he with parser := absurd rfl }

/-- `IMG.COMMIT` stores a frame whose pixels it has counted (R187). -/
theorem ran_imgCommit {s t : State} (h : execImgCommit s = .next t) : Ran .blockParser s t := by
  have he := Effect.refl .blockParser s
  unfold execImgCommit at h
  split at h <;> cases h
  · rename_i hlen
    refine .done { he with parser := absurd rfl, frames := fun hs f hf => ?_ }
    rcases List.mem_append.mp hf with hf | hf
    · exact hs f hf
    · cases List.mem_singleton.mp hf
      exact beq_iff_eq.mpr hlen
  · exact .fault he _ _ _

/-- The five label rows write `CUR_LABEL` (R190, R191). -/
theorem ran_labelled {l : Byte} {s t : State} (h : labelled l s = .next t) : Ran .blockParser s t := by
  refine ran_read (readByte_cases s) h (by decide) (.refl .blockParser s) fun he h => ?_
  cases h; exact .done { he with parser := absurd rfl }

/-- The block parsers write `CUR`, `MCS_POS`, `CUR_LABEL`, `FRAMES` and `EXTS` (R180 to R191). -/
theorem ran_blockParser {i : Instr} {s t : State} (hi : component i = .blockParser) (h : exec i s = .next t) :
    Ran .blockParser s t := by
  have he := Effect.refl .blockParser s
  cases i <;> cases hi
  case imgBlock | imgData | imgDecode => cases h; exact .done { he with }
  case imgSep =>
    refine ran_read (readByte_cases s) h (by decide) he fun he h => ?_
    split at h <;> cases h
    · exact .done he
    · exact .fault he _ _ _
  case imgDesc => exact ran_imgDesc h
  case lctRead =>
    simp only [exec, execLctRead] at h
    split at h
    · refine ran_read (readBytes_cases _ s) h (by decide) he fun he h => ?_
      cases h; exact .done { he with parser := absurd rfl }
    · cases h; exact .done { he with parser := absurd rfl }
  case imgMcs =>
    refine ran_read (readByte_cases _) h (by decide) { he with parser := absurd rfl } fun he h => ?_
    cases h; exact .done { he with parser := absurd rfl }
  case imgCommit => exact ran_imgCommit h
  case extBlock =>
    refine ran_read (readByte_cases s) h (by decide) he fun he h => ?_
    cases h; exact .done { he with }
  case extPtx | extGce | extCom | extApp | extOther => exact ran_labelled h

/-- A code whose value is in the dictionary (R209, R210). -/
theorem ran_lookUp {code : Nat} {s t : State} (h : lookUp code s = .next t) : Ran .lzw s t := by
  obtain ⟨v, -, rfl⟩ := lookUp_eq_next.mp h
  exact .done { Effect.refl .lzw s with lzw := absurd rfl }

/-- The fix-up, with `DRIFT_WARN` set before it or not (R211, R212). -/
theorem ran_takeFixUp {s u t : State} (h : takeFixUp u = .next t) (he : Effect .lzw s u) : Ran .lzw s t := by
  rcases takeFixUp_cases u with ⟨-, e⟩ | ⟨-, e⟩ <;> cases e.symm.trans h
  · exact .fault he _ _ _
  · exact .done { he with lzw := absurd rfl }

/-- The LZW decoder writes the LZW registers and `DRIFT_WARN` (R200 to R217). -/
theorem ran_lzw {i : Instr} {s t : State} (hi : component i = .lzw) (h : exec i s = .next t) :
    Ran .lzw s t := by
  have he := Effect.refl .lzw s
  cases i <;> cases hi
  case lzwRun => cases h; exact .done { he with }
  case lzwInit cs =>
    simp only [exec, execLzwInit] at h
    split at h <;> cases h
    · exact .fault he _ _ _
    · exact .done { he with lzw := absurd rfl }
  case lzwFetch =>
    simp only [exec, execLzwFetch] at h
    split at h <;> cases h
    exact .done { he with lzw := absurd rfl }
  case lzwReset | lzwExh | lzwClear | lzwEoi => cases h; exact .done { he with lzw := absurd rfl }
  case lzwLit | lzwKnown => exact ran_lookUp h
  case lzwKwkwk => exact ran_takeFixUp h he
  case lzwDrift code =>
    simp only [exec, execLzwDrift] at h
    split at h
    · cases h; exact .fault he _ _ _
    · exact ran_takeFixUp h { he with }

/-- A write within a buffer of the right length keeps its offsets. -/
theorem writeBytes_keys_of_sized {s : State} {a : Nat} {bs : List Byte} (hs : fbSized s = true)
    (ha : a + bs.length ≤ fbSize s) : (s.fb.writeBytes a bs).map Prod.fst = s.fb.map Prod.fst :=
  Memory.writeBytes_keys bs s.fb a (fbSized_wf hs) fun i hi => by
    rw [beq_iff_eq.mp hs, List.mem_range]
    omega

/-- The compositor writes its table and, within the canvas, the bytes of `FB` (R240 to R243). -/
theorem ran_compositor {i : Instr} {s t : State} (hi : component i = .compositor) (h : exec i s = .next t) :
    Ran .compositor s t := by
  have he := Effect.refl .compositor s
  cases i <;> cases hi
  case cmpFrame k =>
    obtain ⟨fr, -, h⟩ := withFrame_eq_next.mp h
    cases h; exact .done { he with }
  case cmpSelect k =>
    obtain ⟨fr, -, ⟨-, _, -, rfl⟩ | ⟨-, _, -, rfl⟩ | ⟨-, -, rfl⟩⟩ := cmpSelect_eq_next.mp h
    · exact .done { he with raster := absurd rfl }
    · exact .done { he with raster := absurd rfl }
    · exact .fault he _ _ _
  case cmpCheck k =>
    obtain ⟨fr, -, h⟩ := withFrame_eq_next.mp h
    split at h <;> cases h
    · exact .done he
    · exact .fault he _ _ _
  case cmpPix k r c =>
    obtain ⟨fr, i, -, -, ⟨-, rfl⟩ | ⟨-, e, -, hin, rfl⟩⟩ := cmpPix_eq_next.mp h
    · exact .fault he _ _ _
    · exact .done { he with
        fbWf := Memory.writeBytes_wf _ s.fb _
        fbKeys := fun hs => writeBytes_keys_of_sized hs hin }

/-- Every operation that is no command has the effect of its component, or faults after part of it. -/
theorem exec_ran {i : Instr} {s t : State} (hi : component i ≠ .command) (h : exec i s = .next t) :
    Ran (component i) s t := by
  cases hc : component i with
  | byteSource => exact ran_byteSource hc h
  | subBlock => exact ran_subBlock hc h
  | demuxer => exact ran_demuxer hc h
  | blockParser => exact ran_blockParser hc h
  | lzw => exact ran_lzw hc h
  | compositor => exact ran_compositor hc h
  | command => exact absurd hc hi

/-! ### Commands, lines and steps -/

/-- The next states of an operation or a pending line: the effect of a component or a fault, the end of a command, the
start of LOAD or COMPOSITE, or, where `resets` holds, RESET. -/
inductive Taken (resets : Prop) (s : State) : State → Prop where
  | ran {c : Component} {t : State} (h : Ran c s t) : Taken resets s t
  | ended (h : s.status.busy = true) (valid : Bool) :
    Taken resets s (complete { s with status := { s.status with resultValid := valid } })
  | load (h : s.status.busy = false) : Taken resets s (startLoad s)
  | composite (h : s.status.busy = false) : Taken resets s (startComposite s)
  | reset (h : resets) : Taken resets s { State.reset with src := s.src, fb := s.fb, fbStale := s.fbStale }

theorem Taken.done {resets : Prop} {c : Component} {s t : State} (h : Effect c s t) : Taken resets s t :=
  .ran (.done h)

theorem Taken.fault {resets : Prop} {s : State} (cause : Cause) (pos aux : Nat) :
    Taken resets s (raise cause pos aux s) :=
  .ran (.fault (.refl .byteSource s) cause pos aux)

theorem exec_taken {i : Instr} {s t : State} (h : exec i s = .next t) : Taken (i = .cmdReset) s t := by
  by_cases hi : component i = .command
  case neg => exact .ran (exec_ran hi h)
  case pos =>
    cases i <;> cases hi
    case cmdNop => cases h; exact .done (.refl .byteSource s)
    case cmdLoad =>
      obtain ⟨hb, h⟩ := accepted_eq_next.mp h
      cases h; exact .load hb
    case cmdComposite =>
      obtain ⟨hb, h⟩ := accepted_eq_next.mp h
      split at h <;> cases h
      · exact .fault _ _ _
      · exact .composite hb
    case cmdReset => cases h; exact .reset rfl
    case cmdReserved code =>
      obtain ⟨-, h⟩ := accepted_eq_next.mp h
      cases h; exact .fault _ _ _

/-- Only the command space decodes to RESET (R116). -/
theorem decode_eq_cmdReset {p : Point} {s : State} (h : decode p (bytesAt p s) = .ok .cmdReset) :
    s.cmd = 0x03 := by
  cases p with
  | header =>
    obtain ⟨m, e⟩ := decode_header_ok h
    rcases decodeMagic_cases m with e' | e' | e' <;> rw [e'] at e <;> cases e
  | introducer =>
    rcases decodeIntroducer_cases s.peeked with e | e | e | e <;> simp [decode, bytesAt, e] at h
  | imageByte0 =>
    cases hb : s.src.drop s.pos <;> rw [bytesAt, hb] at h
    · cases h
    · simp only [decode] at h
      split at h <;> cases h
  | label =>
    obtain ⟨l, e⟩ := decode_label_ok h
    unfold decodeLabel at e
    split_ifs at e
  | sbLength =>
    obtain ⟨n, e⟩ := decode_sbLength_ok h
    rcases decodeSbLength_cases n with e' | e' <;> rw [e'] at e <;> cases e
  | cmd =>
    simp only [decode, bytesAt, Except.ok.injEq] at h
    unfold decodeCmd at h
    split_ifs at h with h0 h1 h2 h3
    exact h3

/-- A byte that is no separator is there to be consumed (R181). -/
theorem pos_lt_of_badSeparator {p : Point} {s : State} {b : Byte}
    (h : decode p (bytesAt p s) = .error (.badSeparator b)) : s.pos + 1 ≤ srcLen s := by
  have hread : s.src.drop s.pos ≠ [] := by
    rintro hnil
    cases p <;> simp [bytesAt, hnil, decode] at h
  simpa [srcLen, Nat.succ_le_iff] using hread

theorem Taken.mono {r r' : Prop} {s t : State} (h : Taken r s t) (hr : r → r') : Taken r' s t := by
  cases h with
  | ran h => exact .ran h
  | ended hb valid => exact .ended hb valid
  | load hb => exact .load hb
  | composite hb => exact .composite hb
  | reset h => exact .reset (hr h)

/-- An operation that the LZW registers select is no command (R117, R204). -/
theorem component_decodeLzw (clear eoi next code : Nat) : component (decodeLzw clear eoi next code) = .lzw := by
  unfold decodeLzw
  split_ifs <;> rfl

theorem component_decodeLzwNext (bits len : Nat) : component (decodeLzwNext bits len) = .lzw := by
  unfold decodeLzwNext
  split_ifs <;> rfl

/-- What a running engine's pending line can do, once it has been taken off. -/
theorem runLine_taken {l : Line} {s t : State} (hb : s.status.busy = true) (h : runLine l s = .next t) :
    Taken (s.cmd = 0x03 ∨ l = .run .cmdReset) s t := by
  cases l with
  | run i => exact (exec_taken h).mono fun e => .inr (e ▸ rfl)
  | setPhase p => cases h; exact .done { Effect.refl .demuxer s with }
  | decodeAt p =>
    simp only [runLine, fetchLine, fetchAt] at h
    cases hd : decode p (bytesAt p s) with
    | ok i => rw [hd] at h; exact (exec_taken h).mono fun e => .inl (decode_eq_cmdReset (e ▸ hd))
    | error e =>
      rw [hd] at h
      cases e with
      | short n => cases h; exact .fault _ _ _
      | badSeparator b =>
        cases h
        exact .ran (.fault ((Effect.refl .blockParser s).advance (by decide) (pos_lt_of_badSeparator hd)) _ _ _)
  | blockLoop => cases h; exact .done { Effect.refl .demuxer s with }
  | storeExt => cases h; exact .done { Effect.refl .blockParser s with parser := absurd rfl }
  | lzwNext => exact .ran (ran_lzw (component_decodeLzwNext _ _) h)
  | lzwClassify => exact .ran (ran_lzw (component_decodeLzw _ _ _ _) h)
  | endLoad => cases h; exact .ended hb true
  | pixelLoop k r c =>
    obtain ⟨fr, -, ⟨-, -, rfl⟩ | ⟨-, -, rfl⟩ | ⟨-, rfl⟩⟩ := pixelLoop_eq_next.mp h
    · exact .done { Effect.refl .compositor s with raster := absurd rfl }
    · exact .done { Effect.refl .compositor s with }
    · exact .done (.refl .compositor _)
  | endComposite => cases h; exact .ended hb s.status.resultValid

/-- The next step is a RESET: the command stands in `CMD`, or as a pending line, where no legal state has it. -/
def resetNext (s : State) : Prop :=
  s.cmd = 0x03 ∨ s.status.busy = true ∧ ∃ rest, s.ctl = .run .cmdReset :: rest

/-- What a step can do, from the state in which it runs what it has fetched. -/
theorem step_taken {s t : State} (h : step s = .next t) :
    ∃ cmd ctl, Taken (resetNext s) { s with cmd := cmd, ctl := ctl } t := by
  by_cases hc : s.cmd ≠ 0 ∨ s.status.busy = false
  · rw [step_command hc] at h
    refine ⟨0, s.ctl, (exec_taken h).mono fun e => .inl ?_⟩
    exact decode_eq_cmdReset (p := .cmd) (congrArg Except.ok e)
  · have hr : running s = true := by simpa [running_iff, and_comm] using hc
    have hb := (running_iff.mp hr).1
    cases hl : s.ctl with
    | nil => rw [step_nil hr hl] at h; cases h
    | cons l rest =>
      rw [step_eq_runLine hr hl] at h
      have ht := runLine_taken (s := { s with ctl := rest }) hb h
      exact ⟨s.cmd, rest, ht.mono (Or.imp_right fun e => ⟨hb, rest, e ▸ hl⟩)⟩

/-- What a move of a run can do: what a step can, or, at the host's turn, a write of `ARG`, `CFG`, `SRC` or `FB`. -/
theorem move_taken {m : Option HostAct} {s t : State} (h : move m s = .next t) :
    (∃ cmd ctl, Taken (m = some (.cmd 0x03) ∨ resetNext s) { s with cmd := cmd, ctl := ctl } t) ∨
    (∃ arg cfg src fb stale, t = { s with arg := arg, cfg := cfg, src := src, fb := fb, fbStale := stale } ∧
      (s.fb.wf = true → fb.wf = true) ∧
      ((∃ bs, m = some (.supplyFb bs)) ∨ (∃ a bs, m = some (.writeFb a bs)) ∨ fb = s.fb ∧ stale = s.fbStale)) := by
  rcases move_cases h with ⟨-, h⟩ | ⟨c, rfl, -, h⟩ | ⟨-, -, hw⟩
  · obtain ⟨cmd, ctl, ht⟩ := step_taken h
    exact .inl ⟨cmd, ctl, ht.mono .inr⟩
  · obtain ⟨cmd, ctl, ht⟩ := step_taken h
    refine .inl ⟨cmd, ctl, ht.mono ?_⟩
    rintro (hc | hb)
    · exact .inl (congrArg (some ∘ HostAct.cmd) hc)
    · exact .inr (.inr hb)
  · exact .inr hw

end Sys2Proof.Machine
end

section
/-! PROOFS. The rules of the whole machine that follow from what an operation, a step and a move can do: components,
the cursor, stored frames, the output buffer and the report. -/

open Sys2Proof Sys2Proof.Machine

namespace Sys2Proof.Machine

/-! ### Stored frames (R35) -/

theorem Taken.frames {r : Prop} {s t : State} (h : Taken r s t) (hs : ∀ f ∈ s.img.frames, idxOk f = true) :
    ∀ f ∈ t.img.frames, idxOk f = true := by
  cases h with
  | ran h =>
    cases h with
    | done he => exact he.frames hs
    | fault he => exact he.frames hs
  | ended | composite => exact hs
  | load | reset => exact fun f hf => absurd hf List.not_mem_nil

/-! ### The output buffer (R44, R78) -/

theorem Taken.fbWf {r : Prop} {s t : State} (h : Taken r s t) (hs : s.fb.wf = true) : t.fb.wf = true := by
  cases h with
  | ran h =>
    cases h with
    | done he => exact he.fbWf hs
    | fault he => exact he.fbWf hs
  | ended | load | composite | reset => exact hs

theorem Taken.fbKeys {r : Prop} {s t : State} (h : Taken r s t) (hs : fbSized s = true) :
    t.fb.map Prod.fst = s.fb.map Prod.fst := by
  cases h with
  | ran h =>
    cases h with
    | done he => exact he.fbKeys hs
    | fault he => exact he.fbKeys hs
  | ended | load | composite | reset => rfl

/-- No operation fills `FB`, so none ends the host's duty to (R330 item 6; log 26). -/
theorem Taken.stale {r : Prop} {s t : State} (h : Taken r s t) (hs : s.fbStale = true) : t.fbStale = true := by
  cases h with
  | ran h =>
    cases h with
    | done he => exact he.stale.trans hs
    | fault he => rw [raise_fbStale, he.stale, hs, Bool.true_or]
  | ended | load | composite | reset => exact hs

/-- A write at the end of a memory's addresses is appended. -/
theorem cellPut_append {α : Type} {m : List (Nat × α)} {a : Nat} {v : α} (h : ∀ x ∈ m, x.1 < a) :
    cellPut m a v = m ++ [(a, v)] := by
  induction m with
  | nil => rfl
  | cons x rest ih =>
    have hx : x.1 < a := h x List.mem_cons_self
    rw [cellPut, if_neg (by omega), if_neg (by omega), ih fun y hy => h y (List.mem_cons_of_mem x hy)]
    rfl

/-- Bytes written at the end of a memory's addresses come after them. -/
theorem Memory.writeBytes_append_keys {m : Memory} {a : Nat} (bs : List Byte) (h : ∀ x ∈ m, x.1 < a) :
    (m.writeBytes a bs).map Prod.fst = m.map Prod.fst ++ List.range' a bs.length := by
  induction bs generalizing m a with
  | nil => simp [Memory.writeBytes]
  | cons b rest ih =>
    have happ : m.write a b = m ++ [(a, b)] := cellPut_append h
    have hlt : ∀ x ∈ m ++ [(a, b)], x.1 < a + 1 := fun x hx => by
      rcases List.mem_append.mp hx with hx | hx
      · exact Nat.lt_succ_of_lt (h x hx)
      · cases List.mem_singleton.mp hx; exact Nat.lt_succ_self a
    rw [Memory.writeBytes, happ, ih hlt]
    simp [List.range'_succ]

/-- A buffer that the host supplies has the offsets below its length. -/
theorem Memory.supplied_keys (bs : List Byte) :
    (Memory.writeBytes [] 0 bs).map Prod.fst = List.range bs.length := by
  rw [Memory.writeBytes_append_keys bs (by simp), List.range_eq_range']
  rfl

/-- An address that has a byte is one of the memory's. -/
theorem Memory.mem_keys_of_read {m : Memory} {a : Nat} (h : (m.read a).isSome = true) :
    a ∈ m.map Prod.fst := by
  induction m with
  | nil => cases h
  | cons x rest ih =>
    obtain ⟨k, v⟩ := x
    simp only [Memory.read, cellGet] at h
    split_ifs at h with hk hlt
    · exact hk ▸ List.mem_cons_self
    · cases h
    · exact List.mem_cons_of_mem k (ih h)

/-- The host keeps the offsets of a buffer of the right length: it supplies one of that length, and it writes bytes that
are there. -/
theorem move_fbKeys {m : Option HostAct} {s t : State} (h : move m s = .next t) (hs : fbSized s = true) :
    t.fb.map Prod.fst = s.fb.map Prod.fst := by
  rcases move_taken h with ⟨cmd, ctl, ht⟩ | ⟨_, _, _, fb, _, rfl, -, ⟨bs, rfl⟩ | ⟨a, bs, rfl⟩ | ⟨rfl, -⟩⟩
  · exact ht.fbKeys hs
  · obtain ⟨-, h⟩ := hostMove_eq_next.mp h
    split at h <;> cases h
    rename_i hlen
    rw [Memory.supplied_keys, hlen.2, beq_iff_eq.mp hs]
  · obtain ⟨-, h⟩ := hostMove_eq_next.mp h
    split at h <;> cases h
    rename_i hin
    exact Memory.writeBytes_keys bs s.fb a (fbSized_wf hs) fun i hi =>
      Memory.mem_keys_of_read (Bool.and_eq_true_iff.mp (hin i hi)).1
  · rfl

/-- At the host's turn the step that takes a command is the command itself (log 4). -/
theorem step_withCmd {c : Byte} {s : State} (ht : hostTurn s = true) :
    step { s with cmd := c } = exec (decodeCmd c) s := by
  obtain ⟨hb, hc⟩ := hostTurn_iff.mp ht
  have he : { s with cmd := 0 } = s := congrArg (fun d => { s with cmd := d }) hc.symm
  calc step { s with cmd := c } = exec (decodeCmd c) { s with cmd := 0 } := step_command (.inr hb)
    _ = exec (decodeCmd c) s := congrArg (exec (decodeCmd c)) he

/-- A command other than RESET is a move that the host has at its turn only (R262). -/
theorem hostWriteCmd_eq_hostMove {c : Byte} {s : State} (hc : c ≠ 0x03) :
    hostWriteCmd c s = hostMove s
      (if needsFb c s && !fbSized s then .refused .fbLength
      else if needsFb c s && s.fbStale then .refused .fbStale
      else step { s with cmd := c }) := if_neg hc

/-- A COMPOSITE that the host starts has a buffer of the right length that has been filled (R324, R330 item 6). -/
theorem composite_started {s t : State} (h : hostWriteCmd 0x02 s = .next t)
    (hres : s.status.resultValid = true) (harg : s.arg < nFrames s) :
    fbSized t = true ∧ t.fbStale = false := by
  have hneed : needsFb 0x02 s = true := by simp [needsFb, hres, harg]
  obtain ⟨hturn, hmove⟩ := hostMove_eq_next.mp (hostWriteCmd_eq_hostMove (c := 0x02) (by decide) ▸ h)
  rw [hneed, Bool.true_and, Bool.true_and] at hmove
  split_ifs at hmove with hsized hstale
  rw [step_withCmd hturn] at hmove
  obtain ⟨-, hstart⟩ := accepted_eq_next.mp hmove
  rw [if_neg (not_or.mpr ⟨by simp [hres], Nat.not_le.mpr harg⟩)] at hstart
  cases hstart
  exact ⟨Bool.eq_true_of_not_eq_false fun hf => hsized (hf ▸ rfl), eq_false_of_ne_true hstale⟩

/-! ### The report (R25, R26) -/

theorem Taken.statusExclusive {r : Prop} {s t : State} (h : Taken r s t)
    (hs : statusExclusive s.status = true) : statusExclusive t.status = true := by
  cases h with
  | ran h =>
    cases h with
    | done he => simpa only [Machine.statusExclusive, he.busy, he.done, he.fault] using hs
    | fault he => rfl
  | ended hb =>
    have hf : s.status.fault = false := by simp_all [Machine.statusExclusive]
    simp [Machine.statusExclusive, hf]
  | load | composite | reset => rfl

theorem Taken.reportOk {r : Prop} {s t : State} (h : Taken r s t) (hs : reportOk s) : reportOk t := by
  cases h with
  | ran h =>
    cases h with
    | done he =>
      obtain ⟨hkind, hcause, hpos, haux⟩ := he.report
      simpa only [Machine.reportOk, he.fault, hkind, hcause, hpos, haux] using hs
    | fault he cause => exact ⟨cause, rfl, rfl⟩
  | ended => exact hs
  | load | composite | reset => exact ⟨rfl, rfl, rfl, rfl⟩

/-- But for RESET, one of `BUSY`, `DONE`, `FAULT` stays set. -/
theorem Taken.statusSet {r : Prop} {s t : State} (h : Taken r s t) (hr : ¬ r)
    (hs : statusSet s.status = true) : statusSet t.status = true := by
  cases h with
  | ran h =>
    cases h with
    | done he => simpa only [Machine.statusSet, he.busy, he.done, he.fault] using hs
    | fault he => rfl
  | ended | load | composite => rfl
  | reset h => exact absurd h hr

/-- No legal state has RESET as a pending line. -/
theorem Legal.not_resetNext {s : State} (hs : Legal s) (hc : s.cmd ≠ 0x03) : ¬ resetNext s := by
  rintro (h | ⟨hb, rest, hl⟩)
  · exact hc h
  · obtain ⟨-, g, hctl, -⟩ := (legal_iff_of_busy hb).mp hs
    rw [hl] at hctl
    obtain ⟨g', ha, -⟩ := afterAll_cons.mp hctl
    cases g <;> cases ha

/-- A command other than NOP and RESET starts an operation or is a fault (R25). -/
theorem statusSet_of_command {c : Byte} {s t : State} (h0 : c ≠ 0x00) (h3 : c ≠ 0x03)
    (h : exec (decodeCmd c) s = .next t) : statusSet t.status = true := by
  unfold decodeCmd at h
  split_ifs at h with c0 c1 c2
  · exact absurd c0 h0
  · cases (accepted_eq_next.mp h).2; rfl
  · have hstart := (accepted_eq_next.mp h).2
    split at hstart <;> cases hstart <;> rfl
  · cases (accepted_eq_next.mp h).2; rfl

/-- The host's write of such a command leaves one of `BUSY`, `DONE`, `FAULT` set. -/
theorem statusSet_of_write {c : Byte} {s t : State} (h0 : c ≠ 0x00) (h3 : c ≠ 0x03)
    (h : hostWriteCmd c s = .next t) : statusSet t.status = true := by
  obtain ⟨hturn, hmove⟩ := hostMove_eq_next.mp (hostWriteCmd_eq_hostMove h3 ▸ h)
  split_ifs at hmove
  rw [step_withCmd hturn] at hmove
  exact statusSet_of_command h0 h3 hmove

end Sys2Proof.Machine

/-- Settles O51: each operation has the effect of its component, or faults after part of it, and a fault writes no
register of a component. -/
theorem componentsSeparate : Obligations.ComponentsSeparate := by
  intro i s t h hi
  cases exec_ran hi h with
  | done he => exact ⟨he.lzw, he.raster, he.data, he.parser, he.screen, he.posKept, he.cmd⟩
  | fault he => exact ⟨he.lzw, he.raster, he.data, he.parser, he.screen, he.posKept, he.cmd⟩

/-- Settles O52: only reads move `POS`, and LOAD and RESET put it to 0. -/
theorem posMonotone : Obligations.PosMonotone := by
  intro i s t h
  by_cases hi : component i = .command
  case neg =>
    refine ⟨fun _ => ?_, fun hc => ?_⟩
    · cases exec_ran hi h with
      | done he => exact ⟨he.posLe, he.posIn⟩
      | fault he => exact ⟨he.posLe, he.posIn⟩
    · rcases hc with rfl | rfl <;> exact absurd rfl hi
  case pos =>
    cases i <;> cases hi
    case cmdNop => cases h; exact ⟨fun _ => ⟨Nat.le_refl _, id⟩, by simp⟩
    case cmdLoad =>
      obtain ⟨-, h⟩ := accepted_eq_next.mp h
      cases h; exact ⟨by simp, fun _ => rfl⟩
    case cmdComposite =>
      obtain ⟨-, h⟩ := accepted_eq_next.mp h
      split at h <;> cases h <;> exact ⟨fun _ => ⟨Nat.le_refl _, id⟩, by simp⟩
    case cmdReset => cases h; exact ⟨by simp, fun _ => rfl⟩
    case cmdReserved code =>
      obtain ⟨-, h⟩ := accepted_eq_next.mp h
      cases h; exact ⟨fun _ => ⟨Nat.le_refl _, id⟩, by simp⟩

/-- Settles O53: only `IMG.COMMIT` stores a frame, and the host writes no frame. -/
theorem storedFramesWhole : Obligations.StoredFramesWhole := by
  intro m s t h hs
  rcases move_taken h with ⟨cmd, ctl, ht⟩ | ⟨_, _, _, _, _, rfl, -⟩
  · exact ht.frames hs
  · exact hs

/-- Settles O54: `CMP.PIX` and the host write `FB` within the buffer, the host alone fills it. -/
theorem outputCanonical : Obligations.OutputCanonical := by
  refine ⟨fun m s t h hs => ?_, fun i s t h hs => (exec_taken h).fbKeys hs, fun m s t h => move_fbKeys h,
    fun s t h hok => composite_started h hok.1 hok.2, fun m s t h hs hsupply hwrite => ?_⟩
  · rcases move_taken h with ⟨cmd, ctl, ht⟩ | ⟨_, _, _, _, _, rfl, hwf, -⟩
    · exact ht.fbWf hs
    · exact hwf hs
  · rcases move_taken h with ⟨cmd, ctl, ht⟩ | ⟨_, _, _, _, _, rfl, -, ⟨bs, hm⟩ | ⟨a, bs, hm⟩ | ⟨-, rfl⟩⟩
    · exact ht.stale hs
    · exact absurd hm (hsupply bs)
    · exact absurd hm (hwrite a bs)
    · exact hs

/-- Settles O55: the flags and the report change at a fault, at the end of a command, at the start of LOAD and COMPOSITE
and at RESET only, and no legal state has a RESET pending. -/
theorem reportCoherent : Obligations.ReportCoherent := by
  intro m s t h hex hrep
  have hwrite : ∀ code, m = some (.cmd code) → code ≠ 0x00 → code ≠ 0x03 → statusSet t.status = true :=
    fun code hm h0 h3 => statusSet_of_write h0 h3 (hm ▸ h : move (some (.cmd code)) s = .next t)
  rcases move_taken h with ⟨cmd, ctl, ht⟩ | ⟨_, _, _, _, _, rfl, -⟩
  · exact ⟨ht.statusExclusive hex, ht.reportOk hrep, hwrite, fun hs hm hc =>
      ht.statusSet (not_or.mpr ⟨hm, hs.not_resetNext hc⟩)⟩
  · exact ⟨hex, hrep, hwrite, fun _ _ _ hset => hset⟩
end

section
/-! PROOFS. The host port: the host's moves and reads at its turn and out of it, and the state after reset. -/

open Sys2Proof Sys2Proof.Machine

namespace Sys2Proof.Machine

/-! ### The host's turn (R81, R262) -/

theorem hostTurn_eq_false_iff {s : State} : hostTurn s = false ↔ s.status.busy = true ∨ s.cmd ≠ 0 := by
  cases hb : s.status.busy <;> simp [hostTurn, hb]

theorem hostMove_of_turn {s : State} (ht : hostTurn s = true) (o : Out) : hostMove s o = o := if_pos ht

theorem hostMove_of_not_turn {s : State} (ht : hostTurn s = false) (o : Out) :
    hostMove s o = .refused .hostBusy := if_neg (ne_true_of_eq_false ht)

theorem hostRead_of_turn {α : Type} {s : State} (ht : hostTurn s = true) (v : α) : hostRead s v = .ok v :=
  if_pos ht

theorem hostRead_of_not_turn {α : Type} {s : State} (ht : hostTurn s = false) (v : α) :
    hostRead s v = .error .hostBusy := if_neg (ne_true_of_eq_false ht)

/-! ### Commands (R22, R260) -/

/-- RESET is taken at any time (R265). -/
theorem hostWriteCmd_reset (s : State) :
    hostWriteCmd 0x03 s = .next { State.reset with src := s.src, fb := s.fb, fbStale := s.fbStale } :=
  step_command (s := { s with cmd := 0x03 }) (.inl (show (0x03 : Byte) ≠ 0 by decide))

theorem needsFb_eq_true_iff {c : Byte} {s : State} :
    needsFb c s = true ↔ c = 0x02 ∧ s.status.resultValid = true ∧ s.arg < nFrames s := by
  simp [needsFb, and_assoc]

/-- A command whose buffer is as it should be, or that needs none, runs at once (log 4). -/
theorem hostWriteCmd_eq_exec {c : Byte} {s : State} (ht : hostTurn s = true)
    (hfb : needsFb c s = true → fbSized s = true ∧ s.fbStale = false) :
    hostWriteCmd c s = exec (decodeCmd c) s := by
  by_cases hc : c = 0x03
  case pos => exact (if_pos hc).trans (step_withCmd ht)
  case neg =>
    rw [hostWriteCmd_eq_hostMove hc, hostMove_of_turn ht, step_withCmd ht]
    cases hneed : needsFb c s with
    | false => rfl
    | true => rw [(hfb hneed).1, (hfb hneed).2]; rfl

theorem hostWriteCmd_fbLength {s : State} (ht : hostTurn s = true) (hneed : needsFb 0x02 s = true)
    (hs : fbSized s = false) : hostWriteCmd 0x02 s = .refused .fbLength := by
  rw [hostWriteCmd_eq_hostMove (by decide), hostMove_of_turn ht, hneed, hs]
  rfl

theorem hostWriteCmd_fbStale {s : State} (ht : hostTurn s = true) (hneed : needsFb 0x02 s = true)
    (hs : fbSized s = true) (hst : s.fbStale = true) : hostWriteCmd 0x02 s = .refused .fbStale := by
  rw [hostWriteCmd_eq_hostMove (by decide), hostMove_of_turn ht, hneed, hs, hst]
  rfl

/-! ### `CFG` and `STATUS` bit by bit (R24, R25) -/

theorem cfgWritten_getLsbD (v : Byte) (j : Nat) :
    (cfgWritten v).getLsbD j = (decide (j = 0) && v.getLsbD 0) := by
  unfold cfgWritten
  rw [BitVec.getLsbD_and]
  cases j <;> simp

theorem status_byte_getLsbD (st : Status) (j : Nat) :
    st.byte.getLsbD j = ([st.busy, st.done, st.fault, st.resultValid, st.driftWarn][j]?).getD false := by
  rcases Nat.lt_or_ge j 8 with hj | hj
  · obtain ⟨busy, done, fault, valid, drift⟩ := st
    have hbits : ∀ (b0 b1 b2 b3 b4 : Bool) (i : Fin 8), (Status.byte ⟨b0, b1, b2, b3, b4⟩).getLsbD i =
        ([b0, b1, b2, b3, b4][(i : Nat)]?).getD false := by decide
    exact hbits busy done fault valid drift ⟨j, hj⟩
  · rw [BitVec.getLsbD_of_ge _ _ hj, List.getElem?_eq_none (Nat.le_trans (by simp) hj)]
    rfl

/-! ### `FB` (R44, R324; log 5) -/

/-- A buffer that the host supplies is read back byte by byte. -/
theorem Memory.read_supplied (bs : List Byte) (x : Nat) : (Memory.writeBytes [] 0 bs).read x = bs[x]? := by
  rw [Memory.read_writeBytes]
  split_ifs with hx
  · rfl
  · exact (List.getElem?_eq_none (by omega)).symm

/-- A supplied buffer of the length of the canvas is the buffer COMPOSITE works on. -/
theorem fbSized_supplied {s : State} {bs : List Byte} (hlen : bs.length = fbSize s) :
    fbSized { s with fb := Memory.writeBytes [] 0 bs } = true :=
  beq_iff_eq.mpr ((Memory.supplied_keys bs).trans (congrArg List.range hlen))

theorem inFb_iff {a : Nat} {s : State} : inFb a s = true ↔
    (s.fb.read a).isSome = true ∧ (s.status.resultValid = false ∨ a < fbSize s) := by
  simp [inFb]

/-- A byte that exists is read, unless `FB` is to be refilled. -/
theorem hostReadFb_byte {a : Nat} {b : Byte} {s : State} (ht : hostTurn s = true) (hb : s.fb.read a = some b)
    (hin : s.status.resultValid = false ∨ a < fbSize s) :
    hostReadFb a s = if s.fbStale then .error .fbStale else .ok b := by
  have hbyte : inFb a s = true := inFb_iff.mpr ⟨hb ▸ rfl, hin⟩
  simp only [hostReadFb, ht, hb, hbyte, if_true]

/-- An offset without a byte is refused. -/
theorem hostReadFb_outside {a : Nat} {s : State} (ht : hostTurn s = true) (hout : inFb a s = false) :
    hostReadFb a s = .error .outsideFb := by
  unfold hostReadFb
  rw [if_pos ht]
  split
  · exact if_neg (ne_true_of_eq_false hout)
  · rfl

theorem hostReadFb_of_not_turn {a : Nat} {s : State} (ht : hostTurn s = false) :
    hostReadFb a s = .error .hostBusy := if_neg (ne_true_of_eq_false ht)

end Sys2Proof.Machine

/-- Settles O46: out of the turn every move but RESET is refused, at the turn each move is what its register takes. -/
theorem hostMovesOnlyWhenIdle : Obligations.HostMovesOnlyWhenIdle := by
  intro s code v n a bs
  refine ⟨fun hbusy => ?_, hostWriteCmd_reset s, fun hb hc => ?_⟩
  · have ht := hostTurn_eq_false_iff.mpr hbusy
    exact ⟨fun hne => (hostWriteCmd_eq_hostMove hne).trans (hostMove_of_not_turn ht _),
      hostMove_of_not_turn ht _, hostMove_of_not_turn ht _, hostMove_of_not_turn ht _,
      hostMove_of_not_turn ht _, hostMove_of_not_turn ht _⟩
  · have ht := hostTurn_iff.mpr ⟨hb, hc⟩
    refine ⟨fun hok => hostWriteCmd_eq_exec ht fun hneed => ?_,
      fun hres harg hs => hostWriteCmd_fbLength ht (needsFb_eq_true_iff.mpr ⟨rfl, hres, harg⟩) hs,
      fun hres harg hs hst => hostWriteCmd_fbStale ht (needsFb_eq_true_iff.mpr ⟨rfl, hres, harg⟩) hs hst,
      hostMove_of_turn ht _, ⟨cfgWritten v, hostMove_of_turn ht _, cfgWritten_getLsbD v⟩,
      hostMove_of_turn ht _, fun hlen => ?_, fun hlen => ?_, fun hin => ?_, fun i hi hout => ?_⟩
    · -- a COMPOSITE that needs its buffer is not excused by its code, the result or `ARG`
      obtain ⟨hcode, hres, harg⟩ := needsFb_eq_true_iff.mp hneed
      rcases hok with h | h | h | h
      · exact absurd hcode h
      · exact absurd (h.symm.trans hres) (by decide)
      · exact absurd harg (Nat.not_lt.mpr h)
      · exact h
    · exact ⟨_, (hostMove_of_turn ht _).trans (if_pos hlen), fbSized_supplied hlen.2, Memory.read_supplied bs⟩
    · exact (hostMove_of_turn ht _).trans (if_neg fun h =>
        hlen.elim (fun hres => absurd (hres.symm.trans h.1) (by decide)) fun hne => hne h.2)
    · exact ⟨_, (hostMove_of_turn ht _).trans (if_pos hin), Memory.read_writeBytes bs s.fb a⟩
    · exact (hostMove_of_turn ht _).trans (if_neg fun h =>
        absurd (hout.symm.trans (h i hi)) (by decide))

/-- Settles O47: `CMD` and `STATUS` at any time, the rest at the host's turn. -/
theorem hostReads : Obligations.HostReads := by
  intro s a
  refine ⟨rfl, status_byte_getLsbD s.status, fun hb hc => ?_, fun hbusy => ?_, fun hno => ?_⟩
  · have ht := hostTurn_iff.mpr ⟨hb, hc⟩
    refine ⟨hostRead_of_turn ht _, ⟨_, hostRead_of_turn ht _, cfgWritten_getLsbD s.cfg⟩, hostRead_of_turn ht _,
      fun b hb hin => hostReadFb_byte ht hb hin, fun hout => hostReadFb_outside ht ?_,
      fun hres => if_pos (Bool.and_eq_true_iff.mpr ⟨hres, ht⟩)⟩
    rcases hout with hnone | ⟨hres, hle⟩
    · simp [inFb, hnone]
    · simp [inFb, hres, hle]
  · have ht := hostTurn_eq_false_iff.mpr hbusy
    exact ⟨hostRead_of_not_turn ht _, hostRead_of_not_turn ht _, hostRead_of_not_turn ht _,
      hostReadFb_of_not_turn ht⟩
  · have hclosed : ¬ (s.status.resultValid && hostTurn s) = true := fun h => by
      obtain ⟨hres, ht⟩ := Bool.and_eq_true_iff.mp h
      obtain ⟨hb, hc⟩ := hostTurn_iff.mp ht
      rcases hno with h | h | h
      · exact absurd (h.symm.trans hres) (by decide)
      · exact absurd (h.symm.trans hb) (by decide)
      · exact h hc
    exact if_neg hclosed

/-- Settles O8: the fields of `State.reset`. -/
theorem resetValues : Obligations.ResetValues := by
  unfold Obligations.ResetValues
  decide

/-- Settles O56: the reset state is idle with nothing pending, no fault, no frame and no buffer. -/
theorem resetMeetsInvariants : Obligations.ResetMeetsInvariants :=
  ⟨(legal_iff_of_idle rfl).mpr ⟨rfl, rfl, .inl rfl⟩, reset_fb_wf, rfl, ⟨rfl, rfl, rfl, rfl⟩,
    fun _ hf => absurd hf List.not_mem_nil⟩
end

section
/-! PROOFS. Bits and codes of a byte buffer: a code is its bits weighted, and a digit of the buffer's little-endian
integer in base two (R71, R115); codes packed and read back (R110). -/

open Sys2Proof Sys2Proof.Machine

namespace Sys2Proof.Machine

/-! ### The little-endian integer of a buffer (R115) -/

theorem leNat_eq_ofDigits (bs : List Byte) : leNat bs = Nat.ofDigits 256 (bs.map BitVec.toNat) := by
  induction bs with
  | nil => rfl
  | cons b rest ih => rw [leNat, ih, List.map_cons, Nat.ofDigits_cons]

theorem leNat_drop (bs : List Byte) (n : Nat) : leNat (bs.drop n) = leNat bs / 256 ^ n := by
  have hdigit : ∀ d ∈ bs.map BitVec.toNat, d < 256 := List.forall_mem_map.mpr fun b _ => b.isLt
  rw [leNat_eq_ofDigits, leNat_eq_ofDigits, List.map_drop,
    Nat.ofDigits_div_pow_eq_ofDigits_drop n (by decide) _ hdigit]

theorem leNat_take (bs : List Byte) (n : Nat) : leNat (bs.take n) = leNat bs % 256 ^ n := by
  have hdigit : ∀ d ∈ bs.map BitVec.toNat, d < 256 := List.forall_mem_map.mpr fun b _ => b.isLt
  rw [leNat_eq_ofDigits, leNat_eq_ofDigits, List.map_take,
    Nat.ofDigits_mod_pow_eq_ofDigits_take n (by decide) _ hdigit]

/-- The low byte of the integer is the first byte of the buffer, 0 where there is none. -/
theorem leNat_mod_byte (bs : List Byte) : leNat bs % 256 = (bs.getD 0 0).toNat := by
  cases bs with
  | nil => rfl
  | cons b rest =>
    rw [leNat, Nat.add_mul_mod_self_left, Nat.mod_eq_of_lt b.isLt]
    rfl

theorem leNat_leBytes (n v : Nat) : leNat (leBytes n v) = v % 256 ^ n := by
  induction n generalizing v with
  | zero => rw [Nat.pow_zero, Nat.mod_one]; rfl
  | succ n ih =>
    rw [leBytes, leNat, ih, BitVec.toNat_ofNat, Nat.pow_succ' (m := 256), Nat.mod_mul (a := 256)]

/-! ### Bits and codes of a buffer (R71) -/

/-- The bits from `o` to `o + w` of a number do not depend on what lies above them. -/
theorem mod_two_pow_div_mod {n o w : Nat} (h : o + w ≤ n) (x : Nat) :
    x % 2 ^ n / 2 ^ o % 2 ^ w = x / 2 ^ o % 2 ^ w := by
  obtain ⟨d, rfl⟩ := Nat.exists_eq_add_of_le h
  rw [Nat.pow_add, Nat.pow_add, Nat.mul_assoc, Nat.mod_mul_right_div_self, Nat.mod_mul_right_mod]

/-- Bit `k` of a buffer is binary digit `k` of its integer. -/
theorem bitAt_eq_leNat (buf : List Byte) (k : Nat) : bitAt buf k = leNat buf / 2 ^ k % 2 := by
  have hbyte : (buf.getD (k / 8) 0).toNat = leNat buf / 256 ^ (k / 8) % 256 := by
    rw [← leNat_drop, leNat_mod_byte]
    simp [List.getD]
  have hlow : k % 8 + 1 ≤ 8 := Nat.mod_lt k (by decide)
  have hpow : 256 ^ (k / 8) * 2 ^ (k % 8) = 2 ^ k := by
    rw [show 256 = 2 ^ 8 from rfl, ← Nat.pow_mul, ← Nat.pow_add, Nat.div_add_mod]
  calc bitAt buf k = leNat buf / 256 ^ (k / 8) % 2 ^ 8 / 2 ^ (k % 8) % 2 ^ 1 := by rw [bitAt, hbyte]; rfl
    _ = leNat buf / 256 ^ (k / 8) / 2 ^ (k % 8) % 2 ^ 1 := mod_two_pow_div_mod hlow _
    _ = leNat buf / 2 ^ k % 2 := by rw [Nat.div_div_eq_div_mul, hpow, Nat.pow_one]

/-- A code of width `w` at bit `p` is the buffer's integer shifted right by `p`, its low `w` bits kept. -/
theorem codeAt_eq_leNat (buf : List Byte) (p w : Nat) : codeAt buf p w = leNat buf / 2 ^ p % 2 ^ w := by
  induction w generalizing p with
  | zero => rw [Nat.pow_zero, Nat.mod_one]; rfl
  | succ w ih =>
    rw [codeAt, bitAt_eq_leNat, ih, Nat.pow_succ' (n := w), Nat.mod_mul, Nat.div_div_eq_div_mul, Nat.pow_succ]

theorem codeAt_eq_sum (buf : List Byte) (p w : Nat) :
    codeAt buf p w = ∑ i ∈ Finset.range w, bitAt buf (p + i) * 2 ^ i := by
  induction w generalizing p with
  | zero => rfl
  | succ w ih =>
    rw [codeAt, ih, Finset.sum_range_succ', Finset.mul_sum, Nat.add_comm, Nat.pow_zero, Nat.mul_one]
    refine congrArg (· + bitAt buf p) (Finset.sum_congr rfl fun i _ => ?_)
    rw [Nat.pow_succ', Nat.mul_left_comm, Nat.add_right_comm, Nat.add_assoc]

/-! ### Packed codes (R110) -/

theorem packedNat_lt (codes : List (Nat × Nat)) : packedNat codes < 2 ^ packedBits codes := by
  induction codes with
  | nil => decide
  | cons x rest ih =>
    obtain ⟨c, w⟩ := x
    rw [packedNat, packedBits, Nat.pow_add]
    have hc : c % 2 ^ w < 2 ^ w := Nat.mod_lt c (Nat.two_pow_pos w)
    calc c % 2 ^ w + 2 ^ w * packedNat rest
        < 2 ^ w + 2 ^ w * packedNat rest := Nat.add_lt_add_right hc _
      _ = 2 ^ w * (packedNat rest + 1) := by ring
      _ ≤ 2 ^ w * 2 ^ packedBits rest := Nat.mul_le_mul_left _ ih

/-- The bytes of a packing hold its whole integer. -/
theorem leNat_packCodes (codes : List (Nat × Nat)) : leNat (packCodes codes) = packedNat codes := by
  rw [packCodes, leNat_leBytes]
  refine Nat.mod_eq_of_lt (Nat.lt_of_lt_of_le (packedNat_lt codes) ?_)
  rw [show 256 = 2 ^ 8 from rfl, ← Nat.pow_mul]
  exact Nat.pow_le_pow_right (by decide) (by omega)

/-- Shifting off the bits of the first codes leaves the packing of the rest. -/
theorem packedNat_append_div (pre post : List (Nat × Nat)) :
    packedNat (pre ++ post) / 2 ^ packedBits pre = packedNat post := by
  induction pre with
  | nil => exact Nat.div_one _
  | cons x rest ih =>
    obtain ⟨c, w⟩ := x
    have hc : c % 2 ^ w < 2 ^ w := Nat.mod_lt c (Nat.two_pow_pos w)
    rw [List.cons_append, packedNat, packedBits, Nat.pow_add, ← Nat.div_div_eq_div_mul,
      Nat.add_mul_div_left _ _ (Nat.two_pow_pos w), Nat.div_eq_of_lt hc, Nat.zero_add, ih]

end Sys2Proof.Machine

/-- Settles O4: a code of at most 12 bits that begins in a byte ends within the two bytes after it. -/
theorem codeExtraction : Obligations.CodeExtraction := by
  intro buf byteIdx bitOff w hoff hw _
  refine ⟨codeAt_eq_sum buf _ w, ?_⟩
  have hbytes : leNat ((buf.drop byteIdx).take 3) = leNat buf / 2 ^ (8 * byteIdx) % 2 ^ 24 := by
    rw [leNat_take, leNat_drop, Nat.pow_mul]
    rfl
  rw [codeAt_eq_leNat, hbytes, mod_two_pow_div_mod (by omega), Nat.div_div_eq_div_mul, Nat.pow_add]

/-- Settles O5: the packing read as one integer, the codes before shifted off, the codes after masked off. -/
theorem packedCodeReadBack : Obligations.PackedCodeReadBack := by
  intro pre post c w hc
  rw [codeAt_eq_leNat, leNat_packCodes, packedNat_append_div, packedNat, Nat.add_mul_mod_self_left, Nat.mod_mod,
    Nat.mod_eq_of_lt hc]
end

section
/-! PROOFS. What operations leave unchanged of the launch parameters: the host's registers and `SRC` (R83), and every
byte of `FB` but those of a pixel that CMP.PIX writes (R75). -/

open Sys2Proof Sys2Proof.Machine

namespace Sys2Proof.Machine

/-! ### The host's registers and `SRC` (R23, R24, R83) -/

theorem Taken.src {r : Prop} {s t : State} (h : Taken r s t) : t.src = s.src := by
  cases h with
  | ran h =>
    cases h with
    | done he => exact he.inputs.2.2
    | fault he => exact he.inputs.2.2
  | ended | load | composite | reset => rfl

/-- `ARG` and `CFG` are as before, but for RESET. -/
theorem Taken.hostRegisters {r : Prop} {s t : State} (h : Taken r s t) (hr : ¬ r) :
    t.arg = s.arg ∧ t.cfg = s.cfg := by
  cases h with
  | ran h =>
    cases h with
    | done he => exact ⟨he.inputs.1, he.inputs.2.1⟩
    | fault he => exact ⟨he.inputs.1, he.inputs.2.1⟩
  | ended | load | composite => exact ⟨rfl, rfl⟩
  | reset h => exact absurd h hr

/-! ### Outcomes with a given `FB` -/

/-- If the outcome is a next state, its `FB` is `m`. -/
def HasFb (m : Memory) (o : Out) : Prop := ∀ t, o = .next t → t.fb = m

theorem hasFb_next {m : Memory} {t : State} (h : t.fb = m) : HasFb m (.next t) := fun _ e => by
  cases e; exact h

theorem hasFb_fault {m : Memory} (f : Fault) : HasFb m (.fault f) := fun _ e => by cases e

theorem hasFb_accepted {m : Memory} {s : State} {o : Out} (h : HasFb m o) : HasFb m (accepted s o) :=
  fun t e => h t (accepted_eq_next.mp e).2

theorem hasFb_withFrame {m : Memory} {k : Nat} {s : State} {f : Frame → Out} (h : ∀ fr, HasFb m (f fr)) :
    HasFb m (withFrame k s f) := fun t e => by
  obtain ⟨fr, -, e⟩ := withFrame_eq_next.mp e
  exact h fr t e

/-- The state in which a read ends, with its result or with its fault. -/
def Res.state {α : Type} : Res α → State
  | .ok _ s => s
  | .trap s => s

/-- An operation that begins with a read has the `FB` of the read's state if what follows keeps it. -/
theorem hasFb_andThen {α : Type} {m : Memory} {r : Res α} {f : α → State → Out} (hr : r.state.fb = m)
    (hf : ∀ v u, u.fb = m → HasFb m (f v u)) : HasFb m (r.andThen f) := by
  cases r with
  | ok v u => exact hf v u hr
  | trap u => exact hasFb_next hr

theorem readByte_fb (s : State) : (readByte s).state.fb = s.fb := by
  rcases readByte_cases s with ⟨-, e⟩ | ⟨-, e⟩ <;> rw [e] <;> rfl

theorem peekByte_fb (s : State) : (peekByte s).state.fb = s.fb := by
  rcases peekByte_cases s with ⟨-, e⟩ | ⟨-, e⟩ <;> rw [e] <;> rfl

theorem readHalf_fb (s : State) : (readHalf s).state.fb = s.fb := by
  rcases readHalf_cases s with ⟨-, e⟩ | ⟨-, e⟩ <;> rw [e] <;> rfl

theorem readBytes_fb (n : Nat) (s : State) : (readBytes n s).state.fb = s.fb := by
  rcases readBytes_cases n s with ⟨-, e⟩ | ⟨-, e⟩ <;> rw [e] <;> rfl

/-! ### The operations of each component keep `FB`, all but `CMP.PIX` (R75, R246) -/

theorem byteSource_keeps_fb {i : Instr} {s : State} (hi : component i = .byteSource) : HasFb s.fb (exec i s) := by
  cases i <;> cases hi
  case rd8 => exact hasFb_andThen (readByte_fb s) fun _ _ hu => hasFb_next hu
  case pk8 => exact hasFb_andThen (peekByte_fb s) fun _ _ hu => hasFb_next hu
  case rd16 => exact hasFb_andThen (readHalf_fb s) fun _ _ hu => hasFb_next hu
  case rdn n => exact hasFb_andThen (readBytes_fb n s) fun _ _ hu => hasFb_next hu

theorem subBlock_keeps_fb {i : Instr} {s : State} (hi : component i = .subBlock) : HasFb s.fb (exec i s) := by
  cases i <;> cases hi
  case sbkRead => exact hasFb_next rfl
  case sbkData n =>
    refine hasFb_andThen (readByte_fb s) fun _ u hu => ?_
    exact hasFb_andThen ((readBytes_fb _ _).trans hu) fun _ _ hu => hasFb_next hu
  case sbkTerm => exact hasFb_andThen (readByte_fb s) fun _ _ hu => hasFb_next hu

theorem lsdesc_keeps_fb (s : State) : HasFb s.fb (execLsdesc s) := by
  refine hasFb_andThen (readHalf_fb s) fun _ _ hu => ?_
  refine hasFb_andThen ((readHalf_fb _).trans hu) fun _ _ hu => ?_
  refine hasFb_andThen ((readByte_fb _).trans hu) fun _ _ hu => ?_
  refine hasFb_andThen ((readByte_fb _).trans hu) fun _ _ hu => ?_
  exact hasFb_andThen ((readByte_fb _).trans hu) fun _ _ hu => hasFb_next hu

theorem demuxer_keeps_fb {i : Instr} {s : State} (hi : component i = .demuxer) : HasFb s.fb (exec i s) := by
  cases i <;> cases hi
  case demux | blkImg | blkExt | blkTrl | blkUnk => exact hasFb_next rfl
  case hdr87a | hdr89a | hdrBad => exact hasFb_andThen (readBytes_fb 6 s) fun _ _ hu => hasFb_next hu
  case lsdesc => exact lsdesc_keeps_fb s
  case gctRead =>
    simp only [exec, execGctRead]
    split
    · exact hasFb_andThen (readBytes_fb _ s) fun _ _ hu => hasFb_next hu
    · exact hasFb_next rfl
  case blkClassify => exact hasFb_andThen (peekByte_fb s) fun _ _ hu => hasFb_next hu

theorem imgDesc_keeps_fb (s : State) : HasFb s.fb (execImgDesc s) := by
  refine hasFb_andThen (readHalf_fb s) fun _ _ hu => ?_
  refine hasFb_andThen ((readHalf_fb _).trans hu) fun _ _ hu => ?_
  refine hasFb_andThen ((readHalf_fb _).trans hu) fun _ _ hu => ?_
  refine hasFb_andThen ((readHalf_fb _).trans hu) fun _ _ hu => ?_
  exact hasFb_andThen ((readByte_fb _).trans hu) fun _ _ hu => hasFb_next hu

theorem blockParser_keeps_fb {i : Instr} {s : State} (hi : component i = .blockParser) :
    HasFb s.fb (exec i s) := by
  cases i <;> cases hi
  case imgBlock | imgData | imgDecode => exact hasFb_next rfl
  case imgSep =>
    refine hasFb_andThen (readByte_fb s) fun _ _ hu => ?_
    split <;> exact hasFb_next hu
  case imgDesc => exact imgDesc_keeps_fb s
  case lctRead =>
    simp only [exec, execLctRead]
    split
    · exact hasFb_andThen (readBytes_fb _ s) fun _ _ hu => hasFb_next hu
    · exact hasFb_next rfl
  case imgMcs => exact hasFb_andThen (readByte_fb _) fun _ _ hu => hasFb_next hu
  case imgCommit =>
    simp only [exec, execImgCommit]
    split <;> exact hasFb_next rfl
  case extBlock | extPtx | extGce | extCom | extApp | extOther =>
    exact hasFb_andThen (readByte_fb s) fun _ _ hu => hasFb_next hu

theorem lookUp_keeps_fb (code : Nat) (s : State) : HasFb s.fb (lookUp code s) := fun t h => by
  obtain ⟨v, -, rfl⟩ := lookUp_eq_next.mp h
  rfl

theorem takeFixUp_keeps_fb (s : State) : HasFb s.fb (takeFixUp s) := by
  rcases takeFixUp_cases s with ⟨-, e⟩ | ⟨-, e⟩ <;> exact e ▸ hasFb_next rfl

theorem lzw_keeps_fb {i : Instr} {s : State} (hi : component i = .lzw) : HasFb s.fb (exec i s) := by
  cases i <;> cases hi
  case lzwRun | lzwReset | lzwExh | lzwClear | lzwEoi => exact hasFb_next rfl
  case lzwInit cs =>
    simp only [exec, execLzwInit]
    split <;> exact hasFb_next rfl
  case lzwFetch =>
    simp only [exec, execLzwFetch]
    split
    · exact hasFb_fault _
    · exact hasFb_next rfl
  case lzwLit code | lzwKnown code => exact lookUp_keeps_fb code s
  case lzwKwkwk => exact takeFixUp_keeps_fb s
  case lzwDrift code =>
    simp only [exec, execLzwDrift]
    split
    · exact hasFb_next rfl
    · exact takeFixUp_keeps_fb _

theorem command_keeps_fb {i : Instr} {s : State} (hi : component i = .command) : HasFb s.fb (exec i s) := by
  cases i <;> cases hi
  case cmdNop | cmdReset => exact hasFb_next rfl
  case cmdLoad | cmdReserved => exact hasFb_accepted (hasFb_next rfl)
  case cmdComposite =>
    refine hasFb_accepted ?_
    split <;> exact hasFb_next rfl

theorem compositor_keeps_fb {i : Instr} {s : State} (hi : component i = .compositor)
    (hpix : ∀ k r c, i ≠ .cmpPix k r c) : HasFb s.fb (exec i s) := by
  cases i <;> cases hi
  case cmpFrame k => exact hasFb_withFrame fun _ => hasFb_next rfl
  case cmpSelect k =>
    intro t h
    obtain ⟨fr, -, ⟨-, _, -, rfl⟩ | ⟨-, _, -, rfl⟩ | ⟨-, -, rfl⟩⟩ := cmpSelect_eq_next.mp h <;> rfl
  case cmpCheck k =>
    refine hasFb_withFrame fun _ => ?_
    split <;> exact hasFb_next rfl
  case cmpPix k r c => exact absurd rfl (hpix k r c)

theorem exec_keeps_fb {i : Instr} {s : State} (hpix : ∀ k r c, i ≠ .cmpPix k r c) : HasFb s.fb (exec i s) := by
  cases hc : component i with
  | byteSource => exact byteSource_keeps_fb hc
  | subBlock => exact subBlock_keeps_fb hc
  | demuxer => exact demuxer_keeps_fb hc
  | blockParser => exact blockParser_keeps_fb hc
  | lzw => exact lzw_keeps_fb hc
  | compositor => exact compositor_keeps_fb hc hpix
  | command => exact command_keeps_fb hc

/-- `CMP.PIX` leaves every byte of `FB` outside its pixel, its fault every byte (R242). -/
theorem cmpPix_read_outside {k r c a : Nat} {s t : State} (h : execCmpPix k r c s = .next t)
    (hout : ∀ fr, s.img.frames[k]? = some fr → a < pixelOffset fr r c s ∨ pixelOffset fr r c s + 3 ≤ a) :
    t.fb.read a = s.fb.read a := by
  obtain ⟨fr, i, hfr, -, ⟨-, rfl⟩ | ⟨-, e, -, -, rfl⟩⟩ := cmpPix_eq_next.mp h
  · rfl
  · refine Memory.read_writeBytes_outside _ s.fb fun hin => ?_
    have hlt : a < pixelOffset fr r c s + 3 := hin.2
    have := hout fr hfr
    omega

end Sys2Proof.Machine

/-- Settles O49: the host's inputs are part of no component's effect, and of the commands RESET alone writes `ARG` and
`CFG`. -/
theorem hostInputsUntouched : Obligations.HostInputsUntouched :=
  fun _ _ _ h => ⟨(exec_taken h).src, (exec_taken h).hostRegisters⟩

/-- Settles O50: `CMP.PIX` writes the bytes of its pixel, every other operation has the `FB` it was given. -/
theorem outputFrame : Obligations.OutputFrame := by
  intro i s t a h hout
  by_cases hpix : ∃ k r c, i = .cmpPix k r c
  · obtain ⟨k, r, c, rfl⟩ := hpix
    exact cmpPix_read_outside h fun fr => hout k r c fr rfl
  · have hfb : t.fb = s.fb := exec_keeps_fb (fun k r c e => hpix ⟨k, r, c, e⟩) t h
    rw [hfb]
end

section
/-! PROOFS. Encoding: the rows of a decode point and their words, both ways (R116); the classes of an LZW code (R117)
and what a drifting code does (R212). -/

open Sys2Proof Sys2Proof.Machine

namespace Sys2Proof.Machine

/-! ### The operands that a catch-all row leaves to the exact rows of its decode point (R116) -/

theorem wf_hdrBad_iff {m : BitVec 48} : (Instr.hdrBad m).wf = true ↔ m ≠ magic87a ∧ m ≠ magic89a := by
  simp only [Instr.wf, Bool.and_eq_true, bne_iff_ne]

theorem wf_blkUnk_iff {b : Byte} : (Instr.blkUnk b).wf = true ↔ b ≠ 0x2C ∧ b ≠ 0x21 ∧ b ≠ 0x3B := by
  simp only [Instr.wf, Bool.and_eq_true, bne_iff_ne, and_assoc]

theorem wf_extOther_iff {l : Byte} :
    (Instr.extOther l).wf = true ↔ l ≠ 0x01 ∧ l ≠ 0xF9 ∧ l ≠ 0xFE ∧ l ≠ 0xFF := by
  simp only [Instr.wf, Bool.and_eq_true, bne_iff_ne, and_assoc]

theorem wf_sbkData_iff {n : Byte} : (Instr.sbkData n).wf = true ↔ n ≠ 0 := bne_iff_ne

/-- The exact command codes are those below 4 (R111). -/
theorem wf_cmdReserved_iff {c : Byte} :
    (Instr.cmdReserved c).wf = true ↔ c ≠ 0x00 ∧ c ≠ 0x01 ∧ c ≠ 0x02 ∧ c ≠ 0x03 := by
  simp only [Instr.wf, decide_eq_true_eq]
  bv_omega

/-! ### The word of the row that is answered (R116) -/

/-- `i` is a well-formed operation of the decode point `p`, and `word` is its encoding. -/
def HasWord (p : Point) (word : List Byte) (i : Instr) : Prop :=
  i.wf = true ∧ i.point = some p ∧ encode i = word

theorem hasWord_decodeMagic (m : BitVec 48) : HasWord .header (magicBytes m) (decodeMagic m) := by
  unfold decodeMagic
  split_ifs with h87 h89
  · subst h87; exact ⟨rfl, rfl, by decide⟩
  · subst h89; exact ⟨rfl, rfl, by decide⟩
  · exact ⟨wf_hdrBad_iff.mpr ⟨h87, h89⟩, rfl, rfl⟩

theorem hasWord_decodeIntroducer (b : Byte) : HasWord .introducer [b] (decodeIntroducer b) := by
  unfold decodeIntroducer
  split_ifs with himg hext htrl
  · subst himg; exact ⟨rfl, rfl, rfl⟩
  · subst hext; exact ⟨rfl, rfl, rfl⟩
  · subst htrl; exact ⟨rfl, rfl, rfl⟩
  · exact ⟨wf_blkUnk_iff.mpr ⟨himg, hext, htrl⟩, rfl, rfl⟩

theorem hasWord_decodeLabel (l : Byte) : HasWord .label [l] (decodeLabel l) := by
  unfold decodeLabel
  split_ifs with hptx hgce hcom happ
  · subst hptx; exact ⟨rfl, rfl, rfl⟩
  · subst hgce; exact ⟨rfl, rfl, rfl⟩
  · subst hcom; exact ⟨rfl, rfl, rfl⟩
  · subst happ; exact ⟨rfl, rfl, rfl⟩
  · exact ⟨wf_extOther_iff.mpr ⟨hptx, hgce, hcom, happ⟩, rfl, rfl⟩

theorem hasWord_decodeSbLength (n : Byte) : HasWord .sbLength [n] (decodeSbLength n) := by
  unfold decodeSbLength
  split_ifs with hterm
  · subst hterm; exact ⟨rfl, rfl, rfl⟩
  · exact ⟨wf_sbkData_iff.mpr hterm, rfl, rfl⟩

theorem hasWord_decodeCmd (c : Byte) : HasWord .cmd [c] (decodeCmd c) := by
  unfold decodeCmd
  split_ifs with hnop hload hcomposite hreset
  · subst hnop; exact ⟨rfl, rfl, rfl⟩
  · subst hload; exact ⟨rfl, rfl, rfl⟩
  · subst hcomposite; exact ⟨rfl, rfl, rfl⟩
  · subst hreset; exact ⟨rfl, rfl, rfl⟩
  · exact ⟨wf_cmdReserved_iff.mpr ⟨hnop, hload, hcomposite, hreset⟩, rfl, rfl⟩

/-- What a decode point answers has a word that the bytes begin with. -/
theorem decode_ok_hasWord {p : Point} {bs : List Byte} {i : Instr} (h : decode p bs = .ok i) :
    ∃ word rest, bs = word ++ rest ∧ HasWord p word i := by
  match p, bs, h with
  | .header, a :: b :: c :: d :: e :: f :: rest, h =>
    cases h
    have hm := hasWord_decodeMagic (magicOf a b c d e f)
    rw [magicBytes_magicOf] at hm
    exact ⟨_, rest, rfl, hm⟩
  | .introducer, b :: rest, h => cases h; exact ⟨[b], rest, rfl, hasWord_decodeIntroducer b⟩
  | .imageByte0, b :: rest, h =>
    simp only [decode] at h
    split at h
    next hb => cases h; exact ⟨[b], rest, rfl, rfl, rfl, by rw [hb]; rfl⟩
    next => cases h
  | .label, b :: rest, h => cases h; exact ⟨[b], rest, rfl, hasWord_decodeLabel b⟩
  | .sbLength, b :: rest, h => cases h; exact ⟨[b], rest, rfl, hasWord_decodeSbLength b⟩
  | .cmd, b :: rest, h => cases h; exact ⟨[b], rest, rfl, hasWord_decodeCmd b⟩

/-! ### The row that a word selects (R116) -/

theorem decodeMagic_of_wf {m : BitVec 48} (h : (Instr.hdrBad m).wf = true) : decodeMagic m = .hdrBad m := by
  obtain ⟨h87, h89⟩ := wf_hdrBad_iff.mp h
  rw [decodeMagic, if_neg h87, if_neg h89]

theorem decodeIntroducer_of_wf {b : Byte} (h : (Instr.blkUnk b).wf = true) :
    decodeIntroducer b = .blkUnk b := by
  obtain ⟨himg, hext, htrl⟩ := wf_blkUnk_iff.mp h
  rw [decodeIntroducer, if_neg himg, if_neg hext, if_neg htrl]

theorem decodeLabel_of_wf {l : Byte} (h : (Instr.extOther l).wf = true) : decodeLabel l = .extOther l := by
  obtain ⟨hptx, hgce, hcom, happ⟩ := wf_extOther_iff.mp h
  rw [decodeLabel, if_neg hptx, if_neg hgce, if_neg hcom, if_neg happ]

theorem decodeSbLength_of_wf {n : Byte} (h : (Instr.sbkData n).wf = true) : decodeSbLength n = .sbkData n :=
  if_neg (wf_sbkData_iff.mp h)

theorem decodeCmd_of_wf {c : Byte} (h : (Instr.cmdReserved c).wf = true) : decodeCmd c = .cmdReserved c := by
  obtain ⟨hnop, hload, hcomposite, hreset⟩ := wf_cmdReserved_iff.mp h
  rw [decodeCmd, if_neg hnop, if_neg hload, if_neg hcomposite, if_neg hreset]

/-- The six bytes of a magic select the row of that magic, whatever follows (R101). -/
theorem decode_magicBytes (m : BitVec 48) (rest : List Byte) :
    decode .header (magicBytes m ++ rest) = .ok (decodeMagic m) :=
  congrArg (fun m => Except.ok (decodeMagic m)) (magicOf_magicBytes m)

/-! ### The classes of an LZW code (R117) -/

/-- Each class has its own comparison, and the tests in their order are exhaustive. -/
theorem decodeLzw_cases (clear next code : Nat) :
    (code = clear ∧ decodeLzw clear (clear + 1) next code = .lzwClear) ∨
    (code = clear + 1 ∧ decodeLzw clear (clear + 1) next code = .lzwEoi) ∨
    (code < clear ∧ decodeLzw clear (clear + 1) next code = .lzwLit code) ∨
    ((clear + 1 < code ∧ code < next) ∧ decodeLzw clear (clear + 1) next code = .lzwKnown code) ∨
    (code = next ∧ decodeLzw clear (clear + 1) next code = .lzwKwkwk) ∨
    (next < code ∧ decodeLzw clear (clear + 1) next code = .lzwDrift code) := by
  unfold decodeLzw
  split_ifs with hclear heoi hlit hknown hkwkwk
  · exact .inl ⟨hclear, rfl⟩
  · exact .inr (.inl ⟨heoi, rfl⟩)
  · exact .inr (.inr (.inl ⟨hlit, rfl⟩))
  · exact .inr (.inr (.inr (.inl ⟨⟨by omega, hknown⟩, rfl⟩)))
  · exact .inr (.inr (.inr (.inr (.inl ⟨hkwkwk, rfl⟩))))
  · exact .inr (.inr (.inr (.inr (.inr ⟨by omega, rfl⟩))))

/-! ### A code that is not in the table (R211, R212) -/

/-- The fix-up without a previous value (R213). -/
theorem takeFixUp_of_nil {s : State} (h : s.lzw.last = []) :
    takeFixUp s = .next (raise .lzwEmptyPrefix s.mcsPos s.lzw.p0 s) := if_pos h

/-- The fix-up is a data code of the value `LAST ++ <LAST[0]>` (R211, R214, R215, R216). -/
theorem takeFixUp_of_cons {s : State} {b : Byte} {bs : List Byte} (h : s.lzw.last = b :: bs) :
    ∃ z : Lzw, takeFixUp s = .next { s with lzw := z, ctl := .lzwNext :: s.ctl } ∧
      DataCodeTaken (s.lzw.last ++ [b]) s.lzw z := by
  have hvalue : fixUp s.lzw = s.lzw.last ++ [b] := by simp [fixUp, h]
  have hne : s.lzw.last ≠ [] := by simp [h]
  exact ⟨dataCode (fixUp s.lzw) s.lzw, if_neg hne, hvalue ▸ dataCode_taken _ _⟩

/-- Strict mode ends the decode at a drifting code (R121, R212). -/
theorem exec_lzwDrift_of_strict {s : State} (h : strict s = true) (code : Nat) :
    exec (.lzwDrift code) s = .next (raise .lzwDrift s.mcsPos s.lzw.p0 s) := if_pos h

/-- Tolerant mode notes the drift before the fix-up looks at `LAST` (R121, R212). -/
theorem exec_lzwDrift_of_tolerant {s : State} (h : strict s = false) (code : Nat) :
    exec (.lzwDrift code) s = takeFixUp { s with status := { s.status with driftWarn := true } } :=
  if_neg (ne_true_of_eq_false h)

end Sys2Proof.Machine

/-- Settles O1: the word of an exact row computes to it; a well-formed catch-all operation carries a value that no exact
row of its decode point takes. -/
theorem decodeOfEncode : Obligations.DecodeOfEncode := by
  intro i p rest hwf hp
  cases i <;> cases hp
  case hdrBad m => exact (decode_magicBytes m rest).trans (congrArg _ (decodeMagic_of_wf hwf))
  case blkUnk b => exact congrArg Except.ok (decodeIntroducer_of_wf hwf)
  case extOther l => exact congrArg Except.ok (decodeLabel_of_wf hwf)
  case sbkData n => exact congrArg Except.ok (decodeSbLength_of_wf hwf)
  case cmdReserved c => exact congrArg Except.ok (decodeCmd_of_wf hwf)
  case hdr87a | hdr89a | blkImg | blkExt | blkTrl | imgSep | extPtx | extGce | extCom | extApp | sbkTerm |
    cmdNop | cmdLoad | cmdComposite | cmdReset => rfl

/-- Settles O2: the row that is answered is well formed, of its decode point, and has the word it was read from. -/
theorem encodeOfDecode : Obligations.EncodeOfDecode := by
  intro p bs i h
  obtain ⟨_, rest, hbs, hwf, hpoint, rfl⟩ := decode_ok_hasWord h
  exact ⟨hwf, hpoint, rest, hbs⟩

/-- Settles O3: in each of the six classes the other comparisons fail; a code of at most 12 bits is below 4096, and none
of its width is beyond `2^CODE_LEN - 1`. -/
theorem lzwClassesPartition : Obligations.LzwClassesPartition := by
  intro clear next code codeLen hnext hlen hcode i
  have hfull : 2 ^ codeLen ≤ 2 ^ 12 := Nat.pow_le_pow_right (by decide) hlen
  rcases decodeLzw_cases clear next code with ⟨hc, hi⟩ | ⟨hc, hi⟩ | ⟨hc, hi⟩ | ⟨hc, hi⟩ | ⟨hc, hi⟩ | ⟨hc, hi⟩ <;>
    simp [i, hi, encodeLzw] <;> omega

/-- Settles O34: `CFG.STRICT` decides between the fault and the fix-up, and `LAST` what the fix-up does. -/
theorem driftPolicy : Obligations.DriftPolicy := by
  intro s code
  refine ⟨fun hs => exec_lzwDrift_of_strict hs code, fun hs => ?_⟩
  rw [exec_lzwDrift_of_tolerant hs]
  exact ⟨fun hlast => takeFixUp_of_nil hlast, fun _ _ hlast => takeFixUp_of_cons hlast⟩

/-- Settles O6: each of the words runs through its decode point. -/
theorem specWordsDecode : Obligations.SpecWordsDecode := by
  unfold Obligations.SpecWordsDecode
  decide
end

section
/-! PROOFS. The four primitives of the byte source: what each answers where its bytes remain, and its fault where they do
not (R140 to R144). -/

open Sys2Proof Sys2Proof.Machine

namespace Sys2Proof.Machine

/-! ### Bytes at `POS` -/

/-- Bytes that stand in `SRC` from `POS` on remain to be read. -/
theorem pos_add_le_srcLen {s : State} {pre mid post : List Byte} (hpos : s.pos = pre.length)
    (hsrc : s.src = pre ++ mid ++ post) : s.pos + mid.length ≤ srcLen s := by
  simp [srcLen, hsrc, hpos]

/-- A byte that stands in `SRC` at `POS` remains to be read, and is the one a read answers. -/
theorem byte_at_pos {s : State} {pre post : List Byte} {b : Byte} (hpos : s.pos = pre.length)
    (hsrc : s.src = pre ++ b :: post) : s.pos + 1 ≤ srcLen s ∧ srcByte s s.pos = b :=
  ⟨pos_add_le_srcLen (mid := [b]) (post := post) hpos (by simp [hsrc]), hpos ▸ srcByte_append hsrc⟩

/-! ### A primitive whose bytes remain -/

theorem exec_rd8_of_src {s : State} {pre post : List Byte} {b : Byte} (hpos : s.pos = pre.length)
    (hsrc : s.src = pre ++ b :: post) :
    exec .rd8 s = .next { s with pos := s.pos + 1, ret := .byte b } := by
  obtain ⟨hroom, hb⟩ := byte_at_pos hpos hsrc
  simp [exec, execRd8, readByte_ok hroom, hb]

theorem exec_pk8_of_src {s : State} {pre post : List Byte} {b : Byte} (hpos : s.pos = pre.length)
    (hsrc : s.src = pre ++ b :: post) : exec .pk8 s = .next { s with ret := .byte b } := by
  obtain ⟨hroom, hb⟩ := byte_at_pos hpos hsrc
  simp [exec, execPk8, peekByte_ok hroom, hb]

theorem exec_rd16_of_src {s : State} {pre post : List Byte} {b0 b1 : Byte} (hpos : s.pos = pre.length)
    (hsrc : s.src = pre ++ b0 :: b1 :: post) :
    exec .rd16 s = .next { s with pos := s.pos + 2, ret := .half (half b0 b1) } := by
  have hroom : s.pos + 2 ≤ srcLen s :=
    pos_add_le_srcLen (mid := [b0, b1]) (post := post) hpos (by simp [hsrc])
  have hlow : srcByte s s.pos = b0 := (byte_at_pos hpos hsrc).2
  have hhigh : srcByte s (s.pos + 1) = b1 := by
    simpa [hpos] using srcByte_append (pre := pre ++ [b0]) (post := post) (by simp [hsrc])
  simp [exec, execRd16, readHalf_ok hroom, hlow, hhigh]

theorem exec_rdn_of_src {s : State} {pre bs post : List Byte} (hpos : s.pos = pre.length)
    (hsrc : s.src = pre ++ bs ++ post) :
    exec (.rdn bs.length) s = .next { s with pos := s.pos + bs.length, ret := .bytes bs } := by
  have hbytes : (s.src.drop s.pos).take bs.length = bs := hpos ▸ srcTake_append hsrc
  simp [exec, execRdn, readBytes_ok (pos_add_le_srcLen hpos hsrc), hbytes]

/-! ### A primitive whose bytes do not remain -/

theorem exec_rd8_of_short {s : State} (h : srcLen s < s.pos + 1) : exec .rd8 s = .next (truncated 1 s) := by
  simp [exec, execRd8, readByte_trap h]

theorem exec_pk8_of_short {s : State} (h : srcLen s < s.pos + 1) : exec .pk8 s = .next (truncated 1 s) := by
  simp [exec, execPk8, peekByte_trap h]

theorem exec_rd16_of_short {s : State} (h : srcLen s < s.pos + 2) : exec .rd16 s = .next (truncated 2 s) := by
  simp [exec, execRd16, readHalf_trap h]

theorem exec_rdn_of_short {n : Nat} {s : State} (h : srcLen s < s.pos + n) :
    exec (.rdn n) s = .next (truncated n s) := by
  simp [exec, execRdn, readBytes_trap h]

end Sys2Proof.Machine

/-- Settles O10: one lemma for each primitive, and `half_toNat` for the little-endian value of `RD16`. -/
theorem readsReturnAndConsume : Obligations.ReadsReturnAndConsume := fun _ _ _ hpos =>
  ⟨fun _ hsrc => ⟨exec_rd8_of_src hpos hsrc, exec_pk8_of_src hpos hsrc⟩,
    fun b0 b1 hsrc => ⟨half b0 b1, half_toNat b0 b1, exec_rd16_of_src hpos hsrc⟩,
    fun _ hsrc => exec_rdn_of_src hpos hsrc⟩

/-- Settles O11: each primitive without its bytes ends in `truncated`, whose report is that of `raise`. -/
theorem shortReadsTrap : Obligations.ShortReadsTrap := by
  intro i n s hi hshort
  have htrap : exec i s = .next (truncated n s) := by
    rcases hi with ⟨rfl, rfl⟩ | ⟨rfl, rfl⟩ | ⟨rfl, rfl⟩ | rfl
    · exact exec_rd8_of_short hshort
    · exact exec_pk8_of_short hshort
    · exact exec_rd16_of_short hshort
    · exact exec_rdn_of_short hshort
  exact ⟨truncated n s, htrap, rfl, rfl, rfl, rfl, rfl, rfl, rfl, rfl, rfl, rfl⟩
end

section
/-! PROOFS. The sub-block reader: what its three operations do, its loop at one length byte, and the run over a whole
sequence by induction on the payloads (R150 to R152). -/

open Sys2Proof Sys2Proof.Machine

namespace Sys2Proof.Machine

/-! ### One operation -/

theorem exec_sbkRead (s : State) :
    exec .sbkRead s = .next { s with acc := [], ctl := .decodeAt .sbLength :: s.ctl } := rfl

/-- A read of as many bytes as stand at `POS` answers them (R144). -/
theorem readBytes_of_src {s : State} {pre bs post : List Byte} (hpos : s.pos = pre.length)
    (hsrc : s.src = pre ++ bs ++ post) : readBytes bs.length s = .ok bs { s with pos := s.pos + bs.length } := by
  rw [readBytes_ok (pos_add_le_srcLen hpos hsrc), hpos, srcTake_append hsrc]

theorem exec_sbkData_of_src {s : State} {pre payload post : List Byte} {n : Byte} (hpos : s.pos = pre.length)
    (hsrc : s.src = pre ++ n :: (payload ++ post)) (hlen : payload.length = n.toNat) :
    exec (.sbkData n) s = .next { s with
      pos := s.pos + 1 + n.toNat, sbLen := n, acc := s.acc ++ payload, ctl := .decodeAt .sbLength :: s.ctl } := by
  have hread := readBytes_of_src (s := { s with pos := s.pos + 1, sbLen := n }) (pre := pre ++ [n]) (bs := payload)
    (post := post) (by simp [hpos]) (by simp [hsrc])
  rw [hlen] at hread
  simp only [exec, execSbkData, readByte_ok (byte_at_pos hpos hsrc).1, Res.andThen_ok, hread, call,
    List.singleton_append]

/-- A payload that `SRC` cuts short traps at the first payload byte: the length byte has been consumed (R151, R140). -/
theorem exec_sbkData_of_short {s : State} {n : Byte} (hroom : s.pos < srcLen s)
    (hshort : srcLen s < s.pos + 1 + n.toNat) :
    exec (.sbkData n) s =
      .next (raise .truncated (s.pos + 1) n.toNat { s with pos := s.pos + 1, sbLen := n }) := by
  have htrap := readBytes_trap (s := { s with pos := s.pos + 1, sbLen := n }) hshort
  simp only [exec, execSbkData, readByte_ok hroom, Res.andThen_ok, htrap, Res.andThen_trap, truncated]

theorem exec_sbkTerm_of_room {s : State} (hroom : s.pos < srcLen s) :
    exec .sbkTerm s = .next { s with pos := s.pos + 1, sbLen := 0 } := by
  simp only [exec, execSbkTerm, readByte_ok hroom, Res.andThen_ok]

/-! ### The loop at one length byte -/

theorem decode_sbLength_at_pos {s : State} {pre post : List Byte} {n : Byte} (hpos : s.pos = pre.length)
    (hsrc : s.src = pre ++ n :: post) : decode .sbLength (bytesAt .sbLength s) = .ok (decodeSbLength n) := by
  simp [bytesAt, hpos, hsrc, decode]

theorem step_sbLength_missing {s : State} {rest : List Line} (hr : running s = true)
    (hctl : s.ctl = .decodeAt .sbLength :: rest) (hend : srcLen s ≤ s.pos) :
    step s = .next (raise .truncated s.pos 1 { s with ctl := rest }) := by
  have hnone : decode .sbLength (bytesAt .sbLength s) = .error (.short 1) := by
    rw [bytesAt, List.drop_eq_nil_of_le hend, decode]
  exact step_decodeAt_short hr hctl hnone

theorem step_sbLength_term {s : State} {rest : List Line} {pre post : List Byte} (hr : running s = true)
    (hctl : s.ctl = .decodeAt .sbLength :: rest) (hpos : s.pos = pre.length) (hsrc : s.src = pre ++ 0 :: post) :
    step s = .next { s with pos := s.pos + 1, sbLen := 0, ctl := rest } := by
  rw [step_decodeAt hr hctl (decode_sbLength_at_pos hpos hsrc)]
  exact exec_sbkTerm_of_room (byte_at_pos hpos hsrc).1

/-- A sub-block keeps the loop pending: `SBK.DATA` puts back the line that the step took off (R150). -/
theorem step_sbLength_data {s : State} {rest : List Line} {pre payload post : List Byte} {n : Byte}
    (hr : running s = true) (hctl : s.ctl = .decodeAt .sbLength :: rest) (hpos : s.pos = pre.length)
    (hsrc : s.src = pre ++ n :: (payload ++ post)) (hlen : payload.length = n.toNat) (hn : n ≠ 0) :
    step s = .next { s with pos := s.pos + 1 + n.toNat, sbLen := n, acc := s.acc ++ payload } := by
  have hdata : decodeSbLength n = .sbkData n := decodeSbLength_of_wf (wf_sbkData_iff.mpr hn)
  rw [step_decodeAt hr hctl (hdata ▸ decode_sbLength_at_pos hpos hsrc),
    exec_sbkData_of_src (s := { s with ctl := rest }) hpos hsrc hlen, ← hctl]

/-! ### A whole sequence -/

/-- The length byte of a payload that a sub-block can carry is not the terminator, and says its length (R107). -/
theorem lengthByte_of_payload {payload : List Byte} (h : 1 ≤ payload.length ∧ payload.length ≤ 255) :
    BitVec.ofNat 8 payload.length ≠ 0 ∧ payload.length = (BitVec.ofNat 8 payload.length).toNat := by
  have hval : payload.length = (BitVec.ofNat 8 payload.length).toNat := by
    rw [BitVec.toNat_ofNat, Nat.mod_eq_of_lt (by omega)]
  refine ⟨fun hzero => ?_, hval⟩
  have hempty : payload.length = 0 := hval.trans (congrArg BitVec.toNat hzero)
  omega

/-- The loop of R150 at the encoding of a sequence appends the payloads to what `ACC` holds and leaves after the
terminator, one step for each length byte. -/
theorem sbLength_loop_reaches {blocks : List (List Byte)} (hblocks : ∀ b ∈ blocks, 1 ≤ b.length ∧ b.length ≤ 255)
    {s : State} {rest : List Line} {pre post : List Byte} (hr : running s = true)
    (hctl : s.ctl = .decodeAt .sbLength :: rest) (hpos : s.pos = pre.length)
    (hsrc : s.src = pre ++ encodeSubBlocks blocks ++ post) :
    Reaches (blocks.length + 1) s
      { s with acc := s.acc ++ blocks.flatten, sbLen := 0, ctl := rest,
               pos := s.pos + (encodeSubBlocks blocks).length } := by
  induction blocks generalizing s pre with
  | nil =>
    have hterm := step_sbLength_term (post := post) hr hctl hpos (by simp [hsrc, encodeSubBlocks])
    simpa [encodeSubBlocks] using Reaches.one hterm
  | cons payload blocks ih =>
    obtain ⟨hpayload, hblocks⟩ := List.forall_mem_cons.mp hblocks
    obtain ⟨hn, hlen⟩ := lengthByte_of_payload hpayload
    have hdata := step_sbLength_data (post := encodeSubBlocks blocks ++ post) hr hctl hpos
      (by simp [hsrc, encodeSubBlocks]) hlen hn
    rw [← hlen] at hdata
    have htail := ih hblocks (pre := pre ++ BitVec.ofNat 8 payload.length :: payload)
      (s := { s with pos := s.pos + 1 + payload.length, sbLen := BitVec.ofNat 8 payload.length,
                     acc := s.acc ++ payload })
      hr hctl (by simp [hpos]; omega) (by simp [hsrc, encodeSubBlocks])
    have hsize : s.pos + (encodeSubBlocks (payload :: blocks)).length =
        s.pos + 1 + payload.length + (encodeSubBlocks blocks).length := by
      simp [encodeSubBlocks]; omega
    rw [hsize, List.flatten_cons, ← List.append_assoc]
    exact Reaches.head hdata htail

end Sys2Proof.Machine

/-- Settles O12: one lemma for each operation and one for the loop without a length byte. -/
theorem subBlockSteps : Obligations.SubBlockSteps :=
  ⟨exec_sbkRead, fun _ _ _ _ _ => exec_sbkData_of_src, fun _ _ => exec_sbkData_of_short,
    fun _ => exec_sbkTerm_of_room, fun _ _ => step_sbLength_missing⟩

/-- Settles O13: the call empties `ACC`, and the loop, by induction on the payloads, fills it. -/
theorem subBlocksReassembled : Obligations.SubBlocksReassembled := by
  intro s rest pre post blocks hr hctl hpos hsrc hblocks
  have hcall : step s = .next { s with acc := [], ctl := .decodeAt .sbLength :: rest } :=
    (step_run hr hctl).trans (exec_sbkRead _)
  exact Reaches.head hcall
    (sbLength_loop_reaches (s := { s with acc := [], ctl := .decodeAt .sbLength :: rest }) hblocks hr rfl hpos hsrc)
end

section
/-! PROOFS. The container demuxer: the header and its two magics, the screen descriptor whole and cut short, the global
table, and the classification of a block by its introducer (R160 to R171). -/

open Sys2Proof Sys2Proof.Machine

namespace Sys2Proof.Machine

/-! ### A run of reads

What stands in `SRC` from `POS` on is `s.src.drop s.pos`; each read hands the rest of it to the next. -/

theorem drop_pos_of_src {s : State} {pre rest : List Byte} (hpos : s.pos = pre.length) (hsrc : s.src = pre ++ rest) :
    s.src.drop s.pos = rest := by
  rw [hpos, hsrc, List.drop_left]

theorem drop_pos_add {s : State} {bs rest : List Byte} (h : s.src.drop s.pos = bs ++ rest) :
    s.src.drop (s.pos + bs.length) = rest := by
  rw [← List.drop_drop, h, List.drop_left]

theorem srcByte_of_drop {s : State} {bs : List Byte} (h : s.src.drop s.pos = bs) (i : Nat) :
    srcByte s (s.pos + i) = bs.getD i 0 := by
  simp [srcByte, ← h, List.getD]

theorem room_of_drop {s : State} {bs : List Byte} (h : s.src.drop s.pos = bs) : srcLen s - s.pos = bs.length := by
  rw [← h, List.length_drop, srcLen]

/-- An operation that begins with `RD8` at the byte `b` goes on with it (R141). -/
theorem readByte_andThen {s : State} {b : Byte} {rest : List Byte} {f : Byte → State → Out} {o : Out}
    (h : s.src.drop s.pos = b :: rest)
    (hf : s.src.drop (s.pos + 1) = rest → f b { s with pos := s.pos + 1 } = o) : (readByte s).andThen f = o := by
  have hlen := room_of_drop h
  rw [List.length_cons] at hlen
  have hb : srcByte s s.pos = b := srcByte_of_drop h 0
  rw [readByte_ok (by omega), hb]
  exact hf (drop_pos_add (bs := [b]) h)

/-- An operation that begins with `RD16` at the two bytes of `v` goes on with it (R143). -/
theorem readHalf_andThen {s : State} {v : Half} {rest : List Byte} {f : Half → State → Out} {o : Out}
    (h : s.src.drop s.pos = halfBytes v ++ rest)
    (hf : s.src.drop (s.pos + 2) = rest → f v { s with pos := s.pos + 2 } = o) : (readHalf s).andThen f = o := by
  have hlen := room_of_drop h
  rw [List.length_append] at hlen
  have hsize : (halfBytes v).length = 2 := rfl
  have hlo : srcByte s s.pos = v.extractLsb' 0 8 := srcByte_of_drop h 0
  have hhi : srcByte s (s.pos + 1) = v.extractLsb' 8 8 := srcByte_of_drop h 1
  rw [readHalf_ok (by omega), hlo, hhi, half_halfBytes]
  exact hf (drop_pos_add h)

/-! ### A run of reads that `SRC` cuts short -/

/-- The outcome is the fault `TRUNCATED(p, n)`, with `POS` left at `p`, where the read of `n` bytes began (R140). -/
def CutShort (p n : Nat) (o : Out) : Prop :=
  ∃ t, o = .next t ∧ t.status.fault = true ∧ t.faultCause = 4 ∧ t.pos = p ∧ t.faultPos = t.pos ∧
    t.faultAux = n

theorem cutShort_truncated (n : Nat) (s : State) : CutShort s.pos n (.next (truncated n s)) :=
  ⟨truncated n s, rfl, rfl, rfl, rfl, rfl, rfl⟩

/-- With `left` bytes left from `q` on, an operation that begins with a read of `m` bytes is cut short there, or in what
follows with the `k` bytes then left. -/
theorem cutShort_read {α : Type} {s : State} {m q left p n : Nat} {v : α} {r : Res α} {f : α → State → Out}
    (hr : (s.pos + m ≤ srcLen s ∧ r = .ok v { s with pos := s.pos + m }) ∨
      (srcLen s < s.pos + m ∧ r = .trap (truncated m s)))
    (hpos : s.pos = q) (hleft : q + left = srcLen s) (hhere : left < m → p = q ∧ n = m)
    (hf : ∀ u k, left = k + m → u.pos = q + m → q + m + k = srcLen u → CutShort p n (f v u)) :
    CutShort p n (r.andThen f) := by
  subst hpos
  rcases hr with ⟨hroom, rfl⟩ | ⟨hshort, rfl⟩
  · obtain ⟨k, rfl⟩ : ∃ k, left = k + m := Nat.exists_eq_add_of_le' (by omega)
    exact hf _ k rfl rfl (show s.pos + m + k = srcLen s by omega)
  · obtain ⟨rfl, rfl⟩ := hhere (by omega)
    exact cutShort_truncated _ s

/-! ### The header (R161) -/

theorem magicBytes_injective : Function.Injective magicBytes := by
  intro m m' h
  simp only [magicBytes, List.cons.injEq] at h
  obtain ⟨h0, h1, h2, h3, h4, h5, -⟩ := h
  rw [← magicOf_magicBytes m, h0, h1, h2, h3, h4, h5, magicOf_magicBytes]

theorem magicBytes_magic87a : magicBytes magic87a = [0x47, 0x49, 0x46, 0x38, 0x37, 0x61] := by decide

theorem magicBytes_magic89a : magicBytes magic89a = [0x47, 0x49, 0x46, 0x38, 0x39, 0x61] := by decide

/-- Six bytes are the bytes of a magic. -/
theorem exists_magicBytes {bs : List Byte} (h : bs.length = 6) : ∃ m, magicBytes m = bs := by
  match bs, h with
  | [a, b, c, d, e, f], _ => exact ⟨magicOf a b c d e f, magicBytes_magicOf a b c d e f⟩

theorem decode_header_short {bs : List Byte} (h : bs.length < 6) : decode .header bs = .error (.short 6) := by
  match bs, h with
  | [], _ | [_], _ | [_, _], _ | [_, _, _], _ | [_, _, _, _], _ | [_, _, _, _, _], _ => rfl
  | _ :: _ :: _ :: _ :: _ :: _ :: _, h => simp at h; omega

theorem exec_hdr87a_of_room {s : State} (h : s.pos + 6 ≤ srcLen s) :
    exec .hdr87a s = .next { s with pos := s.pos + 6, img := { s.img with version := 0x383761 } } := by
  simp [exec, execHdr87a, header, readBytes_ok h, magic87a]

theorem exec_hdr89a_of_room {s : State} (h : s.pos + 6 ≤ srcLen s) :
    exec .hdr89a s = .next { s with pos := s.pos + 6, img := { s.img with version := 0x383961 } } := by
  simp [exec, execHdr89a, header, readBytes_ok h, magic89a]

theorem exec_hdrBad_of_room {s : State} (h : s.pos + 6 ≤ srcLen s) (m : BitVec 48) :
    exec (.hdrBad m) s = .next (raise .badMagic s.pos 0 { s with pos := s.pos + 6 }) := by
  simp [exec, execHdrBad, readBytes_ok h]

/-- The row that a magic selects, run where its six bytes remain. -/
theorem exec_decodeMagic {s : State} (h : s.pos + 6 ≤ srcLen s) (m : BitVec 48) :
    exec (decodeMagic m) s =
      if m = magic87a then .next { s with pos := s.pos + 6, img := { s.img with version := 0x383761 } }
      else if m = magic89a then .next { s with pos := s.pos + 6, img := { s.img with version := 0x383961 } }
      else .next (raise .badMagic s.pos 0 { s with pos := s.pos + 6 }) := by
  unfold decodeMagic
  split_ifs
  · exact exec_hdr87a_of_room h
  · exact exec_hdr89a_of_room h
  · exact exec_hdrBad_of_room h m

theorem step_header_short {s : State} {rest : List Line} (hr : running s = true)
    (hctl : s.ctl = .decodeAt .header :: rest) (hshort : srcLen s < s.pos + 6) :
    step s = .next (raise .truncated s.pos 6 { s with ctl := rest }) := by
  have hbytes : (bytesAt .header s).length < 6 := by
    simp only [bytesAt, List.length_drop]
    unfold srcLen at hshort
    omega
  exact step_decodeAt_short hr hctl (decode_header_short hbytes)

theorem step_header_magicBytes {s : State} {rest : List Line} {pre post : List Byte} {m : BitVec 48}
    (hr : running s = true) (hctl : s.ctl = .decodeAt .header :: rest) (hpos : s.pos = pre.length)
    (hsrc : s.src = pre ++ magicBytes m ++ post) : step s = exec (decodeMagic m) { s with ctl := rest } := by
  have hbytes : bytesAt .header s = magicBytes m ++ post :=
    drop_pos_of_src hpos (hsrc.trans (List.append_assoc ..))
  exact step_decodeAt hr hctl (hbytes ▸ decode_magicBytes m post)

/-! ### The screen descriptor and the global table (R162, R163) -/

theorem exec_lsdesc_of_src {s : State} {pre post : List Byte} {w h : Half} {flags bg aspect : Byte}
    (hpos : s.pos = pre.length) (hsrc : s.src = pre ++ encodeLsd w h flags bg aspect ++ post) :
    exec .lsdesc s = .next { s with
      pos := s.pos + 7,
      img := { s.img with lsdWidth := w, lsdHeight := h, lsdFlags := flags, bgIndex := bg, aspect := aspect } } := by
  have hbytes : s.src.drop s.pos = halfBytes w ++ (halfBytes h ++ flags :: bg :: aspect :: post) :=
    drop_pos_of_src hpos (by simp [hsrc, encodeLsd])
  refine readHalf_andThen hbytes fun hbytes => ?_
  refine readHalf_andThen hbytes fun hbytes => ?_
  refine readByte_andThen hbytes fun hbytes => ?_
  refine readByte_andThen hbytes fun hbytes => ?_
  exact readByte_andThen hbytes fun _ => rfl

/-- Where `LSDESC` is cut short, by the bytes left: the whole fields before, and the size of the failing read. -/
theorem cutShort_lsdesc {s : State} {left : Nat} (hshort : left < 7) (hleft : s.pos + left = srcLen s) :
    CutShort (s.pos + (if left < 2 then 0 else if left < 4 then 2 else left)) (if left < 4 then 2 else 1)
      (exec .lsdesc s) := by
  refine cutShort_read (readHalf_cases _) rfl hleft (fun _ => ?_) fun _ _ hk hpos hleft => ?_
  · split_ifs <;> omega
  refine cutShort_read (readHalf_cases _) hpos hleft (fun _ => ?_) fun _ _ hk hpos hleft => ?_
  · split_ifs <;> omega
  rw [if_neg (by omega), if_neg (by omega), if_neg (by omega)]
  refine cutShort_read (readByte_cases _) hpos hleft (fun _ => by omega) fun _ _ hk hpos hleft => ?_
  refine cutShort_read (readByte_cases _) hpos hleft (fun _ => by omega) fun _ _ hk hpos hleft => ?_
  exact cutShort_read (readByte_cases _) hpos hleft (fun _ => by omega) fun _ _ _ _ _ => by omega

theorem exec_gctRead_of_absent {s : State} (h : gctPresent s.img.lsdFlags = false) :
    exec .gctRead s = .next { s with img := { s.img with gct := none } } := if_neg (ne_true_of_eq_false h)

theorem exec_gctRead_of_present {s : State} (h : gctPresent s.img.lsdFlags = true) :
    exec .gctRead s = (readBytes (3 * gctEntries s) s).andThen fun t s =>
      .next { s with img := { s.img with gct := some (tableOf t) } } := if_pos h

theorem exec_gctRead_of_src {s : State} {pre post : List Byte} {table : List Rgb}
    (h : gctPresent s.img.lsdFlags = true) (hpos : s.pos = pre.length)
    (hsrc : s.src = pre ++ encodeTable table ++ post) (hlen : table.length = gctEntries s) :
    exec .gctRead s = .next { s with pos := s.pos + 3 * table.length, img := { s.img with gct := some table } } := by
  rw [exec_gctRead_of_present h, ← hlen, ← encodeTable_length, readBytes_of_src hpos hsrc, Res.andThen_ok,
    tableOf_encodeTable]

theorem exec_gctRead_of_short {s : State} (h : gctPresent s.img.lsdFlags = true)
    (hshort : srcLen s < s.pos + 3 * gctEntries s) :
    exec .gctRead s = .next (truncated (3 * gctEntries s) s) := by
  rw [exec_gctRead_of_present h, readBytes_trap hshort, Res.andThen_trap]

/-! ### The block loop (R160, R164 to R171) -/

theorem exec_blkClassify_of_room {s : State} (h : s.pos < srcLen s) :
    exec .blkClassify s =
      .next { s with peeked := srcByte s s.pos, ctl := .decodeAt .introducer :: s.ctl } := by
  simp only [exec, execBlkClassify, peekByte_ok h, Res.andThen_ok, call, List.singleton_append]

theorem exec_blkClassify_of_end {s : State} (h : srcLen s ≤ s.pos) :
    exec .blkClassify s = .next (truncated 1 s) := by
  simp only [exec, execBlkClassify, peekByte_trap (Nat.lt_succ_of_le h), Res.andThen_trap]

/-- The row that an introducer selects, run. -/
theorem exec_decodeIntroducer (b : Byte) (s : State) :
    exec (decodeIntroducer b) s = .next
      (if b = 0x2C then { s with phase := .image, ctl := .run .imgBlock :: .blockLoop :: s.ctl }
      else if b = 0x21 then { s with phase := .extension, ctl := .run .extBlock :: .blockLoop :: s.ctl }
      else if b = 0x3B then s
      else raise .unknownBlock s.pos b.toNat s) := by
  unfold decodeIntroducer
  split_ifs <;> rfl

end Sys2Proof.Machine

/-- Settles O15: the six bytes are those of a magic, and `magicBytes` being injective tells the two legal ones apart. -/
theorem headerStep : Obligations.HeaderStep := by
  refine ⟨fun s rest hr hctl => ⟨step_header_short hr hctl, ?_⟩,
    fun s hroom => ⟨exec_hdr87a_of_room hroom, exec_hdr89a_of_room hroom, exec_hdrBad_of_room hroom⟩⟩
  intro pre magic post hpos hsrc hlen
  have hroom : s.pos + 6 ≤ srcLen s := hlen ▸ pos_add_le_srcLen hpos hsrc
  obtain ⟨m, rfl⟩ := exists_magicBytes hlen
  rw [step_header_magicBytes hr hctl hpos hsrc, exec_decodeMagic (s := { s with ctl := rest }) hroom,
    ← magicBytes_magic87a, ← magicBytes_magic89a]
  simp only [magicBytes_injective.eq_iff]

/-- Settles O16: five reads in a row, each finding its field. -/
theorem lsdescFields : Obligations.LsdescFields := fun _ _ _ _ _ _ _ _ => exec_lsdesc_of_src

/-- Settles O17: the five reads in order, the first that lacks its bytes ends the operation. -/
theorem lsdescCutShort : Obligations.LsdescCutShort := fun _ _ => cutShort_lsdesc

/-- Settles O18: without the flag no read, with it one read of the whole table. -/
theorem gctReadTable : Obligations.GctReadTable := fun _ =>
  ⟨exec_gctRead_of_absent, fun h => ⟨fun _ _ _ => exec_gctRead_of_src h, exec_gctRead_of_short h⟩⟩

/-- Settles O19: the step of `BLK.CLASSIFY`, then the step of the row that the peeked byte selects. -/
theorem blockClassified : Obligations.BlockClassified := by
  intro s rest hr hctl
  refine ⟨fun hend => (step_run hr hctl).trans (exec_blkClassify_of_end hend), fun pre b post hpos hsrc => ?_⟩
  obtain ⟨hroom, hb⟩ := byte_at_pos hpos hsrc
  have hpeek : step s = .next { s with peeked := b, ctl := .decodeAt .introducer :: rest } := by
    rw [step_run hr hctl, exec_blkClassify_of_room (s := { s with ctl := rest }) hroom, ← hb]
    rfl
  have hrow := (step_decodeAt (s := { s with peeked := b, ctl := .decodeAt .introducer :: rest }) hr rfl rfl).trans
    (exec_decodeIntroducer b _)
  exact Reaches.head hpeek (Reaches.one hrow)

/-- Settles O14: the pending lines of `DEMUX`, and the two lines that set `PHASE`. -/
theorem demuxOrder : Obligations.DemuxOrder :=
  ⟨fun _ => rfl, fun _ _ hr => ⟨fun _ => step_line hr, step_line hr⟩⟩

/-- Settles O20: `BLK.CLASSIFY` peeks, the other rows read nothing. -/
theorem blockOperations : Obligations.BlockOperations := fun _ =>
  ⟨exec_blkClassify_of_room, rfl, rfl, rfl, fun _ => rfl⟩
end

section
/-! PROOFS. The image block parser and the extension parser: the operations of an image block one by one, and the run
over an extension block, whose label only names what is stored (R180 to R191). -/

open Sys2Proof Sys2Proof.Machine

namespace Sys2Proof.Machine

/-! ### Operations that begin with `RD8` -/

theorem readByte_andThen_of_room {s : State} {f : Byte → State → Out} (h : s.pos < srcLen s) :
    (readByte s).andThen f = f (srcByte s s.pos) { s with pos := s.pos + 1 } := by
  rw [readByte_ok h, Res.andThen_ok]

theorem readByte_andThen_of_end {s : State} {f : Byte → State → Out} {o : Out} (h : srcLen s ≤ s.pos)
    (ho : .next (truncated 1 s) = o) : (readByte s).andThen f = o := by
  rw [readByte_trap (Nat.lt_succ_of_le h), Res.andThen_trap, ho]

/-! ### The separator and the code size (R181, R184) -/

theorem exec_imgSep_of_src {s : State} {pre post : List Byte} {b : Byte} (hpos : s.pos = pre.length)
    (hsrc : s.src = pre ++ b :: post) :
    exec .imgSep s =
      if b = 0x2C then .next { s with pos := s.pos + 1 }
      else .next (raise .badSeparator s.pos b.toNat { s with pos := s.pos + 1 }) :=
  readByte_andThen (drop_pos_of_src hpos hsrc) fun _ => rfl

theorem exec_imgSep_of_end {s : State} (h : srcLen s ≤ s.pos) : exec .imgSep s = .next (truncated 1 s) :=
  readByte_andThen_of_end h rfl

theorem exec_imgMcs_of_src {s : State} {pre post : List Byte} {b : Byte} (hpos : s.pos = pre.length)
    (hsrc : s.src = pre ++ b :: post) :
    exec .imgMcs s = .next { s with
      mcsPos := s.pos, pos := s.pos + 1, cur := { s.cur with minCodeSize := b } } :=
  readByte_andThen (s := { s with mcsPos := s.pos }) (drop_pos_of_src hpos hsrc) fun _ => rfl

/-- `MCS_POS` is written before the read that fails (R184). -/
theorem exec_imgMcs_of_end {s : State} (h : srcLen s ≤ s.pos) :
    exec .imgMcs s = .next (truncated 1 { s with mcsPos := s.pos }) :=
  readByte_andThen_of_end (s := { s with mcsPos := s.pos }) h rfl

/-! ### The image descriptor (R182) -/

theorem halfBytes_half (lo hi : Byte) : halfBytes (half lo hi) = [lo, hi] := by
  rw [halfBytes, half, byte_append_low, byte_append_high hi lo 0, BitVec.extractLsb'_eq_self]

/-- An operation that begins with `RD16` at the bytes `lo` and `hi` goes on with `lo + 256 * hi` (R143, R112). -/
theorem readHalf_andThen_pair {s : State} {lo hi : Byte} {rest : List Byte} {f : Half → State → Out} {o : Out}
    (h : s.src.drop s.pos = lo :: hi :: rest)
    (hf : s.src.drop (s.pos + 2) = rest → f (half lo hi) { s with pos := s.pos + 2 } = o) :
    (readHalf s).andThen f = o :=
  readHalf_andThen (by rw [h, halfBytes_half, List.cons_append, List.singleton_append]) hf

theorem readHalf_andThen_short {s : State} {bs : List Byte} {f : Half → State → Out} {o : Out}
    (h : s.src.drop s.pos = bs) (hshort : bs.length < 2) (ho : .next (truncated 2 s) = o) :
    (readHalf s).andThen f = o := by
  have hleft := room_of_drop h
  rw [readHalf_trap (by omega), Res.andThen_trap, ho]

theorem exec_imgDesc_of_src {s : State} {pre post : List Byte} {l t w h : Half} {flags : Byte}
    (hpos : s.pos = pre.length) (hsrc : s.src = pre ++ encodeImageDesc l t w h flags ++ post) :
    exec .imgDesc s = .next { s with
      pos := s.pos + 9,
      cur := { s.cur with left := l, top := t, width := w, height := h, flags := flags } } := by
  have hbytes : s.src.drop s.pos =
      halfBytes l ++ (halfBytes t ++ (halfBytes w ++ (halfBytes h ++ flags :: post))) :=
    drop_pos_of_src hpos (by simp [hsrc, encodeImageDesc])
  refine readHalf_andThen hbytes fun hbytes => ?_
  refine readHalf_andThen hbytes fun hbytes => ?_
  refine readHalf_andThen hbytes fun hbytes => ?_
  refine readHalf_andThen hbytes fun hbytes => ?_
  exact readByte_andThen hbytes fun _ => rfl

/-- What `IMG.DESC` leaves in `CUR` when the bytes `bs`, fewer than nine, are all that `SRC` still holds: the fields that
are whole, the others as they were. -/
def descFields (bs : List Byte) (f : Frame) : Frame :=
  { f with
    left := if bs.length < 2 then f.left else half (bs.getD 0 0) (bs.getD 1 0)
    top := if bs.length < 4 then f.top else half (bs.getD 2 0) (bs.getD 3 0)
    width := if bs.length < 6 then f.width else half (bs.getD 4 0) (bs.getD 5 0)
    height := if bs.length < 8 then f.height else half (bs.getD 6 0) (bs.getD 7 0) }

/-- Where `IMG.DESC` is cut short: each pair of bytes is a whole field, and the read after the last pair fails. -/
theorem exec_imgDesc_of_short {s : State} {bs : List Byte} (hbytes : s.src.drop s.pos = bs) (hshort : bs.length < 9) :
    exec .imgDesc s = .next (truncated (if bs.length < 8 then 2 else 1) { s with
      pos := s.pos + (if bs.length < 8 then 2 * (bs.length / 2) else 8), cur := descFields bs s.cur }) := by
  match bs, hshort with
  | [], _ | [_], _ =>
    exact readHalf_andThen_short hbytes (by simp) (by simp [descFields])
  | [_, _], _ | [_, _, _], _ =>
    refine readHalf_andThen_pair hbytes fun hbytes => ?_
    exact readHalf_andThen_short hbytes (by simp) (by simp [descFields])
  | [_, _, _, _], _ | [_, _, _, _, _], _ =>
    refine readHalf_andThen_pair hbytes fun hbytes => ?_
    refine readHalf_andThen_pair hbytes fun hbytes => ?_
    exact readHalf_andThen_short hbytes (by simp) (by simp [descFields])
  | [_, _, _, _, _, _], _ | [_, _, _, _, _, _, _], _ =>
    refine readHalf_andThen_pair hbytes fun hbytes => ?_
    refine readHalf_andThen_pair hbytes fun hbytes => ?_
    refine readHalf_andThen_pair hbytes fun hbytes => ?_
    exact readHalf_andThen_short hbytes (by simp) (by simp [descFields])
  | [_, _, _, _, _, _, _, _], _ =>
    refine readHalf_andThen_pair hbytes fun hbytes => ?_
    refine readHalf_andThen_pair hbytes fun hbytes => ?_
    refine readHalf_andThen_pair hbytes fun hbytes => ?_
    refine readHalf_andThen_pair hbytes fun hbytes => ?_
    exact readByte_andThen_of_end (List.drop_eq_nil_iff.mp hbytes) (by simp [descFields])
  | _ :: _ :: _ :: _ :: _ :: _ :: _ :: _ :: _ :: _, hshort => simp at hshort; omega

/-! ### The local table (R183) -/

theorem exec_lctRead_of_absent {s : State} (h : lctPresent s.cur.flags = false) :
    exec .lctRead s = .next { s with cur := { s.cur with lct := none } } := if_neg (ne_true_of_eq_false h)

theorem exec_lctRead_of_present {s : State} (h : lctPresent s.cur.flags = true) :
    exec .lctRead s = (readBytes (3 * lctEntries s.cur) s).andThen fun t s =>
      .next { s with cur := { s.cur with lct := some (tableOf t) } } := if_pos h

theorem exec_lctRead_of_src {s : State} {pre post : List Byte} {table : List Rgb}
    (h : lctPresent s.cur.flags = true) (hpos : s.pos = pre.length)
    (hsrc : s.src = pre ++ encodeTable table ++ post) (hlen : table.length = lctEntries s.cur) :
    exec .lctRead s = .next { s with pos := s.pos + 3 * table.length, cur := { s.cur with lct := some table } } := by
  rw [exec_lctRead_of_present h, ← hlen, ← encodeTable_length, readBytes_of_src hpos hsrc, Res.andThen_ok,
    tableOf_encodeTable]

theorem exec_lctRead_of_short {s : State} (h : lctPresent s.cur.flags = true)
    (hshort : srcLen s < s.pos + 3 * lctEntries s.cur) :
    exec .lctRead s = .next (truncated (3 * lctEntries s.cur) s) := by
  rw [exec_lctRead_of_present h, readBytes_trap hshort, Res.andThen_trap]

/-! ### The extension parser (R190, R191) -/

theorem exec_extBlock_of_room {s : State} (h : s.pos < srcLen s) :
    exec .extBlock s = .next { s with pos := s.pos + 1, ctl := .decodeAt .label :: s.ctl } :=
  readByte_andThen_of_room h

theorem exec_extBlock_of_end {s : State} (h : srcLen s ≤ s.pos) : exec .extBlock s = .next (truncated 1 s) :=
  readByte_andThen_of_end h rfl

theorem labelled_of_room {s : State} (h : s.pos < srcLen s) (l : Byte) :
    labelled l s = .next { s with
      pos := s.pos + 1, curLabel := l, ctl := .run .sbkRead :: .storeExt :: s.ctl } :=
  readByte_andThen_of_room h

theorem labelled_of_end {s : State} (h : srcLen s ≤ s.pos) (l : Byte) :
    labelled l s = .next (truncated 1 s) :=
  readByte_andThen_of_end h rfl

theorem step_label_missing {s : State} {rest : List Line} (hr : running s = true)
    (hctl : s.ctl = .decodeAt .label :: rest) (hend : srcLen s ≤ s.pos) :
    step s = .next (raise .truncated s.pos 1 { s with ctl := rest }) := by
  have hnone : decode .label (bytesAt .label s) = .error (.short 1) := by
    rw [bytesAt, List.drop_eq_nil_of_le hend, decode]
  exact step_decodeAt_short hr hctl hnone

/-- At the label byte the engine runs the row that the byte selects, which goes on as every row does (R191). -/
theorem step_label {s : State} {rest : List Line} {pre post : List Byte} {l : Byte} (hr : running s = true)
    (hctl : s.ctl = .decodeAt .label :: rest) (hpos : s.pos = pre.length) (hsrc : s.src = pre ++ l :: post) :
    step s = .next { s with pos := s.pos + 1, curLabel := l, ctl := .run .sbkRead :: .storeExt :: rest } := by
  have hrow : decode .label (bytesAt .label s) = .ok (decodeLabel l) := by
    rw [bytesAt, drop_pos_of_src hpos hsrc, decode]
  rw [step_decodeAt hr hctl hrow, exec_decodeLabel]
  exact labelled_of_room (s := { s with ctl := rest }) (byte_at_pos hpos hsrc).1 l

theorem step_storeExt {s : State} {rest : List Line} (hr : running s = true) (hctl : s.ctl = .storeExt :: rest) :
    step s = .next (storeExt { s with ctl := rest }) :=
  step_line hr hctl

end Sys2Proof.Machine

/-- Settles O27: the introducer, the label, the sub-blocks as `subBlocksReassembled` runs them, and the last lines of
`EXT.BLOCK`, which find the label and the data in `CUR_LABEL` and `ACC`. -/
theorem extensionStored : Obligations.ExtensionStored := by
  intro s rest pre post intro label blocks hr hctl hpos hsrc hblocks
  have hintro : step s = .next { s with pos := s.pos + 1, ctl := .decodeAt .label :: rest } :=
    (step_run hr hctl).trans (exec_extBlock_of_room (s := { s with ctl := rest }) (byte_at_pos hpos hsrc).1)
  have hlabel := step_label (s := { s with pos := s.pos + 1, ctl := .decodeAt .label :: rest }) (pre := pre ++ [intro])
    (l := label) (post := encodeSubBlocks blocks ++ post) hr rfl (by simp [hpos]) (by simp [hsrc])
  have hdata := subBlocksReassembled
    { s with pos := s.pos + 2, curLabel := label, ctl := .run .sbkRead :: .storeExt :: rest } (.storeExt :: rest)
    (pre ++ [intro, label]) post blocks hr rfl (by simp [hpos]) (by simp [hsrc]) hblocks
  exact Reaches.head hintro (Reaches.head hlabel (hdata.trans (Reaches.one (step_storeExt hr rfl))))

/-- Settles O22: each of the two operations is one read of a byte. -/
theorem separatorAndCodeSize : Obligations.SeparatorAndCodeSize := fun _ =>
  ⟨fun _ _ _ hpos hsrc => ⟨exec_imgSep_of_src hpos hsrc, exec_imgMcs_of_src hpos hsrc⟩,
    fun hend => ⟨exec_imgSep_of_end hend, exec_imgMcs_of_end hend⟩⟩

/-- Settles O23: five reads in order, each finding its field, or the first that lacks its bytes ending the operation. -/
theorem imageDescFields : Obligations.ImageDescFields :=
  ⟨fun _ _ _ _ _ _ _ _ => exec_imgDesc_of_src, fun _ _ _ hpos hsrc hshort =>
    ⟨_, exec_imgDesc_of_short (drop_pos_of_src hpos hsrc) hshort, rfl, rfl, rfl, rfl, rfl, rfl⟩⟩

/-- Settles O24: without the flag no read, with it one read of the whole table. -/
theorem lctReadTable : Obligations.LctReadTable := fun _ =>
  ⟨exec_lctRead_of_absent, fun h => ⟨fun _ _ _ => exec_lctRead_of_src h, exec_lctRead_of_short h⟩⟩

/-- Settles O25: the two outcomes of comparing `len(OUT)` with the pixel count. -/
theorem frameCommitted : Obligations.FrameCommitted := fun _ => ⟨fun h => if_pos h, fun h => if_neg h⟩

/-- Settles O26: each label row is `labelled` at its own label. -/
theorem extensionSteps : Obligations.ExtensionSteps := by
  intro s
  refine ⟨exec_extBlock_of_room, exec_extBlock_of_end, fun i l hi => ?_⟩
  have hrow : exec i s = labelled l s := by
    rcases hi with ⟨rfl, rfl⟩ | ⟨rfl, rfl⟩ | ⟨rfl, rfl⟩ | ⟨rfl, rfl⟩ | rfl <;> rfl
  rw [hrow]
  exact ⟨fun h => labelled_of_room h l, fun h => labelled_of_end h l, fun _ => step_label_missing⟩

/-- Settles O21: the pending lines of `IMG.BLOCK`, and the one call of each of `IMG.DATA` and `IMG.DECODE`. -/
theorem imageBlockOrder : Obligations.ImageBlockOrder := fun _ => ⟨rfl, rfl, rfl⟩
end

section
/-! PROOFS. The LZW decoder, line by line: the start and the end of a decode, the fetch, and what each class of
a fetched code does (R200 to R217). -/

open Sys2Proof Sys2Proof.Machine

namespace Sys2Proof.Machine

/-! ### The start of a decode (R200, R201) -/

theorem exec_lzwInit_of_admitted {s : State} {cs : Byte} (hlo : 2 ≤ cs.toNat) (hhi : cs.toNat ≤ 8) :
    exec (.lzwInit cs) s = .next { s with lzw := initLzw cs.toNat s.lzw } :=
  if_neg (not_or.mpr ⟨Nat.not_lt.mpr hlo, Nat.not_lt.mpr hhi⟩)

/-- `LZW.RUN` reaches the head of the loop with the initial registers of `CUR.MIN_CODE_SIZE`. -/
theorem lzwRun_reaches_loop {s : State} {rest : List Line} (hr : running s = true) (hctl : s.ctl = .run .lzwRun :: rest)
    (hlo : 2 ≤ s.cur.minCodeSize.toNat) (hhi : s.cur.minCodeSize.toNat ≤ 8) :
    Reaches 2 s { s with lzw := initLzw s.cur.minCodeSize.toNat s.lzw, ctl := .lzwNext :: rest } := by
  have hcall : step s = .next { s with ctl := .run (.lzwInit s.cur.minCodeSize) :: .lzwNext :: rest } :=
    step_run hr hctl
  have hinit := step_run (s := { s with ctl := .run (.lzwInit s.cur.minCodeSize) :: .lzwNext :: rest }) hr rfl
  exact Reaches.head hcall (Reaches.one (hinit.trans (exec_lzwInit_of_admitted hlo hhi)))

/-! ### The head of the loop (R200, R203, R204) -/

theorem exec_lzwFetch_of_room {s : State} (h : ¬ bitsLeft s < s.lzw.codeLen) :
    exec .lzwFetch s = .next { s with lzw := fetchCode s.acc s.lzw, ctl := .lzwClassify :: s.ctl } := if_neg h

/-- Too few bits left for a code: the decode ends with the cursor where it is. -/
theorem step_lzwNext_of_short {s : State} {rest : List Line} (hr : running s = true) (hctl : s.ctl = .lzwNext :: rest)
    (h : bitsLeft s < s.lzw.codeLen) :
    step s = .next { s with lzw := { s.lzw with status := .exhausted }, ctl := rest } := by
  have hrow : decodeLzwNext (bitsLeft s) s.lzw.codeLen = .lzwExh := if_pos h
  calc step s = exec (decodeLzwNext (bitsLeft s) s.lzw.codeLen) { s with ctl := rest } := step_eq_runLine hr hctl
    _ = _ := by rw [hrow]; rfl

theorem step_lzwNext_of_room {s : State} {rest : List Line} (hr : running s = true) (hctl : s.ctl = .lzwNext :: rest)
    (h : ¬ bitsLeft s < s.lzw.codeLen) :
    step s = .next { s with lzw := fetchCode s.acc s.lzw, ctl := .lzwClassify :: rest } := by
  have hrow : decodeLzwNext (bitsLeft s) s.lzw.codeLen = .lzwFetch := if_neg h
  calc step s = exec (decodeLzwNext (bitsLeft s) s.lzw.codeLen) { s with ctl := rest } := step_eq_runLine hr hctl
    _ = _ := by rw [hrow]; exact exec_lzwFetch_of_room (s := { s with ctl := rest }) h

/-! ### What a fetched code can do to the registers (R117, R206 to R212) -/

/-- A clear code resets the registers and emits an empty run; an EOI code writes `LZW_STATUS`; a fault leaves the
registers; every other code is a data code of some value. -/
theorem lzwClassify_cases {s t : State} (h : runLine .lzwClassify s = .next t) :
    (s.lzw.code = s.lzw.clearCode ∧ t.lzw = emit [] (resetLzw s.lzw)) ∨
    (s.lzw.code ≠ s.lzw.clearCode ∧
      (t.lzw = { s.lzw with status := .eoi } ∨ t.lzw = s.lzw ∨ ∃ value, t.lzw = dataCode value s.lzw)) := by
  have hlookUp {code : Nat} (h : lookUp code s = .next t) : ∃ value, t.lzw = dataCode value s.lzw := by
    obtain ⟨value, -, rfl⟩ := lookUp_eq_next.mp h
    exact ⟨value, rfl⟩
  have hfixUp {u : State} (hu : u.lzw = s.lzw) (h : takeFixUp u = .next t) :
      t.lzw = s.lzw ∨ ∃ value, t.lzw = dataCode value s.lzw := by
    rw [← hu]
    rcases takeFixUp_cases u with ⟨-, e⟩ | ⟨-, e⟩ <;> cases e.symm.trans h
    · exact .inl rfl
    · exact .inr ⟨_, rfl⟩
  rw [runLine_lzwClassify, decodeLzw] at h
  split_ifs at h with hclear heoi hlit hknown hnext
  · cases h; exact .inl ⟨hclear, rfl⟩
  · cases h; exact .inr ⟨hclear, .inl rfl⟩
  · exact .inr ⟨hclear, .inr (.inr (hlookUp h))⟩
  · exact .inr ⟨hclear, .inr (.inr (hlookUp h))⟩
  · exact .inr ⟨hclear, .inr (hfixUp rfl h)⟩
  · have hdrift : execLzwDrift s.lzw.code s = .next t := h
    unfold execLzwDrift at hdrift
    split at hdrift
    · cases hdrift; exact .inr ⟨hclear, .inr (.inl rfl)⟩
    · exact .inr ⟨hclear, .inr (hfixUp (u := { s with status := { s.status with driftWarn := true } }) rfl hdrift)⟩

/-- A data code never narrows the width (R215). -/
theorem codeLen_le_dataCode (value : List Byte) (z : Lzw) : z.codeLen ≤ (dataCode value z).codeLen := by
  rw [dataCode_codeLen, growWidth_codeLen, growDict_codeLen]
  split <;> omega

/-- A data code allocates no code beyond the dictionary (R214). -/
theorem nextCode_dataCode_le (value : List Byte) {z : Lzw} (h : z.nextCode ≤ 4096) :
    (dataCode value z).nextCode ≤ 4096 := by
  rw [dataCode_nextCode, growDict_nextCode]
  split <;> omega

end Sys2Proof.Machine

/-- Settles O28: the size test of `LZW.INIT` is that of R201, and its dictionary is the seed. -/
theorem decodeStarts : Obligations.DecodeStarts := by
  refine ⟨fun _ => rfl, fun s cs hlo hhi => ?_, fun s cs hcs => if_pos hcs⟩
  exact ⟨initLzw cs.toNat s.lzw, exec_lzwInit_of_admitted hlo hhi, rfl, cellGet_seedDict _⟩

/-- Settles O29: both rows put the registers through `resetLzw`; the empty run adds nothing to `OUT`. -/
theorem clearResets : Obligations.ClearResets := by
  intro s
  have hemit : emit [] (resetLzw s.lzw) = { resetLzw s.lzw with runs := s.lzw.runs ++ [[]] } := by
    simp only [emit, List.append_nil, resetLzw_runs]
  exact ⟨resetLzw s.lzw, rfl, cellGet_seedDict _, rfl, hemit ▸ rfl⟩

/-- Settles O30: `fetchCode` takes a code of `CODE_LEN` bits and moves the cursor by as many. -/
theorem fetchTakesCode : Obligations.FetchTakesCode := by
  intro s hbits
  have hroom : ¬ bitsLeft s < s.lzw.codeLen := by unfold bitsLeft; omega
  exact ⟨fetchCode s.acc s.lzw, exec_lzwFetch_of_room hroom, rfl, bitPos_fetchCode _ _, codeAt_lt _ _ _⟩

/-- Settles O31: the test at the head of the loop selects `LZW.EXH`. -/
theorem decodeEnds : Obligations.DecodeEnds :=
  ⟨fun _ => ⟨rfl, rfl⟩, fun _ _ => step_lzwNext_of_short⟩

/-- Settles O32: both rows look the code up and take its entry as a data code. -/
theorem entryEmitted : Obligations.EntryEmitted := by
  intro s code value i hi hvalue
  have hrow : exec i s = lookUp code s := by rcases hi with rfl | rfl <;> rfl
  exact ⟨_, hrow.trans (lookUp_eq_next.mpr ⟨value, hvalue, rfl⟩), dataCode_taken value s.lzw⟩

/-- Settles O33: the fix-up's first byte is that of `LAST`, so the entry `LAST ++ <value[0]>` is the fix-up itself. -/
theorem kwkwkFixUp : Obligations.KwkwkFixUp := by
  refine fun s => ⟨fun hlast => takeFixUp_of_nil hlast, fun b bs hlast => ?_⟩
  obtain ⟨z, hexec, htaken⟩ := takeFixUp_of_cons hlast
  have ⟨_, _, _, hdict⟩ := htaken
  refine ⟨z, hexec, htaken, fun hroom => ?_⟩
  rw [hdict, if_pos ⟨by simp [hlast], hroom, rfl⟩]
  simp [hlast]

/-- Settles O36: of the four things a code can do to the registers, a clear code sets the two counters, a data code does
not lower them or pass the dictionary's end, and the others leave them. -/
theorem codeLenMonotone : Obligations.CodeLenMonotone := by
  intro s t rest hr hctl h
  rw [step_eq_runLine hr hctl] at h
  rcases lzwClassify_cases h with ⟨hclear, hz⟩ | ⟨hclear, hz⟩
  · rw [hz]
    exact ⟨absurd hclear, fun _ => ⟨rfl, rfl⟩, absurd hclear, fun heoi _ => heoi⟩
  · have hkept : s.lzw.codeLen ≤ t.lzw.codeLen ∧ (s.lzw.nextCode ≤ 4096 → t.lzw.nextCode ≤ 4096) := by
      rcases hz with hz | hz | ⟨value, hz⟩ <;> rw [hz]
      · exact ⟨Nat.le_refl _, id⟩
      · exact ⟨Nat.le_refl _, id⟩
      · exact ⟨codeLen_le_dataCode value s.lzw, nextCode_dataCode_le value⟩
    exact ⟨fun _ => hkept.1, fun h => absurd h hclear, fun _ => hkept.2, fun _ => hkept.2⟩
end

section
/-! PROOFS. The decode loop as one function: the class of a fetched code, the step that handles it, and the simulation
by induction on the codes left (R200). -/

open Sys2Proof Sys2Proof.Machine

namespace Sys2Proof.Machine

/-! ### The rows of a code beside the control codes (R117) -/

theorem decodeLzw_of_allocated {clear eoi next code : Nat} (hclear : code ≠ clear) (heoi : code ≠ eoi)
    (hnext : code < next) :
    decodeLzw clear eoi next code = .lzwLit code ∨ decodeLzw clear eoi next code = .lzwKnown code := by
  rw [decodeLzw, if_neg hclear, if_neg heoi, if_pos hnext]
  exact ite_eq_or_eq _ _ _

/-- A code at or beyond `NEXT_CODE` is not in the table: the fix-up at it, a drift beyond it. -/
theorem decodeLzw_of_missing {clear next code : Nat} (hctrl : clear + 1 < next) (hnext : next ≤ code) :
    decodeLzw clear (clear + 1) next code = if next < code then .lzwDrift code else .lzwKwkwk := by
  rw [decodeLzw, if_neg (by omega), if_neg (by omega), if_neg (by omega), if_neg (by omega)]
  by_cases hdrift : next < code
  · rw [if_pos hdrift, if_neg hdrift.ne']
  · rw [if_neg hdrift, if_pos (Nat.le_antisymm (Nat.le_of_not_lt hdrift) hnext)]

/-- A code below `NEXT_CODE` other than the control codes has an entry (R40). -/
theorem LzwOk.entry_of_allocated {z : Lzw} (hz : LzwOk z) {c : Nat} (hclear : c ≠ z.clearCode) (heoi : c ≠ z.eoiCode)
    (hnext : c < z.nextCode) : ∃ value, cellGet z.dict c = some value := by
  refine Option.ne_none_iff_exists'.mp fun hnone => ?_
  obtain ⟨hlo, hhi⟩ := (dictOk_iff.mp hz.dict).1 c hnone
  have := hz.eoi
  omega

/-! ### A fetched code, taken (R206 to R213) -/

theorem runLine_lzwClassify_clear {s : State} (h : s.lzw.code = s.lzw.clearCode) :
    runLine .lzwClassify s = .next { s with lzw := emit [] (resetLzw s.lzw), ctl := .lzwNext :: s.ctl } := by
  rw [runLine_lzwClassify, decodeLzw, if_pos h]
  rfl

theorem runLine_lzwClassify_eoi {s : State} (hclear : s.lzw.code ≠ s.lzw.clearCode) (h : s.lzw.code = s.lzw.eoiCode) :
    runLine .lzwClassify s = .next { s with lzw := { s.lzw with status := .eoi } } := by
  rw [runLine_lzwClassify, decodeLzw, if_neg hclear, if_pos h]
  rfl

theorem runLine_lzwClassify_entry {s : State} {value : List Byte} (hclear : s.lzw.code ≠ s.lzw.clearCode)
    (heoi : s.lzw.code ≠ s.lzw.eoiCode) (hnext : s.lzw.code < s.lzw.nextCode)
    (hvalue : cellGet s.lzw.dict s.lzw.code = some value) :
    runLine .lzwClassify s = .next { s with lzw := dataCode value s.lzw, ctl := .lzwNext :: s.ctl } := by
  rw [runLine_lzwClassify]
  rcases decodeLzw_of_allocated hclear heoi hnext with h | h <;> rw [h] <;>
    exact lookUp_eq_next.mpr ⟨value, hvalue, rfl⟩

/-- Strict mode refuses a drifting code. -/
theorem runLine_lzwClassify_drift {s : State} (hz : LzwOk s.lzw) (hnext : s.lzw.nextCode < s.lzw.code)
    (hstrict : strict s = true) :
    runLine .lzwClassify s = .next (raise .lzwDrift s.mcsPos s.lzw.p0 s) := by
  have hctrl : s.lzw.clearCode + 1 < s.lzw.nextCode := hz.eoi ▸ hz.next.1
  rw [runLine_lzwClassify, hz.eoi, decodeLzw_of_missing hctrl hnext.le, if_pos hnext]
  exact exec_lzwDrift_of_strict hstrict _

/-- Any other code that is not in the table goes to the fix-up, a drifting one noted in `DRIFT_WARN`. -/
theorem runLine_lzwClassify_missing {s : State} (hz : LzwOk s.lzw) (hnext : s.lzw.nextCode ≤ s.lzw.code)
    (htolerant : ¬ (s.lzw.nextCode < s.lzw.code ∧ strict s = true)) :
    runLine .lzwClassify s = takeFixUp { s with status := { s.status with
      driftWarn := s.status.driftWarn || decide (s.lzw.nextCode < s.lzw.code) } } := by
  have hctrl : s.lzw.clearCode + 1 < s.lzw.nextCode := hz.eoi ▸ hz.next.1
  rw [runLine_lzwClassify, hz.eoi, decodeLzw_of_missing hctrl hnext]
  by_cases hdrift : s.lzw.nextCode < s.lzw.code
  · have hstrict : strict s = false := Bool.eq_false_iff.mpr fun h => htolerant ⟨hdrift, h⟩
    rw [if_pos hdrift, exec_lzwDrift_of_tolerant hstrict, decide_eq_true hdrift, Bool.or_true]
  · rw [if_neg hdrift, decide_eq_false hdrift, Bool.or_false]
    rfl

/-! ### The simulation (R200) -/

/-- The state in which a decode that began in `s` leaves the loop: at the caller's lines `rest`, or faulted. -/
def afterDecode (s : State) (rest : List Line) : DecodeEnd → State
  | .finished z drift => { s with lzw := z, ctl := rest, status := { s.status with driftWarn := drift } }
  | .failed c z drift =>
    raise c s.mcsPos z.p0 { s with lzw := z, ctl := rest, status := { s.status with driftWarn := drift } }

/-- Nothing that the loop itself writes is read again from the state it began in. -/
theorem afterDecode_of_head (s : State) (rest lines : List Line) (z : Lzw) (drift : Bool) (e : DecodeEnd) :
    afterDecode { s with lzw := z, ctl := lines, status := { s.status with driftWarn := drift } } rest e =
      afterDecode s rest e := by
  cases e <;> rfl

/-- With more codes allowed than bits left, the recursion ends where the engine leaves the loop. -/
theorem decodeLoop_reaches {rest : List Line} (n : Nat) {s : State} (hr : running s = true)
    (hctl : s.ctl = .lzwNext :: rest) (hz : LzwOk s.lzw) (hpos : bitPos s.lzw ≤ 8 * s.acc.length)
    (hn : 8 * s.acc.length - bitPos s.lzw < n) :
    ∃ k, Reaches k s (afterDecode s rest (decodeLoop (strict s) s.acc n s.lzw s.status.driftWarn)) := by
  induction n generalizing s with
  | zero => exact absurd hn (Nat.not_lt_zero _)
  | succ n ih =>
    by_cases hroom : 8 * s.acc.length - bitPos s.lzw < s.lzw.codeLen
    · rw [decodeLoop, if_pos hroom]
      exact ⟨1, Reaches.one (step_lzwNext_of_short hr hctl hroom)⟩
    have hfetch := step_lzwNext_of_room hr hctl hroom
    rw [decodeLoop, if_neg hroom]
    generalize hy : fetchCode s.acc s.lzw = y at hfetch
    have hyOk : LzwOk y := hy ▸ lzwOk_fetchCode hz s.acc
    have hcode : y.code < 2 ^ y.codeLen := hy ▸ codeAt_lt _ _ _
    have hypos : bitPos y = bitPos s.lzw + s.lzw.codeLen := hy ▸ bitPos_fetchCode _ _
    have hwidth := hz.width.1
    have hclassify : step { s with lzw := y, ctl := .lzwClassify :: rest } =
        runLine .lzwClassify { s with lzw := y, ctl := rest } :=
      step_eq_runLine (s := { s with lzw := y, ctl := .lzwClassify :: rest }) hr rfl
    have leaves {t : State} (h : runLine .lzwClassify { s with lzw := y, ctl := rest } = .next t) :
        ∃ k, Reaches k s t := ⟨2, Reaches.head hfetch (Reaches.one (hclassify.trans h))⟩
    have again {z : Lzw} {drift : Bool} (hzpos : bitPos z = bitPos y)
        (h : runLine .lzwClassify { s with lzw := y, ctl := rest } = .next
          { s with lzw := z, ctl := .lzwNext :: rest, status := { s.status with driftWarn := drift } }) :
        ∃ k, Reaches k s (afterDecode s rest (decodeLoop (strict s) s.acc n z drift)) := by
      have hzOk : LzwOk z := lzwOk_lzwClassify hyOk hcode h
      obtain ⟨k, hk⟩ := ih
        (s := { s with lzw := z, ctl := .lzwNext :: rest, status := { s.status with driftWarn := drift } })
        hr rfl hzOk (by simp only [hzpos]; omega) (by simp only [hzpos]; omega)
      rw [afterDecode_of_head] at hk
      exact ⟨k + 1 + 1, Reaches.head hfetch (Reaches.head (hclassify.trans h) hk)⟩
    -- the tests of `decodeLoop` in its order; the last two are the fix-up without and with `LAST`
    dsimp only
    split_ifs with hclear heoi hnext hdrift hlast
    · exact again rfl (runLine_lzwClassify_clear hclear)
    · exact leaves (runLine_lzwClassify_eoi hclear heoi)
    · obtain ⟨value, hvalue⟩ := hyOk.entry_of_allocated hclear heoi hnext
      rw [hvalue]
      exact again (by simp [bitPos]) (runLine_lzwClassify_entry hclear heoi hnext hvalue)
    · exact leaves (runLine_lzwClassify_drift hyOk hdrift.1 hdrift.2)
    · exact leaves ((runLine_lzwClassify_missing hyOk (Nat.le_of_not_lt hnext) hdrift).trans (takeFixUp_of_nil hlast))
    · exact again (by simp [bitPos])
        ((runLine_lzwClassify_missing hyOk (Nat.le_of_not_lt hnext) hdrift).trans (if_neg hlast))

end Sys2Proof.Machine

/-- Settles O37: from the head of the loop each round takes `CODE_LEN` bits, at least one, so a bound of one code for
each bit left, and one more, is not reached. -/
theorem decodeLoopRefined : Obligations.DecodeLoopRefined := by
  intro s rest hr hctl hz hpos
  obtain ⟨k, hk⟩ := decodeLoop_reaches (8 * s.acc.length + 1) hr hctl hz hpos (by omega)
  refine ⟨k, ?_⟩
  cases hend : decodeLoop (strict s) s.acc (8 * s.acc.length + 1) s.lzw s.status.driftWarn <;>
    exact hend ▸ hk
end

section
/-! PROOFS. Streams of literals: each code of a packing is fetched at its place, and the decode loop gives the indices
back (R110, R206, R209, R218). -/

open Sys2Proof Sys2Proof.Machine

namespace Sys2Proof.Machine

/-! ### The codes of a packing, fetched (R110, R203, R204) -/

theorem packedBits_append (pre post : List (Nat × Nat)) :
    packedBits (pre ++ post) = packedBits pre + packedBits post := by
  induction pre with
  | nil => exact (Nat.zero_add _).symm
  | cons x rest ih => rw [List.cons_append, packedBits, packedBits, ih, Nat.add_assoc]

theorem leBytes_length (n v : Nat) : (leBytes n v).length = n := by
  induction n generalizing v with
  | zero => rfl
  | succ n ih => rw [leBytes, List.length_cons, ih]

/-- The bytes of a packing hold all its bits. -/
theorem packedBits_le_length (codes : List (Nat × Nat)) : packedBits codes ≤ 8 * (packCodes codes).length := by
  rw [packCodes, leBytes_length]
  omega

/-- Where the cursor stands before a code of `CODE_LEN` bits of a packing, the code's bits remain, the fetch takes the
code, and the cursor is then behind it. -/
theorem fetchCode_of_packCodes {buf : List Byte} {pre post : List (Nat × Nat)} {c w : Nat} {z : Lzw}
    (hbuf : buf = packCodes (pre ++ (c, w) :: post)) (hpos : bitPos z = packedBits pre) (hw : z.codeLen = w)
    (hc : c < 2 ^ w) :
    ¬ 8 * buf.length - bitPos z < z.codeLen ∧ (fetchCode buf z).code = c ∧
      bitPos (fetchCode buf z) = packedBits (pre ++ [(c, w)]) := by
  subst hbuf hw
  have hfits := packedBits_le_length (pre ++ (c, z.codeLen) :: post)
  rw [packedBits_append, packedBits] at hfits
  refine ⟨by omega, ?_, ?_⟩
  · rw [fetchCode_code, hpos, packedCodeReadBack pre post c z.codeLen hc]
  · rw [bitPos_fetchCode, hpos, packedBits_append, packedBits, packedBits, Nat.add_zero]

/-! ### One round of the loop (R206, R207, R209) -/

section
variable {strictMode : Bool} {buf : List Byte} {n : Nat} {z : Lzw} {drift : Bool}

theorem decodeLoop_clear (hroom : ¬ 8 * buf.length - bitPos z < z.codeLen)
    (hcode : (fetchCode buf z).code = z.clearCode) :
    decodeLoop strictMode buf (n + 1) z drift =
      decodeLoop strictMode buf n (emit [] (resetLzw (fetchCode buf z))) drift := by
  rw [decodeLoop, if_neg hroom]
  exact if_pos hcode

theorem decodeLoop_eoi (hroom : ¬ 8 * buf.length - bitPos z < z.codeLen)
    (hcode : (fetchCode buf z).code = z.eoiCode) (hclear : z.eoiCode ≠ z.clearCode) :
    decodeLoop strictMode buf (n + 1) z drift = .finished { fetchCode buf z with status := .eoi } drift := by
  rw [decodeLoop, if_neg hroom]
  exact (if_neg (hcode ▸ hclear)).trans (if_pos hcode)

theorem decodeLoop_entry {c : Nat} {value : List Byte} (hroom : ¬ 8 * buf.length - bitPos z < z.codeLen)
    (hcode : (fetchCode buf z).code = c) (hclear : c ≠ z.clearCode) (heoi : c ≠ z.eoiCode) (hnext : c < z.nextCode)
    (hvalue : cellGet z.dict c = some value) :
    decodeLoop strictMode buf (n + 1) z drift =
      decodeLoop strictMode buf n (dataCode value (fetchCode buf z)) drift := by
  subst hcode
  rw [decodeLoop, if_neg hroom]
  refine (if_neg hclear).trans ((if_neg heoi).trans ((if_pos hnext).trans ?_))
  rw [fetchCode_dict, hvalue, Option.getD_some]

end

/-- The first data code after a clear inserts nothing and, while the width has codes left, does not widen (R214,
R215). -/
theorem dataCode_of_last_nil {z : Lzw} (value : List Byte) (hlast : z.last = []) (hroom : z.nextCode < 2 ^ z.codeLen) :
    dataCode value z = emit value { z with last := value } := by
  have hdict : growDict value z = z := if_neg fun h => h.1 hlast
  have hwidth : growWidth z = z := if_neg fun h => Nat.not_le_of_lt hroom h.1
  rw [dataCode, hdict, hwidth]

/-! ### The loop on a stream of literals (R218) -/

/-- The width and the control codes that a decode of code size `cs` has at every code of `literalCodes cs`. -/
structure InitialWidth (cs : Nat) (z : Lzw) : Prop where
  size : z.codeSize = cs
  clear : z.clearCode = 2 ^ cs
  eoi : z.eoiCode = 2 ^ cs + 1
  width : z.codeLen = cs + 1

/-- What a clear code leaves beside: the literals alone in the dictionary, and `LAST` empty (R202). -/
structure Cleared (cs : Nat) (z : Lzw) : Prop extends InitialWidth cs z where
  dict : z.dict = seedDict (2 ^ cs)
  next : z.nextCode = 2 ^ cs + 2
  last : z.last = []

theorem InitialWidth.cleared {cs : Nat} {z : Lzw} (h : InitialWidth cs z) (buf : List Byte) :
    Cleared cs (emit [] (resetLzw (fetchCode buf z))) where
  size := h.size
  clear := h.clear
  eoi := h.eoi
  width := congrArg (· + 1) h.size
  dict := congrArg seedDict h.clear
  next := congrArg (· + 1) h.eoi
  last := rfl

/-- The data code after a clear inserts nothing, and the initial width has codes left, so it does not widen. -/
theorem Cleared.dataCode_fetchCode {cs : Nat} {z : Lzw} (h : Cleared cs z) (hcs : 2 ≤ cs) (buf value : List Byte) :
    dataCode value (fetchCode buf z) = emit value { fetchCode buf z with last := value } := by
  refine dataCode_of_last_nil value h.last ?_
  have hfour : 2 ^ 2 ≤ 2 ^ cs := Nat.pow_le_pow_right (by decide) hcs
  rw [fetchCode_nextCode, fetchCode_codeLen, h.next, h.width, Nat.pow_succ]
  omega

/-- The entry of a literal of the seed is its own byte (R202). -/
theorem Cleared.entry_literal {cs : Nat} {z : Lzw} (h : Cleared cs z) {b : Byte} (hb : b.toNat < 2 ^ cs) :
    cellGet z.dict b.toNat = some [b] := by
  rw [h.dict, cellGet_seedDict, if_pos hb, BitVec.ofNat_toNat, BitVec.setWidth_eq]

/-- A clear code and the literal after it emit the literal's index and leave the width as it was. -/
theorem decodeLoop_clear_literal {strictMode : Bool} {buf : List Byte} {pre post : List (Nat × Nat)} {cs : Nat}
    {b : Byte} {z : Lzw} {drift : Bool} (n : Nat) (hcs : 2 ≤ cs) (hb : b.toNat < 2 ^ cs) (hz : InitialWidth cs z)
    (hpos : bitPos z = packedBits pre)
    (hbuf : buf = packCodes (pre ++ (2 ^ cs, cs + 1) :: (b.toNat, cs + 1) :: post)) :
    ∃ y, decodeLoop strictMode buf (n + 2) z drift = decodeLoop strictMode buf n y drift ∧ InitialWidth cs y ∧
      bitPos y = packedBits (pre ++ [(2 ^ cs, cs + 1), (b.toNat, cs + 1)]) ∧ y.out = z.out ++ [b] := by
  have hdouble : 2 ^ (cs + 1) = 2 ^ cs * 2 := Nat.pow_succ ..
  obtain ⟨hroom, hcode, hpos⟩ := fetchCode_of_packCodes hbuf hpos hz.width (by omega)
  rw [decodeLoop_clear hroom (hcode.trans hz.clear.symm)]
  have hx := hz.cleared buf
  have hout : (emit [] (resetLzw (fetchCode buf z))).out = z.out := List.append_nil _
  replace hpos : bitPos (emit [] (resetLzw (fetchCode buf z))) = packedBits (pre ++ [(2 ^ cs, cs + 1)]) := hpos
  generalize emit [] (resetLzw (fetchCode buf z)) = x at hx hout hpos
  obtain ⟨hroom, hcode, hpos⟩ := fetchCode_of_packCodes (c := b.toNat) (post := post) (by simpa using hbuf) hpos
    hx.width (by omega)
  rw [decodeLoop_entry hroom hcode (by rw [hx.clear]; omega) (by rw [hx.eoi]; omega) (by rw [hx.next]; omega)
    (hx.entry_literal hb), hx.dataCode_fetchCode hcs]
  exact ⟨_, rfl, ⟨hx.size, hx.clear, hx.eoi, hx.width⟩, by simpa [bitPos] using hpos, congrArg (· ++ [b]) hout⟩

/-- By induction on the indices: each is one round of a clear code and one of its literal, and EOI comes last. -/
theorem decodeLoop_literalCodes {strictMode : Bool} {buf : List Byte} {cs : Nat} (hcs : 2 ≤ cs) {indices : List Byte}
    (hindices : ∀ b ∈ indices, b.toNat < 2 ^ cs) {pre : List (Nat × Nat)} {n : Nat} {z : Lzw} (drift : Bool)
    (hn : 2 * indices.length < n) (hz : InitialWidth cs z) (hpos : bitPos z = packedBits pre)
    (hbuf : buf = packCodes (pre ++ literalCodes cs indices)) :
    ∃ y, decodeLoop strictMode buf n z drift = .finished y drift ∧ y.out = z.out ++ indices ∧ y.status = .eoi := by
  induction indices generalizing pre n z with
  | nil =>
    obtain ⟨n, rfl⟩ := Nat.exists_eq_succ_of_ne_zero (Nat.ne_of_gt hn)
    have hone : 1 < 2 ^ cs := Nat.one_lt_two_pow (by omega)
    have hdouble : 2 ^ (cs + 1) = 2 ^ cs * 2 := Nat.pow_succ ..
    obtain ⟨hroom, hcode, -⟩ := fetchCode_of_packCodes hbuf hpos hz.width (by omega)
    have hne : z.eoiCode ≠ z.clearCode := by rw [hz.eoi, hz.clear]; omega
    exact ⟨_, decodeLoop_eoi hroom (hcode.trans hz.eoi.symm) hne, (List.append_nil _).symm, rfl⟩
  | cons b rest ih =>
    obtain ⟨hb, hrest⟩ := List.forall_mem_cons.mp hindices
    rw [List.length_cons] at hn
    obtain ⟨m, rfl⟩ := Nat.exists_eq_add_of_le' (show 2 ≤ n by omega)
    obtain ⟨y, hloop, hy, hypos, hyout⟩ := decodeLoop_clear_literal (strictMode := strictMode) (drift := drift) m
      hcs hb hz hpos hbuf
    obtain ⟨x, hend, hxout, hxeoi⟩ := ih hrest (n := m) (by omega) hy hypos (by simpa [literalCodes] using hbuf)
    exact ⟨x, hloop.trans hend, by simp [hxout, hyout], hxeoi⟩

/-- A stream has more bits than rounds: every code is at least one bit wide. -/
theorem two_mul_length_lt_packedBits (cs : Nat) (indices : List Byte) :
    2 * indices.length < packedBits (literalCodes cs indices) := by
  induction indices with
  | nil => exact Nat.zero_lt_succ _
  | cons b rest ih =>
    simp only [literalCodes, packedBits, List.length_cons]
    omega

theorem initialWidth_initLzw (cs : Nat) (z : Lzw) : InitialWidth cs (initLzw cs z) := ⟨rfl, rfl, rfl, rfl⟩

/-- From the head of the loop, at the start of the stream, the engine leaves with the indices behind `OUT` as it was. -/
theorem literalCodes_reaches {s : State} {rest : List Line} {cs : Nat} {indices : List Byte} (hr : running s = true)
    (hctl : s.ctl = .lzwNext :: rest) (hz : LzwOk s.lzw) (hw : InitialWidth cs s.lzw) (hpos : bitPos s.lzw = 0)
    (hcs : 2 ≤ cs) (hindices : ∀ b ∈ indices, b.toNat < 2 ^ cs) (hacc : s.acc = packCodes (literalCodes cs indices)) :
    ∃ n y, Reaches n s { s with lzw := y, ctl := rest } ∧ y.out = s.lzw.out ++ indices ∧ y.status = .eoi := by
  have hbits := packedBits_le_length (literalCodes cs indices)
  have hrounds := two_mul_length_lt_packedBits cs indices
  rw [← hacc] at hbits
  obtain ⟨y, hend, hout, heoi⟩ := decodeLoop_literalCodes (strictMode := strict s) (n := 8 * s.acc.length + 1)
    (pre := []) hcs hindices s.status.driftWarn (by omega) hw hpos hacc
  obtain ⟨n, hloop⟩ := decodeLoop_reaches (8 * s.acc.length + 1) hr hctl hz (hpos ▸ Nat.zero_le _) (by omega)
  rw [hend] at hloop
  exact ⟨n, y, hloop, hout, heoi⟩

end Sys2Proof.Machine

/-- Settles O38: LZW.RUN reaches the head of the loop with `OUT` empty, the engine ends where the loop as one function
does, and that function gives the indices back. -/
theorem literalStreamDecodes : Obligations.LiteralStreamDecodes := by
  rintro s rest cs indices hlo hhi hindices hr hctl rfl hacc
  obtain ⟨n, y, hloop, hout, heoi⟩ := literalCodes_reaches
    (s := { s with lzw := initLzw s.cur.minCodeSize.toNat s.lzw, ctl := .lzwNext :: rest })
    hr rfl (lzwOk_initLzw s.lzw hlo hhi) (initialWidth_initLzw _ s.lzw) rfl hlo hindices hacc
  exact ⟨2 + n, _, (lzwRun_reaches_loop hr hctl hlo hhi).trans hloop, rfl, hout, heoi, rfl, rfl, rfl, rfl⟩
end

section
/-! PROOFS. The compositor, operation by operation: the table and the placement check, and the pixel that `CMP.PIX`
writes (R240 to R243). -/

open Sys2Proof Sys2Proof.Machine

namespace Sys2Proof.Machine

/-! ### The table and the placement (R241, R243) -/

theorem fits_iff {fr : Frame} {s : State} : fits fr s = true ↔
    fr.left.toNat + fr.width.toNat ≤ s.img.lsdWidth.toNat ∧
      fr.top.toNat + fr.height.toNat ≤ s.img.lsdHeight.toNat := by
  simp [fits]

theorem exec_cmpFrame {s : State} {k : Nat} {fr : Frame} (hfr : s.img.frames[k]? = some fr) :
    exec (.cmpFrame k) s = .next { s with
      ctl := .run (.cmpSelect k) :: .run (.cmpCheck k) :: .pixelLoop k 0 0 :: s.ctl } :=
  withFrame_some hfr

theorem exec_cmpCheck {s : State} {k : Nat} {fr : Frame} (hfr : s.img.frames[k]? = some fr) :
    exec (.cmpCheck k) s = if fits fr s then .next s else .next (raise .frameOutsideCanvas 0 k s) :=
  withFrame_some hfr

/-! ### The pixel (R242) -/

/-- The bytes of a pixel of a frame that fits lie in `FB`: its row ends before the canvas's row does, and that row is
one of the canvas. -/
theorem pixelOffset_add_three_le_fbSize {fr : Frame} {s : State} {r c : Nat} (hfits : fits fr s = true)
    (hr : r < fr.height.toNat) (hc : c < fr.width.toNat) : pixelOffset fr r c s + 3 ≤ fbSize s := by
  obtain ⟨hwide, hhigh⟩ := fits_iff.mp hfits
  have hrows : (fr.top.toNat + r + 1) * s.img.lsdWidth.toNat ≤ s.img.lsdHeight.toNat * s.img.lsdWidth.toNat :=
    Nat.mul_le_mul_right _ (by omega)
  rw [Nat.add_mul, Nat.one_mul, Nat.mul_comm s.img.lsdHeight.toNat] at hrows
  unfold pixelOffset fbSize
  omega

theorem exec_cmpPix_of_range {s : State} {k r c : Nat} {fr : Frame} {i : Byte} (hfr : s.img.frames[k]? = some fr)
    (hi : fr.idx[r * fr.width.toNat + c]? = some i) (hrange : s.ctLen ≤ i.toNat) :
    exec (.cmpPix k r c) s = .next (raise .colorIndexRange 0 (r * fr.width.toNat + c) s) :=
  cmpPix_eq_next.mpr ⟨fr, i, hfr, hi, .inl ⟨hrange, rfl⟩⟩

theorem exec_cmpPix_of_entry {s : State} {k r c : Nat} {fr : Frame} {i : Byte} {e : Rgb}
    (hfr : s.img.frames[k]? = some fr) (hfits : fits fr s = true) (hr : r < fr.height.toNat) (hc : c < fr.width.toNat)
    (hi : fr.idx[r * fr.width.toNat + c]? = some i) (hlt : i.toNat < s.ctLen) (he : s.ct[i.toNat]? = some e) :
    exec (.cmpPix k r c) s =
      .next { s with fb := s.fb.writeBytes (pixelOffset fr r c s) [e.r, e.g, e.b] } :=
  cmpPix_eq_next.mpr
    ⟨fr, i, hfr, hi, .inr ⟨hlt, e, he, pixelOffset_add_three_le_fbSize hfits hr hc, rfl⟩⟩

/-- Three bytes written, read back address by address. -/
theorem Memory.read_writeBytes_rgb (m : Memory) (off : Nat) (e : Rgb) (a : Nat) :
    (m.writeBytes off [e.r, e.g, e.b]).read a =
      if a = off then some e.r else if a = off + 1 then some e.g
      else if a = off + 2 then some e.b else m.read a := by
  simp only [Memory.writeBytes, Memory.read_write]
  grind

end Sys2Proof.Machine

/-- Settles O39: each way to a table is a case of `CMP.SELECT`, and the check tests `fits`. -/
theorem compositeSetUp : Obligations.CompositeSetUp := by
  intro s k fr hfr
  refine ⟨exec_cmpFrame hfr, fun t hp ht => ?_, fun t hp ht => ?_, fun hp ht => ?_, ?_⟩
  · exact cmpSelect_eq_next.mpr ⟨fr, hfr, .inl ⟨hp, t, ht, rfl⟩⟩
  · exact cmpSelect_eq_next.mpr ⟨fr, hfr, .inr (.inl ⟨hp, t, ht, rfl⟩)⟩
  · exact cmpSelect_eq_next.mpr ⟨fr, hfr, .inr (.inr ⟨hp, ht, rfl⟩)⟩
  · rw [exec_cmpCheck hfr]
    exact if_congr fits_iff rfl rfl

/-- Settles O40: the pixel of a frame that fits lies in `FB`, so `CMP.PIX` writes its three bytes. -/
theorem pixelWritten : Obligations.PixelWritten := by
  intro s k r c fr i hfr hfits hr hc hi
  exact ⟨exec_cmpPix_of_range hfr hi, fun e hlt he =>
    ⟨_, exec_cmpPix_of_entry hfr hfits hr hc hi hlt he, Memory.read_writeBytes_rgb s.fb _ e⟩⟩
end

section
/-! PROOFS. The pixel loops of `CMP.FRAME`: the pixels ahead of a head of the loops, what the loops do to them, and that
no two pixels share a byte (R240, R242, R246). -/

open Sys2Proof Sys2Proof.Machine

namespace Sys2Proof.Machine

/-! ### Pixels apart (R78, R242) -/

/-- The pixels of a frame that fits follow each other in `FB` in row-major order, three bytes each. -/
theorem pixelOffset_add_three_le {fr : Frame} {s : State} {r c r' c' : Nat} (hfits : fits fr s = true)
    (hc : c < fr.width.toNat) (hafter : r < r' ∨ r = r' ∧ c < c') :
    pixelOffset fr r c s + 3 ≤ pixelOffset fr r' c' s := by
  obtain ⟨hwide, -⟩ := fits_iff.mp hfits
  unfold pixelOffset
  rcases hafter with hrow | ⟨rfl, hcol⟩
  · have hrows : (fr.top.toNat + r + 1) * s.img.lsdWidth.toNat ≤ (fr.top.toNat + r') * s.img.lsdWidth.toNat :=
      Nat.mul_le_mul_right _ (by omega)
    rw [Nat.add_mul _ 1, Nat.one_mul] at hrows
    omega
  · omega

/-! ### What the loops have ahead and what they leave (R240) -/

/-- Pixel (`r'`, `c'`) of the frame is still to be visited at the head of the loops at row `r`, column `c`. -/
def Ahead (fr : Frame) (r c r' c' : Nat) : Prop :=
  r' < fr.height.toNat ∧ c' < fr.width.toNat ∧ (r < r' ∨ r = r' ∧ c ≤ c')

/-- The bytes at `off` are a colour's, in the order of R72. -/
def HoldsColour (m : Memory) (off : Nat) (e : Rgb) : Prop :=
  m.read off = some e.r ∧ m.read (off + 1) = some e.g ∧ m.read (off + 2) = some e.b

/-- From `s` to `t`, every pixel ahead has got its colour and every byte of no such pixel reads as before. -/
structure Painted (fr : Frame) (r c : Nat) (s t : State) : Prop where
  pixel : ∀ r' c' i e, Ahead fr r c r' c' → fr.idx[r' * fr.width.toNat + c']? = some i → s.ct[i.toNat]? = some e →
    HoldsColour t.fb (pixelOffset fr r' c' s) e
  outside : ∀ a, (∀ r' c', Ahead fr r c r' c' → a < pixelOffset fr r' c' s ∨ pixelOffset fr r' c' s + 3 ≤ a) →
    t.fb.read a = s.fb.read a

theorem HoldsColour.of_writeBytes (m : Memory) (off : Nat) (e : Rgb) :
    HoldsColour (m.writeBytes off [e.r, e.g, e.b]) off e := by
  simp [HoldsColour, Memory.read_writeBytes_rgb]

theorem HoldsColour.congr {m m' : Memory} {off : Nat} {e : Rgb} (h : HoldsColour m off e)
    (hread : ∀ a, off ≤ a → a < off + 3 → m'.read a = m.read a) : HoldsColour m' off e := by
  obtain ⟨hred, hgreen, hblue⟩ := h
  exact ⟨(hread _ (by omega) (by omega)).trans hred, (hread _ (by omega) (by omega)).trans hgreen,
    (hread _ (by omega) (by omega)).trans hblue⟩

/-- Below the last row no pixel is ahead. -/
theorem Painted.of_last_row {fr : Frame} {r c : Nat} {s t : State} (hr : ¬ r < fr.height.toNat) (hfb : t.fb = s.fb) :
    Painted fr r c s t where
  pixel r' c' _ _ hahead := by
    obtain ⟨hr', -, hafter⟩ := hahead
    omega
  outside a _ := hfb ▸ rfl

/-- At the end of a row the pixels ahead are those of the rows below. -/
theorem ahead_row_end_iff {fr : Frame} {r c r' c' : Nat} (hc : ¬ c < fr.width.toNat) :
    Ahead fr r c r' c' ↔ Ahead fr (r + 1) 0 r' c' := by
  unfold Ahead
  omega

/-- At a pixel of the frame, that pixel and those from the next column on are ahead. -/
theorem ahead_iff_self_or_next {fr : Frame} {r c r' c' : Nat} (hr : r < fr.height.toNat) (hc : c < fr.width.toNat) :
    Ahead fr r c r' c' ↔ (r' = r ∧ c' = c) ∨ Ahead fr r (c + 1) r' c' := by
  unfold Ahead
  omega

theorem Painted.of_row_end {fr : Frame} {r c : Nat} {s t : State} (hc : ¬ c < fr.width.toNat)
    (h : Painted fr (r + 1) 0 s t) : Painted fr r c s t where
  pixel r' c' i e hahead := h.pixel r' c' i e ((ahead_row_end_iff hc).mp hahead)
  outside a hout := h.outside a fun r' c' hahead => hout r' c' ((ahead_row_end_iff hc).mpr hahead)

/-- A pixel written and then the pixels after it: these have no byte in common with the first, which keeps its
colour. -/
theorem Painted.of_pixel {fr : Frame} {r c : Nat} {i : Byte} {e : Rgb} {s u t : State} (hfits : fits fr s = true)
    (hr : r < fr.height.toNat) (hc : c < fr.width.toNat) (hi : fr.idx[r * fr.width.toNat + c]? = some i)
    (he : s.ct[i.toNat]? = some e) (h : Painted fr r (c + 1) u t) (himg : u.img = s.img) (hct : u.ct = s.ct)
    (hfb : u.fb = s.fb.writeBytes (pixelOffset fr r c s) [e.r, e.g, e.b]) : Painted fr r c s t := by
  have hoff (r' c' : Nat) : pixelOffset fr r' c' u = pixelOffset fr r' c' s := by unfold pixelOffset; rw [himg]
  have hself (r' c' : Nat) := ahead_iff_self_or_next (r' := r') (c' := c') hr hc
  constructor
  · intro r' c' i' e' hahead hi' he'
    rcases (hself r' c').mp hahead with ⟨rfl, rfl⟩ | hnext
    · cases hi.symm.trans hi'
      cases he.symm.trans he'
      have hwritten := HoldsColour.of_writeBytes s.fb (pixelOffset fr r' c' s) e
      refine (hfb ▸ hwritten).congr fun a _ hlt => h.outside a fun x y ⟨_, _, hafter⟩ => .inl ?_
      have hapart : pixelOffset fr r' c' s + 3 ≤ pixelOffset fr x y s := pixelOffset_add_three_le hfits hc hafter
      exact hoff x y ▸ Nat.lt_of_lt_of_le hlt hapart
    · exact hoff r' c' ▸ h.pixel r' c' i' e' hnext hi' (hct ▸ he')
  · intro a hout
    calc t.fb.read a = u.fb.read a := h.outside a fun x y hnext => hoff x y ▸ hout x y ((hself x y).mpr (.inr hnext))
      _ = s.fb.read a := by
        have hpixel := hout r c ((hself r c).mpr (.inl ⟨rfl, rfl⟩))
        rw [hfb]
        refine Memory.read_writeBytes_outside _ s.fb fun ⟨_, hlt⟩ => ?_
        rw [List.length_cons, List.length_cons, List.length_singleton] at hlt
        omega

/-! ### The steps of the loops (R240) -/

/-- A head of the loops at the last row's end leaves to the caller. -/
theorem step_pixelLoop_of_end {s : State} {rest : List Line} {k r c : Nat} {fr : Frame} (hrun : running s = true)
    (hctl : s.ctl = .pixelLoop k r c :: rest) (hfr : s.img.frames[k]? = some fr) (hr : ¬ r < fr.height.toNat) :
    step s = .next { s with ctl := rest } :=
  (step_eq_runLine hrun hctl).trans (pixelLoop_eq_next.mpr ⟨fr, hfr, .inr (.inr ⟨hr, rfl⟩)⟩)

theorem step_pixelLoop_of_row_end {s : State} {rest : List Line} {k r c : Nat} {fr : Frame} (hrun : running s = true)
    (hctl : s.ctl = .pixelLoop k r c :: rest) (hfr : s.img.frames[k]? = some fr) (hr : r < fr.height.toNat)
    (hc : ¬ c < fr.width.toNat) : step s = .next { s with ctl := .pixelLoop k (r + 1) 0 :: rest } :=
  (step_eq_runLine hrun hctl).trans (pixelLoop_eq_next.mpr ⟨fr, hfr, .inr (.inl ⟨hr, hc, rfl⟩)⟩)

theorem step_pixelLoop_of_pixel {s : State} {rest : List Line} {k r c : Nat} {fr : Frame} (hrun : running s = true)
    (hctl : s.ctl = .pixelLoop k r c :: rest) (hfr : s.img.frames[k]? = some fr) (hr : r < fr.height.toNat)
    (hc : c < fr.width.toNat) : step s = .next { s with
      row := r, col := c, ctl := .run (.cmpPix k r c) :: .pixelLoop k r (c + 1) :: rest } :=
  (step_eq_runLine hrun hctl).trans (pixelLoop_eq_next.mpr ⟨fr, hfr, .inl ⟨hr, hc, rfl⟩⟩)

/-- Two steps at a pixel whose index is in the table: the head of the loops and `CMP.PIX`. -/
theorem pixel_reaches {s : State} {rest : List Line} {k r c : Nat} {fr : Frame} {i : Byte} {e : Rgb}
    (hrun : running s = true) (hctl : s.ctl = .pixelLoop k r c :: rest) (hfr : s.img.frames[k]? = some fr)
    (hfits : fits fr s = true) (hr : r < fr.height.toNat) (hc : c < fr.width.toNat)
    (hi : fr.idx[r * fr.width.toNat + c]? = some i) (hlt : i.toNat < s.ctLen) (he : s.ct[i.toNat]? = some e) :
    Reaches 2 s { s with
      row := r, col := c, ctl := .pixelLoop k r (c + 1) :: rest
      fb := s.fb.writeBytes (pixelOffset fr r c s) [e.r, e.g, e.b] } := by
  have hpix := step_run
    (s := { s with row := r, col := c, ctl := .run (.cmpPix k r c) :: .pixelLoop k r (c + 1) :: rest }) hrun rfl
  refine Reaches.head (step_pixelLoop_of_pixel hrun hctl hfr hr hc) (Reaches.one (hpix.trans ?_))
  exact exec_cmpPix_of_entry
    (s := { s with row := r, col := c, ctl := .pixelLoop k r (c + 1) :: rest }) hfr hfits hr hc hi hlt he

/-! ### The whole loops (R240, R246) -/

/-- A frame with `WIDTH * HEIGHT` indices has one for each of its pixels (R35). -/
theorem exists_index_of_idxOk {fr : Frame} {r c : Nat} (hidx : idxOk fr = true) (hr : r < fr.height.toNat)
    (hc : c < fr.width.toNat) : ∃ i, fr.idx[r * fr.width.toNat + c]? = some i := by
  have hlen : fr.idx.length = fr.width.toNat * fr.height.toNat := beq_iff_eq.mp hidx
  have hrows : (r + 1) * fr.width.toNat ≤ fr.height.toNat * fr.width.toNat := Nat.mul_le_mul_right _ hr
  rw [Nat.add_mul, Nat.one_mul, Nat.mul_comm fr.height.toNat] at hrows
  exact ⟨_, List.getElem?_eq_getElem (by omega)⟩

/-- From any head of the loops the engine comes to the caller's next line with the pixels ahead painted, by recursion
along the loops. -/
theorem pixelLoop_reaches {s : State} {rest : List Line} {k : Nat} (r c : Nat) {fr : Frame} (hrun : running s = true)
    (hctl : s.ctl = .pixelLoop k r c :: rest) (hfr : s.img.frames[k]? = some fr) (hfits : fits fr s = true)
    (hidx : idxOk fr = true) (hct : s.ct.length = s.ctLen) (htable : ∀ i ∈ fr.idx, i.toNat < s.ctLen) :
    ∃ n t, Reaches n s t ∧ t.ctl = rest ∧ t.img = s.img ∧ t.status = s.status ∧ Painted fr r c s t := by
  by_cases hr : r < fr.height.toNat
  · by_cases hc : c < fr.width.toNat
    · obtain ⟨i, hi⟩ := exists_index_of_idxOk hidx hr hc
      have hlt := htable i (List.mem_of_getElem? hi)
      have he : s.ct[i.toNat]? = some s.ct[i.toNat] := List.getElem?_eq_getElem (hct ▸ hlt)
      have hpixel := pixel_reaches hrun hctl hfr hfits hr hc hi hlt he
      obtain ⟨n, t, hn, hrest, himg, hstatus, hpainted⟩ :=
        pixelLoop_reaches r (c + 1) (s := { s with
          row := r, col := c, ctl := .pixelLoop k r (c + 1) :: rest
          fb := s.fb.writeBytes (pixelOffset fr r c s) [s.ct[i.toNat].r, s.ct[i.toNat].g, s.ct[i.toNat].b] })
          hrun rfl hfr hfits hidx hct htable
      exact ⟨2 + n, t, hpixel.trans hn, hrest, himg, hstatus, .of_pixel hfits hr hc hi he hpainted rfl rfl rfl⟩
    · obtain ⟨n, t, hn, hrest, himg, hstatus, hpainted⟩ :=
        pixelLoop_reaches (r + 1) 0 (s := { s with ctl := .pixelLoop k (r + 1) 0 :: rest })
          hrun rfl hfr hfits hidx hct htable
      exact ⟨n + 1, t, Reaches.head (step_pixelLoop_of_row_end hrun hctl hfr hr hc) hn, hrest, himg, hstatus,
        .of_row_end hc ⟨hpainted.pixel, hpainted.outside⟩⟩
  · exact ⟨1, _, Reaches.one (step_pixelLoop_of_end hrun hctl hfr hr), rfl, rfl, rfl, .of_last_row hr rfl⟩
termination_by (fr.height.toNat - r, fr.width.toNat - c)

end Sys2Proof.Machine

/-- Settles O41: at row 0, column 0 every pixel of the frame is ahead of the loops. -/
theorem frameComposited : Obligations.FrameComposited := by
  intro s rest k fr hrun hctl hfr hfits hidx hct htable
  obtain ⟨n, t, hn, hrest, himg, hstatus, hpainted⟩ := pixelLoop_reaches 0 0 hrun hctl hfr hfits hidx hct htable
  refine ⟨n, t, hn, hrest, himg, hstatus, fun r c i e hr hc => ?_, fun a hout => ?_⟩
  · exact hpainted.pixel r c i e ⟨hr, hc, by omega⟩
  · exact hpainted.outside a fun r c ⟨hr, hc, _⟩ => hout r c hr hc
end

section
/-! PROOFS. The bound on the work left: from every control point each pending line answers a next state, in which the
command is over or less work is left (R266, R333). -/

open Sys2Proof Sys2Proof.Machine

namespace Sys2Proof.Machine

/-! ### Outcomes that make progress -/

/-- The outcome is a next state, in which the command is over or less than `w` work is left. -/
def Progress (w : Nat) (o : Out) : Prop := ∃ t, o = .next t ∧ (t.status.busy = false ∨ work t < w)

theorem progress_of_over {w : Nat} {t : State} (h : t.status.busy = false) : Progress w (.next t) :=
  ⟨t, rfl, .inl h⟩

theorem progress_of_lt {w : Nat} {t : State} (h : work t < w) : Progress w (.next t) := ⟨t, rfl, .inr h⟩

/-- A fault ends the command. -/
theorem progress_raise {w : Nat} (c : Cause) (pos aux : Nat) (s : State) : Progress w (.next (raise c pos aux s)) :=
  progress_of_over rfl

/-- A read that fails ends the command, one that answers goes on: for `readByte_cases` and its like. -/
theorem progress_read {α : Type} {n w : Nat} {s u : State} {v : α} {r : Res α} {f : α → State → Out}
    (hread : (s.pos + n ≤ srcLen s ∧ r = .ok v u) ∨ (srcLen s < s.pos + n ∧ r = .trap (truncated n s)))
    (hok : s.pos + n ≤ srcLen s → Progress w (f v u)) : Progress w (r.andThen f) := by
  rcases hread with ⟨hp, rfl⟩ | ⟨-, rfl⟩
  · exact hok hp
  · exact progress_raise _ _ _ _

/-- A line that decodes at `p` faults or executes an operation of that point. -/
theorem progress_decodeAt {p : Point} {w : Nat} {s : State}
    (hok : ∀ i, decode p (bytesAt p s) = .ok i → Progress w (exec i s)) : Progress w (runLine (.decodeAt p) s) := by
  simp only [runLine, fetchLine, fetchAt]
  cases hd : decode p (bytesAt p s) with
  | ok i => exact hok i hd
  | error e => cases e <;> exact progress_raise _ _ _ _

/-! ### The bound on the work left -/

/-- Of the state, the work of the pending lines depends on the frames only. -/
theorem linesWork_congr {s t : State} (h : t.img.frames = s.img.frames) (acc left : Nat) (ls : List Line) :
    linesWork t acc left ls = linesWork s acc left ls := by
  induction ls generalizing acc left with
  | nil => rfl
  | cons l rest ih =>
    have hframe (k r c : Nat) : frameWork t k r c = frameWork s k r c := by simp only [frameWork, h]
    simp only [linesWork, ih, hframe]

theorem frameWork_pos (s : State) (k r c : Nat) : 0 < frameWork s k r c := by
  unfold frameWork pixelWork
  split
  · split <;> omega
  · exact Nat.one_pos

/-- Every pending line takes at least one step. -/
theorem linesWork_pos (s : State) (acc left : Nat) (l : Line) (rest : List Line) :
    0 < linesWork s acc left (l :: rest) := by
  unfold linesWork
  split <;> simp [frameWork_pos]

theorem work_call (l : Line) (s : State) : work (call [l] s) =
    80 * (srcLen s - s.pos - (introPending (l :: s.ctl)).toNat) +
      linesWork s (8 * s.acc.length) (bitsLeft s) (l :: s.ctl) :=
  congrArg _ (linesWork_congr (t := call [l] s) (s := s) rfl _ _ _)

/-- A line that leaves no more bytes than it finds, and less work of the pending lines. -/
theorem progress_of_le {l : Line} {s t : State}
    (hbytes : srcLen t - t.pos - (introPending t.ctl).toNat ≤
      srcLen s - s.pos - (introPending (l :: s.ctl)).toNat)
    (hlines : linesWork t (8 * t.acc.length) (bitsLeft t) t.ctl <
      linesWork s (8 * s.acc.length) (bitsLeft s) (l :: s.ctl)) : Progress (work (call [l] s)) (.next t) := by
  refine progress_of_lt ?_
  rw [work_call, work]
  omega

/-- `t` has of `s` what its source, its frames, its data and the cursor in them contribute to the work left. -/
structure SameData (s t : State) : Prop where
  src : t.src = s.src
  frames : t.img.frames = s.img.frames
  acc : t.acc = s.acc
  bits : bitPos t.lzw = bitPos s.lzw

theorem SameData.linesWork_eq {s t : State} (h : SameData s t) (ls : List Line) :
    linesWork t (8 * t.acc.length) (bitsLeft t) ls = linesWork s (8 * s.acc.length) (bitsLeft s) ls := by
  rw [linesWork_congr h.frames, bitsLeft, bitsLeft, h.acc, h.bits]

theorem SameData.srcLen_eq {s t : State} (h : SameData s t) : srcLen t = srcLen s := congrArg List.length h.src

/-- A line that calls less work than its own. -/
theorem progress_of_lines {l : Line} {s t : State} (h : SameData s t)
    (hpos : s.pos + (introPending (l :: s.ctl)).toNat ≤ t.pos + (introPending t.ctl).toNat)
    (hlines : ∀ acc left, linesWork s acc left t.ctl < linesWork s acc left (l :: s.ctl)) :
    Progress (work (call [l] s)) (.next t) := by
  refine progress_of_le ?_ ((h.linesWork_eq _).trans_lt (hlines _ _))
  rw [h.srcLen_eq]
  omega

/-- A line of one step that calls nothing. -/
theorem progress_of_plain {l : Line} {s t : State} (h : SameData s t) (hpos : s.pos ≤ t.pos) (hctl : t.ctl = s.ctl)
    (hintro : introPending (l :: s.ctl) = false)
    (hline : ∀ acc left, linesWork s acc left (l :: s.ctl) = 1 + linesWork s acc left s.ctl) :
    Progress (work (call [l] s)) (.next t) := by
  refine progress_of_lines h ?_ fun acc left => ?_
  · rw [hintro]; exact Nat.le_add_right_of_le hpos
  · rw [hctl, hline]; exact Nat.lt_add_of_pos_left Nat.one_pos

/-- A line that consumes a byte, or comes to an introducer that is there to be consumed, may call 80 steps for it. -/
theorem progress_of_byte {l : Line} {s t : State} (h : SameData s t) (hroom : s.pos < srcLen s)
    (hintro : introPending (l :: s.ctl) = false) (hpos : s.pos < t.pos + (introPending t.ctl).toNat)
    (hlines : ∀ acc left, linesWork s acc left t.ctl < 80 + linesWork s acc left (l :: s.ctl)) :
    Progress (work (call [l] s)) (.next t) := by
  have hless := hlines (8 * s.acc.length) (bitsLeft s)
  refine progress_of_lt ?_
  rw [work_call, hintro, work, h.linesWork_eq, h.srcLen_eq, Bool.toNat_false]
  omega

/-! ### The lines after the data (R180, R190) -/

/-- The control points of a LOAD from which no line decodes data: the bits of `ACC` cost nothing any more. -/
def Stage.settled : Stage → Bool
  | .commit | .extStore | .block | .loaded | .over => true
  | _ => false

/-- These control points lead to each other, by five lines whose own work is fixed. -/
theorem after_settled {g k : Stage} {l : Line} (hg : g.settled = true) (h : after g l = some k) :
    k.settled = true ∧
      (l = .run .imgCommit ∨ l = .storeExt ∨ l = .blockLoop ∨ l = .run .blkClassify ∨ l = .endLoad) := by
  unfold after at h
  split at h <;> simp_all [Stage.settled] <;> subst h <;> rfl

theorem after_decode {k : Stage} {l : Line} (h : after .decode l = some k) :
    ((l = .run .imgDecode ∨ l = .run .lzwRun) ∧ k = .commit) ∨ ∃ cs, l = .run (.lzwInit cs) ∧ k = .lzw := by
  unfold after at h
  split at h <;> simp_all

theorem after_lzw {k : Stage} {l : Line} (h : after .lzw l = some k) : l = .lzwNext ∧ k = .commit := by
  unfold after at h
  split at h <;> simp_all

/-- From such a control point the work depends on the lines alone. -/
theorem linesWork_settled {g g' : Stage} {ls : List Line} (hg : g.settled = true) (h : afterAll g ls = some g')
    (s t : State) (acc left acc' left' : Nat) : linesWork t acc' left' ls = linesWork s acc left ls := by
  induction ls generalizing g with
  | nil => rfl
  | cons l rest ih =>
    obtain ⟨k, ha, hrest⟩ := afterAll_cons.mp h
    obtain ⟨hk, hl⟩ := after_settled hg ha
    rcases hl with rfl | rfl | rfl | rfl | rfl <;> simp only [linesWork, ih hk hrest]

/-- Before a command's end there is a line. -/
theorem exists_line {g : Stage} {ls : List Line} (h : afterAll g ls = some .over) (hg : g ≠ .over) :
    ∃ l rest k, ls = l :: rest ∧ after g l = some k ∧ afterAll k rest = some .over := by
  cases ls with
  | nil => exact absurd (Option.some.inj h) hg
  | cons l rest =>
    obtain ⟨k, ha, hrest⟩ := afterAll_cons.mp h
    exact ⟨l, rest, k, rfl, ha, hrest⟩

/-- The lines after the sub-blocks of an image take a step more at most for each bit more of `ACC`: one decode is to
come. -/
theorem linesWork_decode_le {ls : List Line} (h : afterAll .decode ls = some .over) (s t : State)
    (acc n left left' : Nat) : linesWork t (acc + n) left' ls ≤ linesWork s acc left ls + n := by
  obtain ⟨l, rest, k, rfl, ha, hrest⟩ := exists_line h (by decide)
  rcases after_decode ha with ⟨hl, rfl⟩ | ⟨cs, rfl, rfl⟩
  · have hfix := linesWork_settled rfl hrest s t acc left (acc + n) left'
    rcases hl with rfl | rfl <;> simp only [linesWork, hfix] <;> omega
  · obtain ⟨l, rest, k, rfl, ha, hrest⟩ := exists_line hrest (by decide)
    obtain ⟨rfl, rfl⟩ := after_lzw ha
    have hfix := linesWork_settled rfl hrest s t acc acc (acc + n) (acc + n)
    simp only [linesWork, hfix]
    omega

/-- The same bound after the sub-blocks of an image or of an extension; an extension's are not decoded. -/
theorem linesWork_data_le {g : Stage} {ls : List Line} (hg : g = .decode ∨ g = .extStore)
    (h : afterAll g ls = some .over) (s t : State) (acc n left left' : Nat) :
    linesWork t (acc + n) left' ls ≤ linesWork s acc left ls + n := by
  rcases hg with rfl | rfl
  · exact linesWork_decode_le h s t acc n left left'
  · exact Nat.le_add_right_of_le (linesWork_settled rfl h s t acc left (acc + n) left').le

/-! ### The demuxer's lines -/

theorem progress_setPhase (p : Phase) (s : State) : Progress (work (call [.setPhase p] s)) (runLine (.setPhase p) s) :=
  progress_of_plain ⟨rfl, rfl, rfl, rfl⟩ (Nat.le_refl _) rfl rfl fun _ _ => rfl

/-- `DEMUX` (R160): the lines it calls are fewer than it is counted for. -/
theorem progress_demux (s : State) : Progress (work (call [.run .demux] s)) (execDemux s) := by
  refine progress_of_lines ⟨rfl, rfl, rfl, rfl⟩ (Nat.le_refl _) fun _ _ => ?_
  simp only [call, List.cons_append, List.nil_append, linesWork]
  omega

/-- `HDR.87A`, `HDR.89A` and `HDR.BAD` (R161). -/
theorem progress_header (s : State) :
    Progress (work (call [.decodeAt .header] s)) (runLine (.decodeAt .header) s) := by
  have good (m : BitVec 48) : Progress (work (call [.decodeAt .header] s)) (header m s) := by
    refine progress_read (readBytes_cases _ _) fun _ => ?_
    exact progress_of_plain ⟨rfl, rfl, rfl, rfl⟩ (Nat.le_add_right s.pos 6) rfl rfl fun _ _ => rfl
  refine progress_decodeAt fun i hd => ?_
  obtain ⟨m, rfl⟩ := decode_header_ok hd
  rcases decodeMagic_cases m with e | e | e <;> rw [e]
  · exact good _
  · exact good _
  · exact progress_read (readBytes_cases _ _) fun _ => progress_raise _ _ _ _

/-- `LSDESC` (R162). -/
theorem progress_lsdesc (s : State) : Progress (work (call [.run .lsdesc] s)) (execLsdesc s) := by
  refine progress_read (readHalf_cases _) fun _ => progress_read (readHalf_cases _) fun _ =>
    progress_read (readByte_cases _) fun _ => progress_read (readByte_cases _) fun _ =>
    progress_read (readByte_cases _) fun _ => ?_
  exact progress_of_plain ⟨rfl, rfl, rfl, rfl⟩ (Nat.le_add_right s.pos 7) rfl rfl fun _ _ => rfl

/-- `GCT.READ` (R163). -/
theorem progress_gctRead (s : State) : Progress (work (call [.run .gctRead] s)) (execGctRead s) := by
  unfold execGctRead
  split
  · refine progress_read (readBytes_cases _ _) fun _ => ?_
    exact progress_of_plain ⟨rfl, rfl, rfl, rfl⟩ (Nat.le_add_right s.pos _) rfl rfl fun _ _ => rfl
  · exact progress_of_plain ⟨rfl, rfl, rfl, rfl⟩ (Nat.le_refl _) rfl rfl fun _ _ => rfl

theorem progress_blockLoop (s : State) : Progress (work (call [.blockLoop] s)) (runLine .blockLoop s) :=
  progress_of_lines ⟨rfl, rfl, rfl, rfl⟩ (Nat.le_refl _) fun _ _ =>
    Nat.add_lt_add_right (show 2 < 3 by decide) _

/-- `BLK.CLASSIFY` (R164). -/
theorem progress_blkClassify (s : State) : Progress (work (call [.run .blkClassify] s)) (execBlkClassify s) :=
  progress_read (peekByte_cases _) fun _ =>
    progress_of_lines ⟨rfl, rfl, rfl, rfl⟩ (Nat.le_refl _) fun _ _ => Nat.add_lt_add_right (show 1 < 2 by decide) _

/-- The four rows of a block introducer (R165, R166, R170, R171): its byte pays for the block and the next round of the
block loop. -/
theorem progress_introducer {s : State} (hroom : s.pos < srcLen s) :
    Progress (work (call [.decodeAt .introducer] s)) (runLine (.decodeAt .introducer) s) := by
  refine progress_decodeAt fun i hd => ?_
  cases hd
  rw [exec_decodeIntroducer]
  split_ifs
  · exact progress_of_byte ⟨rfl, rfl, rfl, rfl⟩ hroom rfl (Nat.lt_succ_self _) fun _ _ => by
      simp only [linesWork]; omega
  · exact progress_of_byte ⟨rfl, rfl, rfl, rfl⟩ hroom rfl (Nat.lt_succ_self _) fun _ _ => by
      simp only [linesWork]; omega
  · exact progress_of_plain ⟨rfl, rfl, rfl, rfl⟩ (Nat.le_refl _) rfl rfl fun _ _ => rfl
  · exact progress_raise _ _ _ _

/-! ### The lines of an image block -/

/-- `IMG.BLOCK` (R180): the separator is still the introducer byte that the peek has seen. -/
theorem progress_imgBlock {s : State} (hr : Resumes .block s) :
    Progress (work (call [.run .imgBlock] s)) (execImgBlock s) := by
  refine progress_of_lines ⟨rfl, rfl, rfl, rfl⟩ (Nat.le_refl _) fun acc left => ?_
  have hrest := linesWork_settled rfl hr.ctl s s acc left 0 left
  simp only [call, List.cons_append, List.nil_append, linesWork, hrest]
  omega

/-- `IMG.SEP` (R181). -/
theorem progress_imgSep (s : State) : Progress (work (call [.run .imgSep] s)) (execImgSep s) := by
  refine progress_read (readByte_cases _) fun _ => ?_
  split
  · exact progress_of_lines ⟨rfl, rfl, rfl, rfl⟩ (Nat.le_add_right _ _) fun _ _ =>
      Nat.lt_add_of_pos_left Nat.one_pos
  · exact progress_raise _ _ _ _

/-- `IMG.DESC` (R182). -/
theorem progress_imgDesc (s : State) : Progress (work (call [.run .imgDesc] s)) (execImgDesc s) := by
  refine progress_read (readHalf_cases _) fun _ => progress_read (readHalf_cases _) fun _ =>
    progress_read (readHalf_cases _) fun _ => progress_read (readHalf_cases _) fun _ =>
    progress_read (readByte_cases _) fun _ => ?_
  exact progress_of_plain ⟨rfl, rfl, rfl, rfl⟩ (Nat.le_add_right s.pos 9) rfl rfl fun _ _ => rfl

/-- `LCT.READ` (R183). -/
theorem progress_lctRead (s : State) : Progress (work (call [.run .lctRead] s)) (execLctRead s) := by
  unfold execLctRead
  split
  · refine progress_read (readBytes_cases _ _) fun _ => ?_
    exact progress_of_plain ⟨rfl, rfl, rfl, rfl⟩ (Nat.le_add_right s.pos _) rfl rfl fun _ _ => rfl
  · exact progress_of_plain ⟨rfl, rfl, rfl, rfl⟩ (Nat.le_refl _) rfl rfl fun _ _ => rfl

/-- `IMG.MCS` (R184). -/
theorem progress_imgMcs (s : State) : Progress (work (call [.run .imgMcs] s)) (execImgMcs s) := by
  refine progress_read (readByte_cases _) fun _ => ?_
  exact progress_of_plain ⟨rfl, rfl, rfl, rfl⟩ (Nat.le_add_right s.pos 1) rfl rfl fun _ _ => rfl

/-- `IMG.DATA` (R185). -/
theorem progress_imgData (s : State) : Progress (work (call [.run .imgData] s)) (execImgData s) :=
  progress_of_lines ⟨rfl, rfl, rfl, rfl⟩ (Nat.le_refl _) fun _ _ =>
    Nat.add_lt_add_right (show 3 < 4 by decide) _

/-- `IMG.DECODE` (R186). -/
theorem progress_imgDecode (s : State) : Progress (work (call [.run .imgDecode] s)) (execImgDecode s) :=
  progress_of_lines ⟨rfl, rfl, rfl, rfl⟩ (Nat.le_refl _) fun _ _ =>
    Nat.add_lt_add_right (Nat.lt_succ_self _) _

/-- `IMG.COMMIT` (R187): no line after it composites the frame that it stores. -/
theorem progress_imgCommit {s : State} (hr : Resumes .block s) :
    Progress (work (call [.run .imgCommit] s)) (execImgCommit s) := by
  unfold execImgCommit
  split
  · refine progress_of_le (Nat.sub_le _ _) ?_
    rw [linesWork_settled rfl hr.ctl s _ (8 * s.acc.length) (bitsLeft s)]
    exact Nat.lt_add_of_pos_left Nat.one_pos
  · exact progress_raise _ _ _ _

/-! ### The lines of the sub-block reader -/

/-- `SBK.READ` (R150): the lines after it are counted for the bytes it will have read. -/
theorem progress_sbkRead {g : Stage} {s : State} (hg : g = .decode ∨ g = .extStore) (hr : Resumes g s) :
    Progress (work (call [.run .sbkRead] s)) (execSbkRead s) := by
  refine progress_of_le (Nat.sub_le _ _) ?_
  have hrest := linesWork_data_le hg hr.ctl s (call [.decodeAt .sbLength] { s with acc := [] }) 0 0
    (bitsLeft s) (bitsLeft (call [.decodeAt .sbLength] { s with acc := [] }))
  exact Nat.add_lt_add_of_lt_of_le (show 1 < 3 by decide) hrest

/-- A byte of the payload pays for the eight bits it adds to `ACC`. -/
theorem progress_of_payload {g : Stage} {s t : State} (hg : g = .decode ∨ g = .extStore) (hr : Resumes g s) (n : Nat)
    (hsrc : t.src = s.src) (hpos : t.pos = s.pos + 1 + n) (hroom : s.pos + 1 + n ≤ srcLen s)
    (hacc : t.acc.length = s.acc.length + n) (hctl : t.ctl = .decodeAt .sbLength :: s.ctl) :
    Progress (work (call [.decodeAt .sbLength] s)) (.next t) := by
  have hrest := linesWork_data_le hg hr.ctl s t (8 * s.acc.length) (8 * n) (bitsLeft s) (bitsLeft t)
  have hlen : srcLen t = srcLen s := congrArg List.length hsrc
  refine progress_of_lt ?_
  rw [work_call, work, hctl, hlen, hpos, hacc, Nat.mul_add]
  simp only [linesWork, introPending, Bool.toNat_false]
  omega

/-- `SBK.DATA` and `SBK.TERM` (R151, R152). -/
theorem progress_sbLength {g : Stage} {s : State} (hg : g = .decode ∨ g = .extStore) (hr : Resumes g s) :
    Progress (work (call [.decodeAt .sbLength] s)) (runLine (.decodeAt .sbLength) s) := by
  refine progress_decodeAt fun i hd => ?_
  obtain ⟨n, rfl⟩ := decode_sbLength_ok hd
  rcases decodeSbLength_cases n with e | e <;> rw [e]
  · refine progress_read (readByte_cases _) fun _ => ?_
    exact progress_of_plain ⟨rfl, rfl, rfl, rfl⟩ (Nat.le_add_right s.pos 1) rfl rfl fun _ _ => rfl
  · refine progress_read (readByte_cases _) fun _ => progress_read (readBytes_cases _ _) fun hroom =>
      progress_of_payload hg hr n.toNat rfl rfl hroom ?_ rfl
    simp only [srcLen] at hroom
    simp only [call_acc, List.length_append, List.length_take, List.length_drop]
    omega

/-! ### The lines of an extension block -/

/-- `EXT.BLOCK` (R190). -/
theorem progress_extBlock (s : State) : Progress (work (call [.run .extBlock] s)) (execExtBlock s) :=
  progress_read (readByte_cases _) fun _ =>
    progress_of_lines ⟨rfl, rfl, rfl, rfl⟩ (Nat.le_refl _) fun _ _ => Nat.add_lt_add_right (show 1 < 2 by decide) _

/-- The five label rows (R191): the label pays for reading the sub-blocks. -/
theorem progress_label {s : State} (hr : Resumes .block s) :
    Progress (work (call [.decodeAt .label] s)) (runLine (.decodeAt .label) s) := by
  refine progress_decodeAt fun i hd => ?_
  obtain ⟨l, rfl⟩ := decode_label_ok hd
  rw [exec_decodeLabel]
  refine progress_read (readByte_cases _) fun hroom => ?_
  refine progress_of_byte ⟨rfl, rfl, rfl, rfl⟩ hroom rfl (Nat.lt_succ_self _) fun acc left => ?_
  have hrest := linesWork_settled rfl hr.ctl s s acc left 0 left
  simp only [call, List.cons_append, List.nil_append, linesWork, hrest]
  omega

/-! ### The lines of the LZW decoder -/

/-- `LZW.RUN` (R200). -/
theorem progress_lzwRun {s : State} (hr : Resumes .commit s) :
    Progress (work (call [.run .lzwRun] s)) (execLzwRun s) := by
  refine progress_of_lines ⟨rfl, rfl, rfl, rfl⟩ (Nat.le_refl _) fun acc left => ?_
  have hrest := linesWork_settled rfl hr.ctl s s acc left acc acc
  simp only [call, List.cons_append, List.nil_append, linesWork, hrest]
  omega

/-- A line that writes the LZW registers and lines that have less work with the bits these leave. -/
theorem progress_of_lzw {l : Line} {s : State} {z : Lzw} {ls : List Line} (hintro : introPending (l :: s.ctl) = false)
    (hlines : linesWork s (8 * s.acc.length) (8 * s.acc.length - bitPos z) ls <
      linesWork s (8 * s.acc.length) (bitsLeft s) (l :: s.ctl)) :
    Progress (work (call [l] s)) (.next { s with lzw := z, ctl := ls }) := by
  have hz := linesWork_congr (s := s) (t := { s with lzw := z, ctl := ls }) rfl
  refine progress_of_le ?_ ((hz _ _ _).trans_lt hlines)
  rw [hintro]
  exact Nat.sub_le _ _

/-- `LZW.INIT` (R201): all the bits of `ACC` are left. -/
theorem progress_lzwInit (cs : Byte) (s : State) :
    Progress (work (call [.run (.lzwInit cs)] s)) (execLzwInit cs s) := by
  unfold execLzwInit
  split
  · exact progress_raise _ _ _ _
  · exact progress_of_lzw rfl (Nat.lt_add_of_pos_left Nat.one_pos)

/-- The head of the loop of R200: `LZW.FETCH` takes the bits of a code, at least three (R203, R204). -/
theorem progress_lzwNext {s : State} (hr : Resumes .commit s) (hz : LzwOk s.lzw) :
    Progress (work (call [.lzwNext] s)) (runLine .lzwNext s) := by
  rw [runLine_lzwNext, decodeLzwNext]
  split
  · refine progress_of_lines ⟨rfl, rfl, rfl, rfl⟩ (Nat.le_add_right _ _) fun _ left => ?_
    exact Nat.lt_add_of_pos_left (Nat.zero_lt_succ _)
  · rename_i hbits
    rw [exec_lzwFetch_of_room hbits]
    have hwidth := hz.width.1
    have hsize := hz.size.1
    have hrest := linesWork_settled rfl hr.ctl s s (8 * s.acc.length) (bitsLeft s) (8 * s.acc.length)
      (8 * s.acc.length - bitPos (fetchCode s.acc s.lzw))
    refine progress_of_lzw rfl ?_
    rw [linesWork, linesWork, hrest, bitPos_fetchCode]
    unfold bitsLeft at hbits ⊢
    omega

theorem bitPos_dataCode (v : List Byte) (z : Lzw) : bitPos (dataCode v z) = bitPos z := by
  simp [bitPos]

/-- A code that has been handled, with the cursor where the fetch has put it. -/
theorem progress_of_code {s t : State} (h : SameData s t) (hpos : t.pos = s.pos)
    (hctl : t.ctl = .lzwNext :: s.ctl ∨ t.ctl = s.ctl) : Progress (work (call [.lzwClassify] s)) (.next t) := by
  refine progress_of_lines h (hpos ▸ Nat.le_add_right _ _) fun acc left => ?_
  rcases hctl with e | e <;> rw [e]
  · exact Nat.add_lt_add_right (Nat.lt_succ_self _) _
  · exact Nat.lt_add_of_pos_left (Nat.zero_lt_succ _)

/-- The fix-up or its fault, with a drift noted or not (R211, R212). -/
theorem progress_takeFixUp {s u : State} (h : SameData s u) (hpos : u.pos = s.pos) (hctl : u.ctl = s.ctl) :
    Progress (work (call [.lzwClassify] s)) (takeFixUp u) := by
  rcases takeFixUp_cases u with ⟨-, e⟩ | ⟨-, e⟩ <;> rw [e]
  · exact progress_raise _ _ _ _
  · exact progress_of_code ⟨h.src, h.frames, h.acc, (bitPos_dataCode _ _).trans h.bits⟩ hpos
      (.inl (congrArg _ hctl))

/-- The classes of a fetched code: one that is in the table has an entry (R117, R206 to R212). -/
theorem progress_lzwClassify {s : State} (hz : LzwOk s.lzw) :
    Progress (work (call [.lzwClassify] s)) (runLine .lzwClassify s) := by
  by_cases hclear : s.lzw.code = s.lzw.clearCode
  · rw [runLine_lzwClassify_clear hclear]
    exact progress_of_code ⟨rfl, rfl, rfl, rfl⟩ rfl (.inl rfl)
  by_cases heoi : s.lzw.code = s.lzw.eoiCode
  · rw [runLine_lzwClassify_eoi hclear heoi]
    exact progress_of_code ⟨rfl, rfl, rfl, rfl⟩ rfl (.inr rfl)
  by_cases hnext : s.lzw.code < s.lzw.nextCode
  · obtain ⟨value, hvalue⟩ := hz.entry_of_allocated hclear heoi hnext
    rw [runLine_lzwClassify_entry hclear heoi hnext hvalue]
    exact progress_of_code ⟨rfl, rfl, rfl, bitPos_dataCode _ _⟩ rfl (.inl rfl)
  by_cases hdrift : s.lzw.nextCode < s.lzw.code ∧ strict s = true
  · rw [runLine_lzwClassify_drift hz hdrift.1 hdrift.2]
    exact progress_raise _ _ _ _
  · rw [runLine_lzwClassify_missing hz (Nat.le_of_not_lt hnext) hdrift]
    exact progress_takeFixUp ⟨rfl, rfl, rfl, rfl⟩ rfl rfl

/-! ### The lines of the compositor -/

theorem frameWork_of_frame {s : State} {k : Nat} {fr : Frame} (hfr : s.img.frames[k]? = some fr) (r c : Nat) :
    frameWork s k r c = pixelWork fr.width.toNat fr.height.toNat r c := by
  rw [frameWork, hfr]

theorem pixelWork_next_column {w h r c : Nat} (hr : r < h) (hc : c < w) :
    pixelWork w h r (c + 1) + 2 = pixelWork w h r c := by
  simp only [pixelWork, if_pos hr]
  omega

theorem pixelWork_next_row {w h r c : Nat} (hr : r < h) : pixelWork w h (r + 1) 0 < pixelWork w h r c := by
  rw [pixelWork, pixelWork, if_pos hr]
  split
  · have hrow : (h - r - 1) * (2 * w + 2) = (h - (r + 1) - 1) * (2 * w + 2) + (2 * w + 2) := by
      rw [← Nat.succ_mul]
      congr 1
      omega
    omega
  · omega

/-- `CMP.FRAME` (R240). -/
theorem progress_cmpFrame {s : State} {k : Nat} (hok : StageOk (.cmpSelect k) s) :
    Progress (work (call [.run (.cmpFrame k)] s)) (exec (.cmpFrame k) s) := by
  rw [exec_cmpFrame (List.getElem?_eq_getElem hok)]
  refine progress_of_lines ⟨rfl, rfl, rfl, rfl⟩ (Nat.le_refl _) fun _ _ => ?_
  simp only [linesWork]
  omega

/-- `CMP.SELECT` (R243): a frame whose flags announce a table holds one. -/
theorem progress_cmpSelect {s : State} {k : Nat} (himg : imgOk s.img = true) (hok : StageOk (.cmpSelect k) s) :
    Progress (work (call [.run (.cmpSelect k)] s)) (execCmpSelect k s) := by
  have hfr : s.img.frames[k]? = some s.img.frames[k] := List.getElem?_eq_getElem hok
  have htable := ((imgOk_iff.mp himg).2 _ (List.mem_of_getElem? hfr)).1
  have good (ct : List Rgb) (n : Nat) :
      Progress (work (call [.run (.cmpSelect k)] s)) (.next { s with ct := ct, ctLen := n }) :=
    progress_of_plain ⟨rfl, rfl, rfl, rfl⟩ (Nat.le_refl _) rfl rfl fun _ _ => rfl
  unfold execCmpSelect
  rw [withFrame_some hfr]
  split
  · rename_i hpresent
    cases hlct : s.img.frames[k].lct with
    | some t => exact good _ _
    | none => simp [tableOk, hlct, hpresent] at htable
  · cases s.img.gct with
    | some t => exact good _ _
    | none => exact progress_raise _ _ _ _

/-- `CMP.CHECK` (R241). -/
theorem progress_cmpCheck {s : State} {k : Nat} (hok : StageOk (.cmpCheck k) s) :
    Progress (work (call [.run (.cmpCheck k)] s)) (exec (.cmpCheck k) s) := by
  rw [exec_cmpCheck (List.getElem?_eq_getElem hok.1)]
  split
  · exact progress_of_plain ⟨rfl, rfl, rfl, rfl⟩ (Nat.le_refl _) rfl rfl fun _ _ => rfl
  · exact progress_raise _ _ _ _

/-- The heads of the loops of `CMP.FRAME` (R240). -/
theorem progress_pixelLoop {s : State} {k r c : Nat} (hok : StageOk (.pixels k) s) :
    Progress (work (call [.pixelLoop k r c] s)) (pixelLoop k r c s) := by
  obtain ⟨-, fr, hfr, -⟩ := hok
  have hwork := frameWork_of_frame hfr
  unfold pixelLoop
  rw [withFrame_some hfr]
  split_ifs with hr hc
  · refine progress_of_lines ⟨rfl, rfl, rfl, rfl⟩ (Nat.le_refl _) fun _ _ => ?_
    have hnext := pixelWork_next_column hr hc
    simp only [call, List.cons_append, List.nil_append, linesWork, hwork]
    omega
  · refine progress_of_lines ⟨rfl, rfl, rfl, rfl⟩ (Nat.le_refl _) fun _ _ => ?_
    simp only [call, List.cons_append, List.nil_append, linesWork, hwork]
    exact Nat.add_lt_add_right (pixelWork_next_row hr) _
  · exact progress_of_lines ⟨rfl, rfl, rfl, rfl⟩ (Nat.le_add_right _ _) fun _ _ =>
      Nat.lt_add_of_pos_left (frameWork_pos ..)

/-- `CMP.PIX` (R242): a frame that fits has the index, the table the entry and `FB` the bytes. -/
theorem progress_cmpPix {s : State} {k r c : Nat} (himg : imgOk s.img = true) (hok : StageOk (.pixel k r c) s) :
    Progress (work (call [.run (.cmpPix k r c)] s)) (exec (.cmpPix k r c) s) := by
  obtain ⟨hct, fr, hfr, hfits, hr, hc⟩ := hok
  obtain ⟨i, hi⟩ := exists_index_of_idxOk ((imgOk_iff.mp himg).2 fr (List.mem_of_getElem? hfr)).2 hr hc
  rcases Nat.lt_or_ge i.toNat s.ctLen with hlt | hge
  · rw [exec_cmpPix_of_entry hfr hfits hr hc hi hlt (List.getElem?_eq_getElem (hct ▸ hlt))]
    exact progress_of_plain ⟨rfl, rfl, rfl, rfl⟩ (Nat.le_refl _) rfl rfl fun _ _ => rfl
  · rw [exec_cmpPix_of_range hfr hi hge]
    exact progress_raise _ _ _ _

/-! ### A step -/

/-- A pending line that may stand where it does makes progress. The cases are those of `after`. -/
theorem progress_runLine {g g' : Stage} {l : Line} {s : State} (ha : after g l = some g') (hr : Resumes g' s)
    (hok : StageOk g s) : Progress (work (call [l] s)) (runLine l s) := by
  unfold after at ha
  split at ha
  -- the demuxer
  · exact progress_demux s
  · exact progress_setPhase _ s
  · exact progress_header s
  · exact progress_setPhase _ s
  · exact progress_lsdesc s
  · exact progress_setPhase _ s
  · exact progress_gctRead s
  · exact progress_blockLoop s
  · exact progress_blkClassify s
  · exact progress_introducer hok
  -- an image block
  · cases ha; exact progress_imgBlock hr
  · exact progress_imgSep s
  · exact progress_imgDesc s
  · exact progress_lctRead s
  · exact progress_imgMcs s
  · exact progress_imgData s
  · cases ha; exact progress_sbkRead (.inl rfl) hr
  · cases ha; exact progress_sbLength (.inl rfl) hr
  · exact progress_imgDecode s
  · cases ha; exact progress_lzwRun hr
  · exact progress_lzwInit _ s
  · obtain ⟨-, -, hz, -⟩ := hok
    cases ha; exact progress_lzwNext hr hz
  · obtain ⟨-, -, hz, -⟩ := hok
    exact progress_lzwClassify hz
  · cases ha; exact progress_imgCommit hr
  -- an extension block
  · exact progress_extBlock s
  · cases ha; exact progress_label hr
  · cases ha; exact progress_sbkRead (.inr rfl) hr
  · cases ha; exact progress_sbLength (.inr rfl) hr
  · -- storeExt
    exact progress_of_plain ⟨rfl, rfl, rfl, rfl⟩ (Nat.le_refl _) rfl rfl fun _ _ => rfl
  · -- endLoad
    exact progress_of_over rfl
  -- the compositor
  · split at ha <;> cases ha; subst_vars; exact progress_cmpFrame hok
  · split at ha <;> cases ha; subst_vars; exact progress_cmpSelect hr.img hok
  · split at ha <;> cases ha; subst_vars; exact progress_cmpCheck hok
  · split at ha <;> cases ha; subst_vars; exact progress_pixelLoop hok
  · split at ha <;> cases ha
    rename_i e
    obtain ⟨rfl, rfl, rfl⟩ := e
    exact progress_cmpPix hr.img hok
  · -- endComposite
    exact progress_of_over rfl
  · -- no line may stand there
    cases ha

/-- A legal running engine has a pending line, which may stand where it does. -/
theorem Legal.exists_line {s : State} (hs : Legal s) (hrun : running s = true) : ∃ g g' l rest,
    s.ctl = l :: rest ∧ after g l = some g' ∧ Resumes g' { s with ctl := rest } ∧ StageOk g s := by
  have hbusy := (running_iff.mp hrun).1
  obtain ⟨himg, g, hctl, hok⟩ := (legal_iff_of_busy hbusy).mp hs
  have hover : g ≠ .over := by rintro rfl; exact hok
  obtain ⟨l, rest, g', hl, ha, hrest⟩ := Machine.exists_line hctl hover
  exact ⟨g, g', l, rest, hl, ha, ⟨himg, hbusy, hrest⟩, hok⟩

theorem Legal.work_pos {s : State} (hs : Legal s) (hrun : running s = true) : 0 < work s := by
  obtain ⟨-, -, l, rest, hl, -⟩ := hs.exists_line hrun
  rw [work, hl]
  exact Nat.add_pos_right _ (linesWork_pos ..)

/-- A step of a legal running engine makes progress: it runs the first pending line. -/
theorem Legal.progress_step {s : State} (hs : Legal s) (hrun : running s = true) : Progress (work s) (step s) := by
  obtain ⟨g, g', l, rest, hl, ha, hr, hok⟩ := hs.exists_line hrun
  have hcall : call [l] { s with ctl := rest } = s := by rw [call, List.singleton_append, ← hl]
  rw [step_eq_runLine hrun hl]
  exact hcall ▸ progress_runLine ha hr (stageOk_ctl.mpr hok)

end Sys2Proof.Machine

/-- Settles O59: the step makes progress on the work left, line by line. -/
theorem workDecreases : Obligations.WorkDecreases := by
  intro s t hs hrun hstep
  obtain ⟨u, hu, hless⟩ := hs.progress_step hrun
  cases hu.symm.trans hstep
  exact hless
end

section
/-! PROOFS. The host commands' first and last lines (R260 to R267). -/

open Sys2Proof Sys2Proof.Machine

namespace Sys2Proof.Machine

/-! ### Commands of an idle engine (R262) -/

theorem accepted_of_idle {s : State} (hidle : s.status.busy = false) (o : Out) : accepted s o = o := by
  rw [accepted, hidle]
  rfl

theorem exec_cmdLoad_of_idle {s : State} (hidle : s.status.busy = false) :
    exec .cmdLoad s = .next (startLoad s) := accepted_of_idle hidle _

theorem exec_cmdComposite_of_frame {s : State} (hidle : s.status.busy = false)
    (hvalid : s.status.resultValid = true) (hframe : s.arg < nFrames s) :
    exec .cmdComposite s = .next (startComposite s) :=
  (accepted_of_idle hidle _).trans (if_neg (not_or.mpr ⟨ne_false_of_eq_true hvalid, Nat.not_le.mpr hframe⟩))

theorem exec_cmdComposite_of_no_frame {s : State} (hidle : s.status.busy = false)
    (h : s.status.resultValid = false ∨ nFrames s ≤ s.arg) :
    exec .cmdComposite s = .next (raise .badCommand 0 2 s) :=
  (accepted_of_idle hidle _).trans (if_pos h)

theorem exec_cmdReserved_of_idle {s : State} (hidle : s.status.busy = false) (code : Byte) :
    exec (.cmdReserved code) s = .next (raise .badCommand 0 code.toNat s) := accepted_of_idle hidle _

theorem decodeCmd_of_reserved {code : Byte} (h : 4 ≤ code.toNat) : decodeCmd code = .cmdReserved code :=
  decodeCmd_of_wf (decide_eq_true h)

/-- An idle engine takes every command. -/
theorem exists_exec_decodeCmd_of_idle {s : State} (hidle : s.status.busy = false) (c : Byte) :
    ∃ t, exec (decodeCmd c) s = .next t := by
  rcases decodeCmd_cases c with e | e | e | e | e <;> rw [e]
  · exact ⟨_, rfl⟩
  · exact ⟨_, exec_cmdLoad_of_idle hidle⟩
  · by_cases h : s.status.resultValid = false ∨ nFrames s ≤ s.arg
    · exact ⟨_, exec_cmdComposite_of_no_frame hidle h⟩
    · exact ⟨_, (accepted_of_idle hidle _).trans (if_neg h)⟩
  · exact ⟨_, rfl⟩
  · exact ⟨_, exec_cmdReserved_of_idle hidle c⟩

end Sys2Proof.Machine

/-- Settles O42: LOAD is accepted, and its last line is `endLoad`. -/
theorem loadStartsAndEnds : Obligations.LoadStartsAndEnds :=
  ⟨fun _ => exec_cmdLoad_of_idle, fun _ _ => step_eq_runLine⟩

/-- Settles O43: COMPOSITE is accepted, with a frame to composite or without, and its last line is `complete`. -/
theorem compositeStartsAndEnds : Obligations.CompositeStartsAndEnds :=
  ⟨fun _ hidle => ⟨fun ⟨hvalid, hframe⟩ => exec_cmdComposite_of_frame hidle hvalid hframe,
      exec_cmdComposite_of_no_frame hidle⟩,
    fun _ _ => step_eq_runLine⟩

/-- Settles O44: RESET is taken whether or not the engine is busy. -/
theorem resetCommand : Obligations.ResetCommand := by
  refine fun s => ⟨rfl, fun hcmd => ?_⟩
  rw [step_command (.inl (by rw [hcmd]; decide)), hcmd]
  rfl

/-- Settles O45: NOP answers its state, and a code from 4 on is that of a reserved command. -/
theorem nopAndReserved : Obligations.NopAndReserved := by
  refine ⟨fun _ => rfl, fun s code hidle => ⟨exec_cmdReserved_of_idle hidle code, fun hcode hcmd => ?_⟩⟩
  rw [step_command (.inr hidle), hcmd, decodeCmd_of_reserved hcode]
  exact exec_cmdReserved_of_idle (s := { s with cmd := 0 }) hidle code
end

section
/-! PROOFS. Every command ends: a legal engine has a next state, and its steps reach the end of the command within the
work left (R266). -/

open Sys2Proof Sys2Proof.Machine

namespace Sys2Proof.Machine

/-- What the end of a command leaves: exactly one of `DONE` and `FAULT` set, and a `PHASE` that the host may see. -/
structure Ended (s : State) : Prop where
  busy : s.status.busy = false
  flags : s.status.done = !s.status.fault
  phase : s.phase = .done ∨ s.phase = .faulted

/-- A step of a legal running engine goes on running or ends the command. -/
theorem Legal.running_or_ended {s t : State} (hs : Legal s) (hrun : running s = true)
    (hex : statusExclusive s.status = true) (h : step s = .next t) :
    (running t = true ∧ statusExclusive t.status = true) ∨ Ended t := by
  obtain ⟨hbusy, hcmd⟩ := running_iff.mp hrun
  have hreset : ¬ resetNext s := hs.not_resetNext (by rw [hcmd]; decide)
  obtain ⟨-, -, l, rest, hl, -⟩ := hs.exists_line hrun
  rw [step_eq_runLine hrun hl] at h
  have htaken := runLine_taken (s := { s with ctl := rest }) hbusy h
  have hex' := htaken.statusExclusive hex
  cases htaken with
  | ran hran =>
    cases hran with
    | done he => exact .inl ⟨running_iff.mpr ⟨he.busy.trans hbusy, he.cmd.trans hcmd⟩, hex'⟩
    | fault he => exact .inr ⟨rfl, rfl, .inr rfl⟩
  | ended _ valid =>
    have hfault : s.status.fault = false := by
      refine Bool.eq_false_iff.mpr fun hf => ?_
      simp [statusExclusive, hbusy, hf] at hex
    exact .inr ⟨rfl, congrArg Bool.not hfault.symm, .inl rfl⟩
  | load hidle | composite hidle => exact absurd (hbusy.symm.trans hidle) (by decide)
  | reset hnext => exact absurd (hnext.imp_right fun e => ⟨hbusy, rest, e ▸ hl⟩) hreset

/-- The work left bounds the steps: each of them that does not end the command lowers it. -/
theorem Legal.ends_within_work {s : State} (hs : Legal s) (hrun : running s = true)
    (hex : statusExclusive s.status = true) : ∃ n t, Reaches n s t ∧ n ≤ work s ∧ Ended t := by
  induction hw : work s using Nat.strong_induction_on generalizing s with
  | _ w ih =>
    obtain ⟨t, hstep, hless⟩ := hs.progress_step hrun
    have hpos := hs.work_pos hrun
    rcases hs.running_or_ended hrun hex hstep with ⟨hrun', hex'⟩ | hended
    · have hlt : work t < w := hw ▸ hless.resolve_left (ne_false_of_eq_true (running_iff.mp hrun').1)
      obtain ⟨n, u, hn, hle, hended⟩ := ih _ hlt (legal_step hs hstep) hrun' hex' rfl
      exact ⟨n + 1, u, hn.head hstep, by omega, hended⟩
    · exact ⟨1, t, Reaches.one hstep, by omega, hended⟩

end Sys2Proof.Machine

/-- Settles O58: an idle engine takes every command and a busy one RESET; without a command the step of a running engine
makes progress, so it answers a next state. -/
theorem engineNeverStuck : Obligations.EngineNeverStuck := by
  intro s hs h
  by_cases hidle : s.status.busy = false
  · rw [step_command (.inr hidle)]
    exact exists_exec_decodeCmd_of_idle (s := { s with cmd := 0 }) hidle s.cmd
  · have hbusy := Bool.eq_true_of_not_eq_false hidle
    rcases h with hidle' | hcmd | hcmd
    · exact absurd hidle' hidle
    · obtain ⟨t, hstep, -⟩ := hs.progress_step (running_iff.mpr ⟨hbusy, hcmd⟩)
      exact ⟨t, hstep⟩
    · exact ⟨_, (resetCommand s).2 hcmd⟩

/-- Settles O60: the steps end the command within the work left. -/
theorem everyCommandEnds : Obligations.EveryCommandEnds := by
  intro s hs hrun hex
  obtain ⟨n, t, hn, hle, hended⟩ := hs.ends_within_work hrun hex
  exact ⟨n, t, hn, hle, hended.busy, hended.flags, hended.phase⟩
end

section
/-! PROOFS. What a fault records and changes and how R292 reads the step that takes one (R281, R290 to R292), and the
idle engine without a command (R321). -/

open Sys2Proof Sys2Proof.Machine

namespace Sys2Proof.Machine

/-! ### The causes of a load and of COMPOSITE (R282) -/

/-- The causes that are none of a load: the compositor's and `BAD_COMMAND`. -/
theorem Cause.not_ofLoad_eq (c : Cause) :
    (!c.ofLoad) = (c == .noColorTable || c == .frameOutsideCanvas || c == .colorIndexRange || c == .badCommand) := by
  cases c <;> rfl

theorem Cause.ofComposite_eq (c : Cause) (a : Nat) :
    c.ofComposite a = (c == .noColorTable || c == .frameOutsideCanvas || c == .colorIndexRange ||
      (c == .badCommand && a == 2)) := by
  cases c <;> rfl

/-! ### A step in the three outcomes of R292 -/

/-- A running command, or one in `CMD`, whose step leaves `FAULT` set: the outcome is a fault with the report left. -/
theorem stepOutcome_of_fault {s t : State} (hactive : s.status.busy = true ∨ s.cmd ≠ 0) (hstep : step s = .next t)
    (hfault : t.status.fault = true) :
    stepOutcome s = .fault (.reported t.faultKind t.faultCause t.faultPos t.faultAux) := by
  simp only [stepOutcome, hstep, if_pos (And.intro hfault hactive)]

theorem stepOutcome_of_no_fault {s t : State} (hstep : step s = .next t) (hfault : t.status.fault = false) :
    stepOutcome s = .next t := by
  have hnot : ¬ (t.status.fault = true ∧ (s.status.busy = true ∨ s.cmd ≠ 0)) := fun ⟨hset, _⟩ =>
    ne_true_of_eq_false hfault hset
  simp only [stepOutcome, hstep, if_neg hnot]

/-! ### The idle engine (R321) -/

/-- At the host's turn `CMD` holds the code of NOP, so a step answers its state. -/
theorem step_of_hostTurn {s : State} (ht : hostTurn s = true) : step s = .next s := by
  have hself : { s with cmd := 0 } = s := congrArg (fun d => { s with cmd := d }) (hostTurn_iff.mp ht).2.symm
  calc step s = step { s with cmd := 0 } := congrArg step hself.symm
    _ = exec (decodeCmd 0) s := step_withCmd ht
    _ = .next s := rfl

end Sys2Proof.Machine

/-- Settles O48: the codes cause by cause, R292's reading of a step with and without a fault, and the change `raise`
makes, with the classes of R282 written as lists of causes. -/
theorem faultEntry : Obligations.FaultEntry := by
  refine ⟨fun _ _ _ => ?codes, fun s u t c p a hactive => ⟨fun hstep => ?fault, ?next⟩, fun c p a s => ⟨?change, ?valid⟩⟩
  case codes => exact ⟨rfl, rfl, rfl, rfl, rfl, rfl, rfl, rfl, rfl, rfl, rfl, rfl⟩
  case fault => exact stepOutcome_of_fault hactive hstep (raise_status_fault c p a u)
  case next => exact stepOutcome_of_no_fault
  case change => simp only [raise, c.ofComposite_eq, Bool.or_assoc]
  case valid => rw [raise_status_resultValid, c.not_ofLoad_eq]

/-- Settles O9: an idle engine is at the host's turn, and the reset state is idle without a result. -/
theorem idleEngineWaits : Obligations.IdleEngineWaits :=
  ⟨fun _ hidle hcmd => step_of_hostTurn (hostTurn_iff.mpr ⟨hidle, hcmd⟩),
    exec_cmdComposite_of_no_frame rfl (.inl rfl)⟩
end
